-- ==== Sys2Proof/Word.lean ====
section
/-! DEFINITION. The words of the block: bytes of the operand buffers, 32-bit bus words and 16-bit
offsets inside the window (spec/00_scope.md R7, R8; spec/20_memory.md R50, R60). -/

namespace Sys2Proof

/-- A byte of an operand buffer. -/
abbrev Byte := BitVec 8

/-- A word of the 32-bit data bus; a command word is one of these (R70, R72). -/
abbrev Word := BitVec 32

/-- A byte offset inside the 64 KiB window (R50): what an access carries beside `BLOCK_BASE`. -/
abbrev Offset := BitVec 16

end Sys2Proof
end

