-- ==== Sys2Proof/Config.lean ====
section
/-! DEFINITION. The parameters spec/00_scope.md R7 leaves OPEN, and the free values of the model. None of
the opaque constants has a body, so a theorem about the model holds for every value of them. -/

namespace Sys2Proof.Config

/-- Which of the 15360 legal capacities the message buffer has. -/
opaque msgCapSelect : Fin 15360

/-- `MSG_CAP` (R7, R30; assumption 1): the message buffer's capacity in bytes. The form makes it a multiple of 4 with
`4 <= MSG_CAP <= 61440` and nothing else about it is known. -/
def msgCap : Nat := 4 * msgCapSelect.val + 4

/-- Which 64 KiB page of the platform's address space holds the window. -/
opaque blockBasePage : Nat

/-- `BLOCK_BASE` (R7, R50; assumption 2): the bus address of offset 0, a multiple of 0x1_0000. -/
def blockBase : Nat := 0x10000 * blockBasePage

/-- `X0_SIGN1_ACCEPT` (R7, R101; assumption 3): whether decoding accepts x = 0 with sign bit 1. -/
opaque x0Sign1Accept : Bool

/-- FREE VALUE (R12, R124, R131; assumption 4): byte `i` of the `n`-th draw of the run. -/
opaque drawByte (n i : Nat) : Byte

/-- FREE VALUE (R90; assumption 6): what `FeInv(0)` is, which the spec leaves undefined and no rule reaches. -/
opaque feInvZero : Nat

end Sys2Proof.Config
end

