-- ==== Sys2Proof/Syntax.lean ====
section
/-! DEFINITION. The commands of the block: one constructor for each row of spec/opcode_table.json
(spec/30_encoding.md R73). A command has no operand field (R71). -/

namespace Sys2Proof

/-- The four commands; a command word takes the place of an instruction (spec/00_scope.md R3). -/
inductive Instr where
  /-- SIGN: sign(KEY, MSG, SEED) into SIG (spec/41_sign.md R115). -/
  | sign
  /-- MAP: the Montgomery-to-Edwards map of PK into AED (spec/42_map.md R130). -/
  | map
  /-- VERIFY: verify(PK, MSG, SIG) into STATUS.RESULT (spec/43_verify.md R140). -/
  | verify
  /-- CLEAR: zero every buffer and MSG_LEN (spec/44_clear.md R160). -/
  | clear
  deriving DecidableEq, Repr

/-- The two fields of the format CMD32 (R70), not yet read as a command. -/
structure CmdWord where
  /-- Bits 31:8, reserved. -/
  res : BitVec 24
  /-- Bits 7:0, the opcode. -/
  opc : BitVec 8
  deriving DecidableEq, Repr

end Sys2Proof
end

