-- ==== Sys2Proof/WellFormed.lean ====
section
/-! DEFINITION. Well-formed command words (spec/30_encoding.md R70, R73, R74) and the legal range of the
parameter `MSG_CAP` (spec/00_scope.md R7). -/

namespace Sys2Proof

/-- RES must be 0 (R70). -/
def CmdWord.reservedZero (c : CmdWord) : Bool := c.res == 0

/-- OPC must be one of the table of R73. -/
def CmdWord.opcodeKnown (c : CmdWord) : Bool :=
  c.opc == 1 || c.opc == 2 || c.opc == 3 || c.opc == 4

/-- A command word is legal when both of its fields are (R70); every other word is illegal (R74). -/
def CmdWord.wf (c : CmdWord) : Bool := c.reservedZero && c.opcodeKnown

/-- The fields of a command's word (R73). -/
def Instr.fields : Instr → CmdWord
  | .sign => ⟨0, 0x01⟩
  | .map => ⟨0, 0x02⟩
  | .verify => ⟨0, 0x03⟩
  | .clear => ⟨0, 0x04⟩

/-- A command is well formed when its word is; it has no operand that could be otherwise (R71). -/
def Instr.wf (i : Instr) : Bool := i.fields.wf

/-- The capacities R7 admits: a multiple of 4 with `4 <= n <= 61440`. -/
def legalMsgCap (n : Nat) : Bool := n % 4 == 0 && decide (4 ≤ n) && decide (n ≤ 61440)

end Sys2Proof
end

