-- ==== Sys2Proof/Decode.lean ====
section
/-! DEFINITION. Decoding a command word (spec/30_encoding.md R70, R72, R74) and encoding one (R73). -/

namespace Sys2Proof

/-- Why a word, or a string of bytes, is no command. The first two are the `ILLEGAL` of R70. -/
inductive DecodeError where
  /-- A bit of RES (31:8) is 1. Raised by `decode`. Safe: R74 makes the word a command error. -/
  | reservedBits
  /-- RES is 0 and OPC is not in the table of R73. Raised by `decode`. Safe: as above. -/
  | unknownOpcode
  /-- The bytes are not exactly one 32-bit word (R72). Raised by `decodeBytes`. Safe: the bus carries
  whole words only. -/
  | notOneWord
  deriving DecidableEq, Repr

/-- The fields of a word: RES is bits 31:8 and OPC is bits 7:0 (R70). -/
def splitWord (w : Word) : CmdWord := ⟨w.extractLsb' 8 24, w.extractLsb' 0 8⟩

/-- The word of two fields. -/
def CmdWord.toWord (c : CmdWord) : Word := c.res ++ c.opc

/-- The command of an opcode (R73). -/
def decodeOpcode (opc : BitVec 8) : Option Instr :=
  if opc = 0x01 then some .sign
  else if opc = 0x02 then some .map
  else if opc = 0x03 then some .verify
  else if opc = 0x04 then some .clear
  else none

/-- The decoder of R70. It reads nothing but the word. -/
def decode (w : Word) : Except DecodeError Instr :=
  if (splitWord w).res ≠ 0 then .error .reservedBits
  else match decodeOpcode (splitWord w).opc with
    | some i => .ok i
    | none => .error .unknownOpcode

/-- Decoding bytes laid out as the bus lays them out, the byte at the lowest offset first (spec/20_memory.md R53). -/
def decodeBytes : List Byte → Except DecodeError Instr
  | [b0, b1, b2, b3] => decode (b3 ++ b2 ++ b1 ++ b0)
  | _ => .error .notOneWord

/-- The opcode of a command: what `CUR_OP` and `STATUS.LASTOP` hold of it (spec/10_state.md R35). -/
def Instr.opcode (i : Instr) : BitVec 8 := i.fields.opc

/-- The command's word (R73). -/
def encode (i : Instr) : Word := i.fields.toWord

/-- The bytes of a word, the byte at the lowest offset first (R53). -/
def wordBytes (w : Word) : List Byte :=
  [w.extractLsb' 0 8, w.extractLsb' 8 8, w.extractLsb' 16 8, w.extractLsb' 24 8]

/-- The word of which a table row gives the low `nbits` bits, those above being 0. -/
def tableWord (nbits w : Nat) : Word := BitVec.ofNat 32 (w % 2 ^ nbits)

/-- What the decoder reads from the instruction whose bits are `w`, laid out as the bus lays it out. -/
def decodeTableWord (nbits w : Nat) : Option Instr :=
  match decodeBytes (wordBytes (tableWord nbits w)) with
  | .ok i => some i
  | .error _ => none

end Sys2Proof
end

