-- ==== Sys2Proof/Machine/State.lean ====
section
/-! DEFINITION. The state of the block: everything spec/10_state.md gives it (R20 to R40), and, marked as
the model's own, the bus port, the agenda of outside events and the counter of draws. -/

namespace Sys2Proof.Machine

/-- The engine state `ENG` (R21). -/
inductive Eng where
  | idle
  | busy
  deriving DecidableEq, Repr

/-- The fields of `CTRL` that hold a value (R23); bits 31:3 read as 0. -/
structure Ctrl where
  /-- IE, bit 0: interrupt enable. -/
  ie : Bool
  /-- SCHK, bits 2:1: the canonical-S policy; never 3 (R24). -/
  schk : BitVec 2
  deriving DecidableEq, Repr

/-- The fields of `STATUS` (R26) but BUSY, which is `ENG` seen on the bus (R21) and is computed from it. -/
structure Status where
  /-- DONE, bit 1. -/
  done : Bool
  /-- RESULT, bit 2. -/
  result : Bool
  /-- EXCL, bit 3. -/
  excl : Bool
  /-- ERR, bit 4. -/
  err : Bool
  /-- ERRCODE, bits 11:8. -/
  errCode : BitVec 4
  /-- LASTOP, bits 23:16. -/
  lastOp : BitVec 8
  deriving DecidableEq, Repr

/-- The hidden intermediates of R37, one store for each that the rule names. No access reads them. A command fills its own from its accept
on; those that it does not compute keep the zero they hold while the engine is idle (assumption 5). -/
structure Intermediates where
  /-- SIGN: A, the encoded Edwards public point. -/
  signA : BitVec 256
  /-- SIGN: rReduced. -/
  signR : BitVec 256
  /-- SIGN: EncodedR. -/
  signEncodedR : BitVec 256
  /-- SIGN: hReduced. -/
  signH : BitVec 256
  /-- SIGN: S. -/
  signS : BitVec 256
  /-- MAP and VERIFY: the field element montX. -/
  montX : BitVec 256
  /-- MAP and VERIFY: edY. -/
  edY : BitVec 256
  /-- MAP and VERIFY: A_ed. -/
  aEd : BitVec 256
  /-- VERIFY: the stripped S. -/
  strippedS : BitVec 256
  /-- VERIFY: the challenge h. -/
  challenge : BitVec 256
  deriving DecidableEq, Repr

/-- The intermediates zeroed, as completion and reset leave them (R36, R37, R40). -/
def Intermediates.zero : Intermediates := ⟨0, 0, 0, 0, 0, 0, 0, 0, 0, 0⟩

/-- The width of a bus access; only 32 bits is answered without an error (R52; assumption 18). -/
inductive Width where
  | w8
  | w16
  | w32
  | w64
  deriving DecidableEq, Repr

/-- One bus access at an offset inside the window (spec/00_scope.md R11). A read carries no data and a write
carries its four byte strobes and its word. -/
inductive Access where
  | read (off : Offset) (width : Width)
  | write (off : Offset) (width : Width) (strobes : BitVec 4) (value : Word)
  deriving DecidableEq, Repr

/-- What the block answers to one bus access (R54, R55, R56). -/
inductive Response where
  /-- A write was taken; a command error (R166) does not show here. -/
  | written
  /-- A read's word (R55). -/
  | value (v : Word)
  /-- `raise BusError(addr)` (R54, R171): the error response of the bus. -/
  | busError (off : Offset)
  deriving DecidableEq, Repr

/-- What can happen to the block from outside it, or at a time the outside cannot choose (R62, R185). -/
inductive Event where
  /-- A bus access reaches the block (R61). -/
  | access (a : Access)
  /-- The point in time where a running command completes (R62, R196). -/
  | complete
  /-- A clock edge with `rst` = 1 (R185). -/
  | reset
  deriving DecidableEq, Repr

/-- The bytes of the operand buffers, each keyed by its offset in the window (R31; assumption 17): offsets strictly rising, and
no entry that holds 0, which is what an unlisted byte reads as (its reset value, R40). -/
abbrev Memory := List Host.Cell

/-- Everything the spec gives the block, and three things of the model's own. -/
structure State where
  /-- `ENG`, visible as `STATUS.BUSY` (R21, R26). -/
  eng : Eng
  /-- `CUR_OP`: the opcode of the running command (R21, R35). -/
  curOp : BitVec 8
  /-- `CUR_SCHK`: SCHK as a running VERIFY latched it (R25, R35). -/
  curSchk : BitVec 2
  /-- `CUR_LEN`: MSG_LEN as the running command latched it (R35). -/
  curLen : Word
  /-- The hidden intermediates (R37). -/
  hidden : Intermediates
  /-- `CTRL` (R23). -/
  ctrl : Ctrl
  /-- `STATUS` without BUSY (R26). -/
  status : Status
  /-- `MSG_LEN` (R29). -/
  msgLen : Word
  /-- KEY, SEED, PK, SIG, AED and MSG (R31). -/
  mem : Memory
  /-- The model's own (assumption 7): the access the bus slave port performs in this step, if there is one. -/
  port : Option Access
  /-- The model's own (assumption 7): what the block answered to that access. -/
  response : Option Response
  /-- The model's own (assumption 8): the events still to come, the next one first. -/
  agenda : List Event
  /-- The model's own (assumption 4): how many draws the run has made. -/
  draws : Nat
  deriving DecidableEq, Repr

/-- The state after `rst` (R40): `CTRL` is 0x0000_0004 and all else is 0; the model's own fields are empty. -/
def State.reset : State where
  eng := .idle
  curOp := 0
  curSchk := 0
  curLen := 0
  hidden := .zero
  ctrl := ⟨false, 2⟩
  status := ⟨false, false, false, false, 0, 0⟩
  msgLen := 0
  mem := []
  port := none
  response := none
  agenda := []
  draws := 0

/-- Why a step stops. -/
inductive Fault where
  /-- Raised by `completeCommand` and by `step` in a state with `ENG == BUSY` and no command of the table in `CUR_OP`, or when a
  completion is asked of a command that is not running. R187 says a model must not start so, and no run from
  reset comes there (assumption 9). Safe: nothing is concluded about such a state. -/
  | noPendingCommand
  deriving DecidableEq, Repr

/-- Why a step gives no meaning to an instruction. -/
inductive Refusal where
  /-- Raised by an arm of `exec` for a command that has no meaning yet. Safe. No arm does. -/
  | notModelled (mnemonic : String)
  deriving DecidableEq, Repr

/-- The outcome of a step of the block. -/
abbrev Result := Host.Outcome State Fault Refusal

end Sys2Proof.Machine
end

