-- ==== Sys2Proof/Machine/Flags.lean ====
section
/-! DEFINITION. The flags: how `STATUS` and `CTRL` read and what a write of them does (spec/10_state.md R23 to R27), and the
interrupt output (spec/60_exceptions.md R172). -/

namespace Sys2Proof.Machine

/-- `STATUS.BUSY`, which is `ENG` (R21). -/
def State.busy (s : State) : Bool := s.eng == .busy

/-- What a read of `STATUS` returns (R26, R55): reserved bits 0. -/
def State.statusWord (s : State) : Word :=
  (0 : BitVec 8) ++ s.status.lastOp ++ (0 : BitVec 4) ++ s.status.errCode ++ (0 : BitVec 3) ++
    BitVec.ofBool s.status.err ++ BitVec.ofBool s.status.excl ++ BitVec.ofBool s.status.result ++
    BitVec.ofBool s.status.done ++ BitVec.ofBool s.busy

/-- What a read of `CTRL` returns (R55): bits 31:3 are 0. -/
def Ctrl.word (c : Ctrl) : Word := (0 : BitVec 29) ++ c.schk ++ BitVec.ofBool c.ie

/-- What a write of `v` to `CTRL` stores (R24): 3 in SCHK is stored as 2, bits 31:3 are ignored. -/
def Ctrl.ofWord (v : Word) : Ctrl :=
  ⟨v.getLsbD 0, if v.extractLsb' 1 2 = 3 then 2 else v.extractLsb' 1 2⟩

/-- What a write of `v` to `STATUS` leaves (R27): a 1 in bit 1 clears DONE, a 1 in bit 4 clears ERR and
ERRCODE. -/
def Status.clearBits (t : Status) (v : Word) : Status :=
  let t1 := if v.getLsbD 1 then { t with done := false } else t
  if v.getLsbD 4 then { t1 with err := false, errCode := 0 } else t1

/-- `raise CmdError(code)` on the flags (R166). -/
def Status.raise (t : Status) (code : BitVec 4) : Status := { t with err := true, errCode := code }

/-- The flags at the accept of an opcode (R35); ERR and ERRCODE stay. -/
def Status.accept (t : Status) (op : BitVec 8) : Status :=
  { t with done := false, result := false, excl := false, lastOp := op }

/-- The interrupt output (R172): a level, a function of the state, with no cycle of delay (assumption 14). -/
def State.irq (s : State) : Bool := s.ctrl.ie && (s.status.done || s.status.err)

end Sys2Proof.Machine
end

