-- ==== Sys2Proof/Machine/Bytes.lean ====
section
/-! DEFINITION. Byte strings and the integers and words they stand for (spec/00_scope.md R8, R9; spec/20_memory.md R53,
R59). -/

namespace Sys2Proof.Machine

/-- `LE(b)` (R9): byte 0 is the least significant. -/
def leNat : List Byte → Nat
  | [] => 0
  | b :: bs => b.toNat + 256 * leNat bs

/-- The `n` bytes of `v mod 256^n`, least significant first; `LE32` (R9) is `leBytes 32`. -/
def leBytes : Nat → Nat → List Byte
  | 0, _ => []
  | n + 1, v => BitVec.ofNat 8 v :: leBytes n (v / 256)

/-- The `n` bytes of `v mod 256^n`, most significant first (SHA-512's order, R103). -/
def beBytes : Nat → Nat → List Byte
  | 0, _ => []
  | n + 1, v => beBytes n (v / 256) ++ [BitVec.ofNat 8 v]

/-- A byte string as it is held in a store of 256 bits (R37). -/
def bytesWord (b : List Byte) : BitVec 256 := BitVec.ofNat 256 (leNat b)

/-- `b[i]` of a byte string (R9); 0 past its end, which no rule reads. -/
def byteAt (b : List Byte) (i : Nat) : Byte := b.getD i 0

/-- `0^n` (R9). -/
def zeros (n : Nat) : List Byte := List.replicate n 0

/-- The bits `mask` of byte `i` set: `b[i] <- b[i] | mask`. -/
def orByte (b : List Byte) (i : Nat) (mask : Byte) : List Byte := b.set i (byteAt b i ||| mask)

/-- The bits outside `mask` of byte `i` cleared: `b[i] <- b[i] & mask`. -/
def andByte (b : List Byte) (i : Nat) (mask : Byte) : List Byte := b.set i (byteAt b i &&& mask)

/-- The word of four bytes, byte 0 in bits 7:0 (R53). -/
def laneWord (b0 b1 b2 b3 : Byte) : Word := b3 ++ b2 ++ b1 ++ b0

end Sys2Proof.Machine
end

