-- ==== Sys2Proof/Machine/Memory.lean ====
section
/-! DEFINITION. The named operations over the bytes of the operand buffers (spec/10_state.md R31; spec/20_memory.md R53).
Every one keeps the canonical form `Memory.wf`. -/

namespace Sys2Proof.Machine

/-- The byte an unlisted offset holds: every buffer byte is 0 after reset (R40; assumption 17). -/
def unlistedByte : Byte := 0

/-- The byte at an offset. -/
def readByte : Memory → Nat → Byte
  | [], _ => unlistedByte
  | (k, v) :: m, a => if k = a then v else readByte m a

/-- The cell list with the byte at an offset replaced; writing what an unlisted byte holds removes the entry. -/
def writeByte : Memory → Nat → Byte → Memory
  | [], a, b => if b = unlistedByte then [] else [(a, b)]
  | (k, v) :: m, a, b =>
    if k < a then (k, v) :: writeByte m a b
    else if k = a then (if b = unlistedByte then m else (a, b) :: m)
    else if b = unlistedByte then (k, v) :: m
    else (a, b) :: (k, v) :: m

/-- `BUF[i .. i+n-1]` as a byte string. -/
def readBytes (m : Memory) : Nat → Nat → List Byte
  | _, 0 => []
  | a, n + 1 => readByte m a :: readBytes m (a + 1) n

/-- `BUF[i ..] <- b`: the bytes of a string stored from an offset on. -/
def writeBytes : Memory → Nat → List Byte → Memory
  | m, _, [] => m
  | m, a, b :: bs => writeBytes (writeByte m a b) (a + 1) bs

/-- `BUF[i .. i+n-1] <- 0^n`. -/
def zeroBytes (m : Memory) (a n : Nat) : Memory :=
  m.filter fun c => decide (c.1 < a) || decide (a + n ≤ c.1)

/-- Every offset listed is at least `lo`, offsets strictly rise, and no entry holds what an unlisted byte does. -/
def Memory.wfFrom : Nat → Memory → Bool
  | _, [] => true
  | lo, (k, v) :: m => decide (lo ≤ k) && decide (v ≠ unlistedByte) && Memory.wfFrom (k + 1) m

/-- The canonical form: equal memories are equal lists. -/
def Memory.wf (m : Memory) : Bool := Memory.wfFrom 0 m

end Sys2Proof.Machine
end

