-- ==== Sys2Proof/Machine/Operands.lean ====
section
/-! DEFINITION. Where the operand buffers lie and how a command reads them: every operand is implicit
(spec/10_state.md R31, R34; spec/30_encoding.md R71). -/

namespace Sys2Proof.Machine

/-- Offset of KEY[0] (R31). -/
def keyBase : Nat := 0x100

/-- Offset of SEED[0] (R31). -/
def seedBase : Nat := 0x120

/-- Offset of PK[0] (R31). -/
def pkBase : Nat := 0x160

/-- Offset of SIG[0] (R31). -/
def sigBase : Nat := 0x180

/-- Offset of AED[0] (R31). -/
def aedBase : Nat := 0x1C0

/-- Offset of MSG[0] (R31). -/
def msgBase : Nat := 0x1000

/-- `KEY[0..31]`. -/
def State.key (s : State) : List Byte := readBytes s.mem keyBase 32

/-- `SEED[0..63]`. -/
def State.seed (s : State) : List Byte := readBytes s.mem seedBase 64

/-- `PK[0..31]`. -/
def State.pk (s : State) : List Byte := readBytes s.mem pkBase 32

/-- `SIG[0..63]`. -/
def State.sig (s : State) : List Byte := readBytes s.mem sigBase 64

/-- `AED[0..31]`. -/
def State.aed (s : State) : List Byte := readBytes s.mem aedBase 32

/-- `MSG[0 .. CUR_LEN-1]`, the message of the running command (R34, R35). -/
def State.message (s : State) : List Byte := readBytes s.mem msgBase s.curLen.toNat

/-- `SIG[0..31]`: EncodedR (R122). -/
def sigR (sig : List Byte) : List Byte := sig.take 32

/-- `SIG[32..63]`: S (R122). -/
def sigS (sig : List Byte) : List Byte := sig.drop 32

/-- `SIG[63] & 0x80`: the sign bit a Signer stored (R123, R133). -/
def sigSignBit (sig : List Byte) : Byte := byteAt sig 63 &&& 0x80

end Sys2Proof.Machine
end

