-- ==== Sys2Proof/Machine/Ops.lean ====
section
/-! DEFINITION. The operations the commands share: the error a command word can raise, its accept and its completion
(spec/10_state.md R35 to R37; spec/60_exceptions.md R166, R167), the draws (spec/00_scope.md R12) and reset
(spec/70_reset_and_hazards.md R185). -/

namespace Sys2Proof.Machine

/-- `raise CmdError(code)` (R166): the block's one kind of exception that changes state. It saves nothing and transfers no
control (R175). -/
def raiseCmdError (code : BitVec 4) (s : State) : State := { s with status := s.status.raise code }

/-- ERRCODE 1, ILLEGAL (R169). -/
def errIllegal : BitVec 4 := 1

/-- ERRCODE 2, BUSY (R169). -/
def errBusy : BitVec 4 := 2

/-- ERRCODE 3, MSGLEN (R169). -/
def errMsgLen : BitVec 4 := 3

/-- `draw bytes[n]` (R12). -/
@[irreducible] def drawBytes (draw n : Nat) : List Byte := (List.range n).map (Config.drawByte draw)

/-- What the accept of a command writes of the engine, its latches and `STATUS` (R35). -/
def latchCommand (i : Instr) (s : State) : State :=
  { s with
    eng := .busy
    curOp := i.opcode
    curSchk := if i = .verify then s.ctrl.schk else s.curSchk
    curLen := s.msgLen
    status := s.status.accept i.opcode }

/-- The accept of a command (R35). From then on the block holds the command's intermediates (R37; assumption 5): `held` computes them from
the operands, which cannot change while the command runs. -/
def acceptCommand (i : Instr) (held : State → Intermediates) (s : State) : State :=
  { latchCommand i s with hidden := held (latchCommand i s) }

/-- Whether a command's accept checks `MSG_LEN` against `MSG_CAP` (R167). -/
def checksLength (i : Instr) : Bool := i == .sign || i == .verify

/-- A write of a command's word to `CMD` (R167, its checks in their order; the word's own legality has been
decided by `decode`). -/
def issueCommand (i : Instr) (held : State → Intermediates) (s : State) : State :=
  if s.eng = .busy then raiseCmdError errBusy s
  else if checksLength i && decide (Config.msgCap < s.msgLen.toNat) then raiseCmdError errMsgLen s
  else acceptCommand i held s

/-- A write to `CMD` of a word that is no command (R167): busy is checked before the word is decoded. -/
def issueIllegal (s : State) : State :=
  if s.eng = .busy then raiseCmdError errBusy s else raiseCmdError errIllegal s

/-- What every completion does beside the command's own effect (R36): the engine is idle again, DONE is set
and all of the hidden state is zeroed (R37; assumption 13). -/
def retire (s : State) : State :=
  { s with
    eng := .idle
    curOp := 0
    curSchk := 0
    curLen := 0
    hidden := .zero
    status := { s.status with done := true } }

/-- The completion of a running command: its effect and `retire`, in one indivisible update (R36). -/
def completeCommand (i : Instr) (effect : State → State) (s : State) : Result :=
  if s.eng = .busy ∧ s.curOp = i.opcode then .next (retire (effect s)) else .fault .noPendingCommand

/-- A command's life in its two moments: when the bus port carries an access, that access is the write of
the command's word to `CMD`; when it carries none, the step is the block's own and the command completes (R35,
R36; assumption 7). `held` gives its intermediates (R37) and `effect` its effect. -/
def runCommand (i : Instr) (held : State → Intermediates) (effect : State → State) (s : State) : Result :=
  match s.port with
  | some _ => .next (issueCommand i held s)
  | none => completeCommand i effect s

/-- A clock edge with `rst` = 1 (R185): every piece of the block's state takes its value of R40; what is still to
come from outside, and the count of draws, are not the block's (assumption 15). -/
def resetBlock (s : State) : State := { State.reset with agenda := s.agenda, draws := s.draws }

end Sys2Proof.Machine
end

