-- ==== Sys2Proof/Machine/Clear.lean ====
section
/-! DEFINITION. CLEAR (spec/44_clear.md R160 to R162). -/

namespace Sys2Proof.Machine

/-- The six buffers zeroed; KEY to AED lie in one run of offsets, 0x100 to 0x1DF (R31). -/
def zeroBuffers (m : Memory) : Memory :=
  zeroBytes (zeroBytes m keyBase 0xE0) msgBase Config.msgCap

/-- CLEAR's effect at completion (R160). -/
def clearEffect (s : State) : State := { s with mem := zeroBuffers s.mem, msgLen := 0 }

/-- CLEAR has no intermediates (R37). -/
def clearIntermediates (_ : State) : Intermediates := .zero

/-- CLEAR (R160). -/
def execClear (s : State) : Result := runCommand .clear clearIntermediates clearEffect s

end Sys2Proof.Machine
end

