-- ==== Sys2Proof/Machine/Field.lean ====
section
/-! DEFINITION. The field of spec/40_primitives.md R86 to R90. A field element is a `Nat` below `p`; every
operation answers one. -/

namespace Sys2Proof.Machine

/-- The field prime (R86). -/
def p : Nat := 57896044618658097711785492504343953926634992332820282019728792003956564819949

/-- `a + b` over field elements (R89). -/
def feAdd (a b : Nat) : Nat := (a + b) % p

/-- `a - b` over field elements (R89). -/
def feSub (a b : Nat) : Nat := (a + (p - b % p)) % p

/-- `a * b` over field elements (R89). -/
def feMul (a b : Nat) : Nat := a * b % p

/-- `b^e mod p` for `e < 64^n`, by the digits of `e` in base 64, the most significant first. -/
def powDigits : Nat → Nat → Nat → Nat
  | 0, _, _ => 1
  | n + 1, b, e => feMul (Nat.pow (powDigits n b (e / 64)) 64) (Nat.pow b (e % 64))

/-- `b^e mod p` for an exponent below `64^43`. -/
@[irreducible] def fePow (b e : Nat) : Nat := powDigits 43 b e

/-- `FeInv(x)` (R90): the inverse of `x` for `x != 0`, by Fermat's little theorem. R90 leaves
`FeInv(0)` undefined, so it is a free value (assumption 6). -/
def feInv (x : Nat) : Nat := if x % p = 0 then Config.feInvZero % p else fePow x (p - 2)

/-- `LE(b) & (2^255 - 1)`: the integer of an encoding without its sign bit. -/
def low255 (b : List Byte) : Nat := leNat b % 2 ^ 255

/-- `FeDecode(b)` (R87): bit 255 is ignored and a non-canonical value is reduced. -/
def feDecode (b : List Byte) : Nat := low255 b % p

/-- `FeEncode(x)` (R88). -/
def feEncode (x : Nat) : List Byte := leBytes 32 x

/-- The field element 2^((p-1)/4), a square root of -1. -/
def sqrtMinusOne : Nat := fePow 2 ((p - 1) / 4)

/-- A field element `s` with `s * s == t`, if there is one (used by R101). As p is 5 mod 8, a root is
`t^((p+3)/8)` or that times a root of -1 (assumption 10). -/
def feSqrt (t : Nat) : Option Nat :=
  let r := fePow t ((p + 3) / 8)
  let r' := feMul r sqrtMinusOne
  if feMul r r = t then some r else if feMul r' r' = t then some r' else none

end Sys2Proof.Machine
end

