-- ==== Sys2Proof/Machine/Map.lean ====
section
/-! DEFINITION. MAP, the birational mapper (spec/42_map.md R130 to R137). -/

namespace Sys2Proof.Machine

/-- Step 2 of the map (R132): `edY`, for a `u` other than p - 1. -/
def edwardsY (u : Nat) : Nat := feMul (feSub u 1) (feInv (feAdd u 1))

/-- `MapCore(pk, sb)` (R132); `none` is `ok = false`, the excluded input u = p - 1. -/
@[irreducible] def mapCore (pk : List Byte) (sb : Byte) : Option (List Byte) :=
  let u := feDecode pk
  if u = p - 1 then none
  else some (orByte (feEncode (edwardsY u)) 31 sb)

/-- MAP's effect at completion (R130): AED is written, by a draw on the excluded input, which sets EXCL (R131). -/
def mapEffect (s : State) : State :=
  match mapCore s.pk (sigSignBit s.sig) with
  | some aed => { s with mem := writeBytes s.mem aedBase aed }
  | none =>
    { s with
      mem := writeBytes s.mem aedBase (drawBytes s.draws 32)
      status := { s.status with excl := true }
      draws := s.draws + 1 }

/-- The intermediates of `MapCore` (R37, R132): montX, and on an input that maps edY and A_ed. -/
@[irreducible] def mapCoreIntermediates (pk : List Byte) (sb : Byte) : Intermediates :=
  let held := { Intermediates.zero with montX := BitVec.ofNat 256 (feDecode pk) }
  match mapCore pk sb with
  | some aed => { held with edY := BitVec.ofNat 256 (edwardsY (feDecode pk)), aEd := bytesWord aed }
  | none => held

/-- The intermediates of MAP (R37). -/
def mapIntermediates (s : State) : Intermediates := mapCoreIntermediates s.pk (sigSignBit s.sig)

/-- MAP (R130). -/
def execMap (s : State) : Result := runCommand .map mapIntermediates mapEffect s

end Sys2Proof.Machine
end

