-- ==== Sys2Proof/Machine/Hash.lean ====
section
/-! DEFINITION. `HASH512` is SHA-512 (spec/40_primitives.md R103). The spec names FIPS 180-4 and gives none of its constants or
functions: they are taken from there (assumption 12). -/

namespace Sys2Proof.Machine

/-- A word of SHA-512. -/
abbrev Lane := BitVec 64

/-- The eight chaining words of SHA-512. -/
structure Chain where
  a : Lane
  b : Lane
  c : Lane
  d : Lane
  e : Lane
  f : Lane
  g : Lane
  h : Lane
  deriving DecidableEq, Repr

/-- The 80 round constants of SHA-512. -/
def roundConstants : List Lane :=
    [0x428A2F98D728AE22, 0x7137449123EF65CD, 0xB5C0FBCFEC4D3B2F, 0xE9B5DBA58189DBBC] ++
    [0x3956C25BF348B538, 0x59F111F1B605D019, 0x923F82A4AF194F9B, 0xAB1C5ED5DA6D8118] ++
    [0xD807AA98A3030242, 0x12835B0145706FBE, 0x243185BE4EE4B28C, 0x550C7DC3D5FFB4E2] ++
    [0x72BE5D74F27B896F, 0x80DEB1FE3B1696B1, 0x9BDC06A725C71235, 0xC19BF174CF692694] ++
    [0xE49B69C19EF14AD2, 0xEFBE4786384F25E3, 0x0FC19DC68B8CD5B5, 0x240CA1CC77AC9C65] ++
    [0x2DE92C6F592B0275, 0x4A7484AA6EA6E483, 0x5CB0A9DCBD41FBD4, 0x76F988DA831153B5] ++
    [0x983E5152EE66DFAB, 0xA831C66D2DB43210, 0xB00327C898FB213F, 0xBF597FC7BEEF0EE4] ++
    [0xC6E00BF33DA88FC2, 0xD5A79147930AA725, 0x06CA6351E003826F, 0x142929670A0E6E70] ++
    [0x27B70A8546D22FFC, 0x2E1B21385C26C926, 0x4D2C6DFC5AC42AED, 0x53380D139D95B3DF] ++
    [0x650A73548BAF63DE, 0x766A0ABB3C77B2A8, 0x81C2C92E47EDAEE6, 0x92722C851482353B] ++
    [0xA2BFE8A14CF10364, 0xA81A664BBC423001, 0xC24B8B70D0F89791, 0xC76C51A30654BE30] ++
    [0xD192E819D6EF5218, 0xD69906245565A910, 0xF40E35855771202A, 0x106AA07032BBD1B8] ++
    [0x19A4C116B8D2D0C8, 0x1E376C085141AB53, 0x2748774CDF8EEB99, 0x34B0BCB5E19B48A8] ++
    [0x391C0CB3C5C95A63, 0x4ED8AA4AE3418ACB, 0x5B9CCA4F7763E373, 0x682E6FF3D6B2B8A3] ++
    [0x748F82EE5DEFB2FC, 0x78A5636F43172F60, 0x84C87814A1F0AB72, 0x8CC702081A6439EC] ++
    [0x90BEFFFA23631E28, 0xA4506CEBDE82BDE9, 0xBEF9A3F7B2C67915, 0xC67178F2E372532B] ++
    [0xCA273ECEEA26619C, 0xD186B8C721C0C207, 0xEADA7DD6CDE0EB1E, 0xF57D4F7FEE6ED178] ++
    [0x06F067AA72176FBA, 0x0A637DC5A2C898A6, 0x113F9804BEF90DAE, 0x1B710B35131C471B] ++
    [0x28DB77F523047D84, 0x32CAAB7B40C72493, 0x3C9EBE0A15C9BEBC, 0x431D67C49C100D4C] ++
    [0x4CC5D4BECB3E42B6, 0x597F299CFC657E2A, 0x5FCB6FAB3AD6FAEC, 0x6C44198C4A475817]

/-- The initial chaining words of SHA-512. -/
def chainInit : Chain :=
  ⟨0x6A09E667F3BCC908, 0xBB67AE8584CAA73B, 0x3C6EF372FE94F82B, 0xA54FF53A5F1D36F1,
    0x510E527FADE682D1, 0x9B05688C2B3E6C1F, 0x1F83D9ABFB41BD6B, 0x5BE0CD19137E2179⟩

def bigSigma0 (x : Lane) : Lane := x.rotateRight 28 ^^^ x.rotateRight 34 ^^^ x.rotateRight 39

def bigSigma1 (x : Lane) : Lane := x.rotateRight 14 ^^^ x.rotateRight 18 ^^^ x.rotateRight 41

def smallSigma0 (x : Lane) : Lane := x.rotateRight 1 ^^^ x.rotateRight 8 ^^^ (x >>> 7)

def smallSigma1 (x : Lane) : Lane := x.rotateRight 19 ^^^ x.rotateRight 61 ^^^ (x >>> 6)

def choose (x y z : Lane) : Lane := (x &&& y) ^^^ (~~~x &&& z)

def majority (x y z : Lane) : Lane := (x &&& y) ^^^ (x &&& z) ^^^ (y &&& z)

/-- One round, with its constant `k` and schedule word `w`. -/
def hashRound (k w : Lane) (s : Chain) : Chain :=
  let t1 := s.h + bigSigma1 s.e + choose s.e s.f s.g + k + w
  let t2 := bigSigma0 s.a + majority s.a s.b s.c
  ⟨t1 + t2, s.a, s.b, s.c, s.d + t1, s.e, s.f, s.g⟩

/-- The schedule word that follows a window of sixteen. -/
def nextScheduleWord (ws : List Lane) : Lane :=
  smallSigma1 (ws.getD 14 0) + ws.getD 9 0 + smallSigma0 (ws.getD 1 0) + ws.getD 0 0

/-- The rounds of the constants given, over a window of sixteen schedule words that slides by one a round. -/
def hashRounds : List Lane → List Lane → Chain → Chain
  | [], _, s => s
  | k :: ks, ws, s => hashRounds ks (ws.tail ++ [nextScheduleWord ws]) (hashRound k (ws.getD 0 0) s)

/-- A lane from eight bytes, the most significant first. -/
def beLane (bs : List Byte) : Lane := bs.foldl (fun acc b => (acc <<< 8) ||| b.setWidth 64) 0

/-- The first `n` lanes of a byte string. -/
def beLanes : Nat → List Byte → List Lane
  | 0, _ => []
  | n + 1, bs => beLane (bs.take 8) :: beLanes n (bs.drop 8)

/-- Chaining words added lane by lane. -/
def Chain.add (s t : Chain) : Chain :=
  ⟨s.a + t.a, s.b + t.b, s.c + t.c, s.d + t.d, s.e + t.e, s.f + t.f, s.g + t.g, s.h + t.h⟩

/-- The compression of one 128-byte block. -/
def hashBlock (block : List Byte) (s : Chain) : Chain :=
  s.add (hashRounds roundConstants (beLanes 16 block) s)

/-- The compression of `n` blocks. -/
def hashBlocks : Nat → List Byte → Chain → Chain
  | 0, _, s => s
  | n + 1, bs, s => hashBlocks n (bs.drop 128) (hashBlock (bs.take 128) s)

/-- SHA-512's padding: 0x80, zeros, and the length in bits as 16 bytes, to a multiple of 128 bytes (R104). -/
def hashPad (m : List Byte) : List Byte :=
  m ++ [0x80] ++ zeros ((239 - m.length % 128) % 128) ++ beBytes 16 (8 * m.length)

/-- The digest bytes of the chaining words. -/
def Chain.bytes (s : Chain) : List Byte :=
  [s.a, s.b, s.c, s.d, s.e, s.f, s.g, s.h].flatMap fun w => beBytes 8 w.toNat

/-- `HASH512(m)` (R103). -/
@[irreducible] def hash512 (m : List Byte) : List Byte :=
  (hashBlocks ((hashPad m).length / 128) (hashPad m) chainInit).bytes

end Sys2Proof.Machine
end

