-- ==== Sys2Proof/Machine/Point.lean ====
section
/-! DEFINITION. Point arithmetic on the twisted Edwards curve (spec/40_primitives.md R94 to R101). -/

namespace Sys2Proof.Machine

/-- A pair of field elements (R94). -/
structure Point where
  x : Nat
  y : Nat
  deriving DecidableEq, Repr

/-- The curve constant d (R94). -/
def curveD : Nat := 37095705934669439343138083508754565189542113879843219016388785533085940283555

/-- Both coordinates are field elements and satisfy `-x^2 + y^2 = 1 + d * x^2 * y^2` (R94). -/
def onCurve (q : Point) : Bool :=
  decide (q.x < p) && decide (q.y < p) &&
    (feSub (feMul q.y q.y) (feMul q.x q.x) ==
      feAdd 1 (feMul curveD (feMul (feMul q.x q.x) (feMul q.y q.y))))

/-- The neutral element O (R95). -/
def neutral : Point := ⟨0, 1⟩

/-- `PointAdd(P1, P2)` (R95). -/
def pointAdd (q r : Point) : Point :=
  let t := feMul curveD (feMul (feMul q.x r.x) (feMul q.y r.y))
  ⟨feMul (feAdd (feMul q.x r.y) (feMul r.x q.y)) (feInv (feAdd 1 t)),
    feMul (feAdd (feMul q.y r.y) (feMul q.x r.x)) (feInv (feSub 1 t))⟩

/-- `PointNeg((x, y))` (R96). -/
def pointNeg (q : Point) : Point := ⟨feSub 0 q.x, q.y⟩

/-- `[k]P` as R97 writes it: k additions of P from O. It cannot be run on a real scalar. -/
def scalarMultByRule : Nat → Point → Point
  | 0, _ => neutral
  | k + 1, q => pointAdd (scalarMultByRule k q) q

/-- `[k]P` for `k < 2^bits`, by doubling and adding with `pointAdd`. -/
def scalarMultBits : Nat → Nat → Point → Point
  | 0, _, _ => neutral
  | bits + 1, k, q =>
    let h := scalarMultBits bits (k / 2) q
    if k % 2 = 1 then pointAdd (pointAdd h h) q else pointAdd h h

/-- `ScalarMult(k, P)` (R97). R97 lets it be computed in any way; that this way gives `scalarMultByRule` on the curve
is an obligation (assumption 11). -/
@[irreducible] def scalarMult (k : Nat) (q : Point) : Point := scalarMultBits (k.log2 + 1) k q

/-- The base point B (R98). -/
def basePoint : Point :=
  ⟨15112221349535400772501151409588531511454012693041857206046113283949847762202,
    46316835694926478169428394003475163141307993866256225615783033603165251855960⟩

/-- `PointEncode((x, y))` (R100). -/
def pointEncode (q : Point) : List Byte :=
  orByte (feEncode q.y) 31 (BitVec.ofNat 8 (q.x % 2 * 128))

/-- The x of R101's `t`, by the sign bit: the root of that parity. -/
def pointX (t : Nat) (sign : Nat) : Option Nat :=
  match feSqrt t with
  | none => none
  | some s => some (if s % 2 = sign then s else p - s)

/-- The sign bit of a 32-byte encoding (R9): `b[31] >> 7`. -/
def signBit (b : List Byte) : Nat := (byteAt b 31).toNat / 128

/-- `PointDecode(b)` (R101); `none` is `fail`. -/
def pointDecode (b : List Byte) : Option Point :=
  let y := low255 b
  let x0 := signBit b
  if p ≤ y then none
  else
    let t := feMul (feSub (feMul y y) 1) (feInv (feAdd (feMul curveD (feMul y y)) 1))
    if t = 0 then
      if x0 = 1 && !Config.x0Sign1Accept then none else some ⟨0, y⟩
    else match pointX t x0 with
      | none => none
      | some x => some ⟨x, y⟩

end Sys2Proof.Machine
end

