-- ==== Sys2Proof/Machine/Scalar.lean ====
section
/-! DEFINITION. Scalar arithmetic (spec/40_primitives.md R91 to R93) and the predicate `Clamped` (R106). -/

namespace Sys2Proof.Machine

/-- The group order L (R91). -/
def groupOrder : Nat := 7237005577332262213973186563042994240857116359379907606001950938285454250989

/-- `ScReduce512(h)` (R91). -/
def scReduce512 (h : List Byte) : Nat := leNat h % groupOrder

/-- `ScMulAdd(a, b, c)` (R92). -/
def scMulAdd (a b c : Nat) : Nat := (a * b + c) % groupOrder

/-- `ScIsCanonical(s)` (R93). -/
def scIsCanonical (s : Nat) : Bool := decide (s < groupOrder)

/-- `Clamped(k)` (R106): bits 0, 1, 2 and 255 are 0 and bit 254 is 1. -/
def clamped (k : List Byte) : Bool :=
  byteAt k 0 &&& 0x07 == 0 && byteAt k 31 &&& 0x80 == 0 && byteAt k 31 &&& 0x40 == 0x40

end Sys2Proof.Machine
end

