-- ==== Sys2Proof/Machine/Sign.lean ====
section
/-! DEFINITION. SIGN (spec/41_sign.md R115 to R129). -/

namespace Sys2Proof.Machine

/-- `DIVERSIFIER` (R105): 0xFE and 31 bytes 0xFF. -/
def diversifier : List Byte := 0xFE :: List.replicate 31 0xFF

/-- Step 1, the Edwards public point (R116): `Aenc`. -/
def signPublic (k : List Byte) : List Byte := pointEncode (scalarMult (leNat k) basePoint)

/-- Step 2, the nonce (R118): `r`. -/
def signNonce (k m seed : List Byte) : Nat := scReduce512 (hash512 (diversifier ++ k ++ m ++ seed))

/-- Step 3, the nonce point (R119): `Renc`. -/
def signNoncePoint (r : Nat) : List Byte := pointEncode (scalarMult r basePoint)

/-- The challenge of SIGN and VERIFY (R120, R148): the hash of the nonce point, the public point and the message, reduced. -/
def challenge (renc aenc m : List Byte) : Nat := scReduce512 (hash512 (renc ++ aenc ++ m))

/-- Step 7, sign-bit embedding (R123): `sig[63] <- (sig[63] & 0x7F) | (Aenc[31] & 0x80)`. -/
def embedSign (sig aenc : List Byte) : List Byte := orByte (andByte sig 63 0x7F) 63 (byteAt aenc 31 &&& 0x80)

/-- The signature of a clamped key, a message and a seed (R115, steps R116 to R123). -/
@[irreducible] def signature (k m seed : List Byte) : List Byte :=
  let a := leNat k
  let aenc := signPublic k
  let r := signNonce k m seed
  let renc := signNoncePoint r
  let h := challenge renc aenc m
  embedSign (renc ++ leBytes 32 (scMulAdd h a r)) aenc

/-- What SIGN leaves in `SIG` (R115, R124): the signature, or a draw when KEY is not clamped. -/
def signResult (s : State) : List Byte :=
  if clamped s.key then signature s.key s.message s.seed else drawBytes s.draws 64

/-- SIGN's effect at completion (R115): SIG is written from the old SEED and SEED is zeroed (R125). -/
def signEffect (s : State) : State :=
  { s with
    mem := zeroBytes (writeBytes s.mem sigBase (signResult s)) seedBase 64
    draws := if clamped s.key then s.draws else s.draws + 1 }

/-- The intermediates of signing (R37): A (R116), rReduced (R118), EncodedR (R119), hReduced (R120) and S (R121). -/
@[irreducible] def signatureIntermediates (k m seed : List Byte) : Intermediates :=
  let aenc := signPublic k
  let r := signNonce k m seed
  let renc := signNoncePoint r
  let h := challenge renc aenc m
  { Intermediates.zero with
    signA := bytesWord aenc
    signR := BitVec.ofNat 256 r
    signEncodedR := bytesWord renc
    signH := BitVec.ofNat 256 h
    signS := BitVec.ofNat 256 (scMulAdd h (leNat k) r) }

/-- The intermediates of SIGN. -/
def signIntermediates (s : State) : Intermediates := signatureIntermediates s.key s.message s.seed

/-- SIGN (R115). -/
def execSign (s : State) : Result := runCommand .sign signIntermediates signEffect s

end Sys2Proof.Machine
end

