-- ==== Sys2Proof/Machine/Verify.lean ====
section
/-! DEFINITION. VERIFY (spec/43_verify.md R140 to R155). -/

namespace Sys2Proof.Machine

/-- Whether the canonical-S policy lets a scalar into the equation (R145). -/
def schkAccepts (schk : BitVec 2) (s : Nat) : Bool :=
  if schk = 1 then decide (s < 2 ^ 253)
  else if schk = 2 then scIsCanonical s
  else true

/-- The equation (R148, R149): whether `PointEncode([s]B + [h](-A))` is `SIG[0..31]`. -/
def equationHolds (rb aed m : List Byte) (s : Nat) (a : Point) : Bool :=
  pointEncode (pointAdd (scalarMult s basePoint) (scalarMult (challenge rb aed m) (pointNeg a))) == rb

/-- Step 3 (R144): the stripped S, the integer of `SIG[32..63]` with bit 255 cleared. -/
def strippedS (sig : List Byte) : Nat := leNat (andByte (sigS sig) 31 0x7F)

/-- VERIFY's outcome (R140): every failure is `false` (R150). -/
@[irreducible] def verifies (schk : BitVec 2) (pk m sig : List Byte) : Bool :=
  match mapCore (andByte pk 31 0x7F) (sigSignBit sig) with
  | none => false
  | some aed =>
    let s := strippedS sig
    schkAccepts schk s &&
      match pointDecode aed with
      | none => false
      | some a => equationHolds (sigR sig) aed m s a

/-- VERIFY's effect at completion (R140): RESULT, and no buffer (R151). -/
def verifyEffect (s : State) : State :=
  { s with status := { s.status with result := verifies s.curSchk s.pk s.message s.sig } }

/-- The intermediates of a verification (R37): those of its map, the stripped S where the map is not excluded, and the challenge h where
the tests before it (R140) pass. -/
@[irreducible] def verificationIntermediates (schk : BitVec 2) (pk m sig : List Byte) : Intermediates :=
  let held := mapCoreIntermediates (andByte pk 31 0x7F) (sigSignBit sig)
  match mapCore (andByte pk 31 0x7F) (sigSignBit sig) with
  | none => held
  | some aed =>
    { held with
      strippedS := BitVec.ofNat 256 (strippedS sig)
      challenge :=
        if schkAccepts schk (strippedS sig) && (pointDecode aed).isSome then BitVec.ofNat 256 (challenge (sigR sig) aed m) else 0 }

/-- The intermediates of VERIFY. -/
def verifyIntermediates (s : State) : Intermediates := verificationIntermediates s.curSchk s.pk s.message s.sig

/-- VERIFY (R140). -/
def execVerify (s : State) : Result := runCommand .verify verifyIntermediates verifyEffect s

end Sys2Proof.Machine
end

