-- ==== Sys2Proof/Machine/Bus.lean ====
section
/-! DEFINITION. The bus slave port: the address map, bus errors, reads and writes (spec/20_memory.md R50 to R58;
spec/60_exceptions.md R168). -/

namespace Sys2Proof.Machine

/-- What an offset of the window reaches (R51). -/
inductive Region where
  | ctrl
  | status
  | cmd
  | msgLen
  | msgCap
  | key
  | seed
  | pk
  | sig
  | aed
  | msg
  | unmapped
  deriving DecidableEq, Repr

/-- The address map (R22, R31, R51). -/
def region (off : Nat) : Region :=
  if off < 0x004 then .ctrl
  else if off < 0x008 then .status
  else if off < 0x00C then .cmd
  else if off < 0x010 then .msgLen
  else if off < 0x014 then .msgCap
  else if off < 0x100 then .unmapped
  else if off < 0x120 then .key
  else if off < 0x160 then .seed
  else if off < 0x180 then .pk
  else if off < 0x1C0 then .sig
  else if off < 0x1E0 then .aed
  else if off < 0x1000 then .unmapped
  else if off < msgBase + Config.msgCap then .msg
  else .unmapped

/-- The offset an access carries. -/
def Access.offset : Access → Offset
  | .read off _ => off
  | .write off _ _ _ => off

/-- The bus address of an offset (R11, R50; assumption 2). -/
def busAddress (off : Offset) : Nat := Config.blockBase + off.toNat

/-- Whether an access is 32 bits wide with every byte strobe on, at a multiple of 4 (R52). -/
def Access.wellSized : Access → Bool
  | .read off w => w == .w32 && off.toNat % 4 == 0
  | .write off w strobes _ => w == .w32 && strobes == 0xF && off.toNat % 4 == 0

/-- A region a read may reach (R54). -/
def Region.readable (r : Region) : Bool := r != .unmapped

/-- A region a write may reach (R54): AED and MSG_CAP are read-only. -/
def Region.writable (r : Region) : Bool := r != .unmapped && r != .aed && r != .msgCap

/-- Whether an access ends in a bus error (R54). It does not depend on the state. -/
def Access.isBusError : Access → Bool
  | .read off w => !(Access.read off w).wellSized || !(region off.toNat).readable
  | .write off w st v => !(Access.write off w st v).wellSized || !(region off.toNat).writable

/-- The word of a buffer at an offset (R53). -/
def readWord (m : Memory) (off : Nat) : Word :=
  laneWord (readByte m off) (readByte m (off + 1)) (readByte m (off + 2)) (readByte m (off + 3))

/-- A word stored in a buffer at an offset (R53). -/
def writeWord (m : Memory) (off : Nat) (v : Word) : Memory := writeBytes m off (wordBytes v)

/-- What a read that is not a bus error returns (R55); KEY, SEED and CMD read as 0 (R28, R32). -/
def readValue (s : State) (off : Nat) : Word :=
  match region off with
  | .ctrl => s.ctrl.word
  | .status => s.statusWord
  | .cmd => 0
  | .msgLen => s.msgLen
  | .msgCap => BitVec.ofNat 32 Config.msgCap
  | .key => 0
  | .seed => 0
  | .pk => readWord s.mem off
  | .sig => readWord s.mem off
  | .aed => readWord s.mem off
  | .msg => readWord s.mem off
  | .unmapped => 0

/-- A write in `IDLE` to a region other than `STATUS` and `CMD` (R56); the last arms are bus errors and never reached. -/
def storeValue (off : Nat) (v : Word) (s : State) : State :=
  match region off with
  | .ctrl => { s with ctrl := Ctrl.ofWord v }
  | .msgLen => { s with msgLen := v }
  | .key => { s with mem := writeWord s.mem off v }
  | .seed => { s with mem := writeWord s.mem off v }
  | .pk => { s with mem := writeWord s.mem off v }
  | .sig => { s with mem := writeWord s.mem off v }
  | .msg => { s with mem := writeWord s.mem off v }
  | .status => s
  | .cmd => s
  | .msgCap => s
  | .aed => s
  | .unmapped => s

/-- A write that is not a bus error, to any region but `CMD` (R56): `STATUS` takes it in either engine state (R27), and while `BUSY` every
other one is dropped with command error 2 (R168). -/
def writeValue (off : Nat) (v : Word) (s : State) : State :=
  if region off = .status then { s with status := s.status.clearBits v }
  else if s.eng = .busy then raiseCmdError errBusy s
  else storeValue off v s

/-- The word a write presents to `CMD` as a command (R28), when the access is one. -/
def Access.commandWord : Access → Option Word
  | .read _ _ => none
  | .write off w st v =>
    if (Access.write off w st v).wellSized && region off.toNat == .cmd then some v else none

/-- The answer of the block to an access, put on the port beside it. -/
def answer (s : State) : Access → Response
  | .read off w =>
    if (Access.read off w).isBusError then .busError off else .value (readValue s off.toNat)
  | .write off w st v =>
    if (Access.write off w st v).isBusError then .busError off else .written

/-- The state with an access on the port and the block's answer to it. -/
def present (a : Access) (s : State) : State := { s with port := some a, response := some (answer s a) }

/-- What an access that is no command does to the block: a bus error and a read change nothing (R54, R57). -/
def accessEffect (s : State) : Access → State
  | .read _ _ => s
  | .write off w st v =>
    if (Access.write off w st v).isBusError then s else writeValue off.toNat v s

end Sys2Proof.Machine
end

