-- ==== Sys2Proof/Machine/Fetch.lean ====
section
/-! DEFINITION. What the next step of the block is: the next event of the agenda, and the completion of a running command
when it is its turn (spec/20_memory.md R61, R62; spec/70_reset_and_hazards.md R185, R196). -/

namespace Sys2Proof.Machine

/-- The two ways a step goes on, and the one it cannot. -/
inductive Turn where
  /-- A command has its turn: its accept, or its completion. -/
  | run (i : Instr) (s : State)
  /-- The step is over and leaves this state. -/
  | done (s : State)
  /-- The engine is busy with no command of the table (R187). -/
  | stuck
  deriving DecidableEq, Repr

/-- A step with no bus access on the port. -/
def quiet (s : State) : State := { s with port := none, response := none }

/-- The state with other events still to come. -/
def withAgenda (rest : List Event) (s : State) : State := { s with agenda := rest }

/-- The block's own turn: a running command completes (R36), an idle engine has nothing to do (R186). -/
def ownTurn (s : State) : Turn :=
  if s.eng = .busy then
    match decodeOpcode s.curOp with
    | some i => .run i (quiet s)
    | none => .stuck
  else .done (quiet s)

/-- A bus access's turn (R61): a word written to `CMD` is decoded (R28, R70), anything else is done at once. -/
def accessTurn (a : Access) (s : State) : Turn :=
  match a.commandWord with
  | some w =>
    match decode w with
    | .ok i => .run i (present a s)
    | .error _ => .done (issueIllegal (present a s))
  | none => .done (accessEffect (present a s) a)

/-- The next step. With nothing left on the agenda it is the block's own turn, so that a running command completes
in the end whatever came before (R196). -/
def turn (s : State) : Turn :=
  match s.agenda with
  | [] => ownTurn s
  | .complete :: rest => ownTurn (withAgenda rest s)
  | .access a :: rest => accessTurn a (withAgenda rest s)
  | .reset :: rest => .done (resetBlock (withAgenda rest s))

/-- The bus write that carries a command word (R72). -/
def cmdWrite (w : Word) : Access := .write 0x008 .w32 0xF w

/-- The state whose next event is the write of a word to `CMD`. -/
def pushCommand (w : Word) (s : State) : State := withAgenda (.access (cmdWrite w) :: s.agenda) s

end Sys2Proof.Machine
end

