-- ==== Sys2Proof/Machine/Step.lean ====
section
/-! DEFINITION. One step of the block: one event, indivisible (spec/20_memory.md R58, R61, R62). -/

namespace Sys2Proof.Machine

/-- One step (R58): a bus access, a completion, a cycle of reset, or nothing when the block is idle and nothing is to come. -/
def step (s : State) : Host.Outcome State Fault Refusal :=
  match turn s with
  | .run i t => exec i t
  | .done t => .next t
  | .stuck => .fault .noPendingCommand

/-- The state whose very next step takes the instruction whose bits are `w`: the block fetches nothing (R21), so its command
word is the next write to `CMD` (R65; assumption 8). -/
def State.withFetchWord (s : State) (nbits w : Nat) : State := pushCommand (tableWord nbits w) s

end Sys2Proof.Machine
end

