-- ==== Sys2Proof/Machine/Program.lean ====
section
/-! DEFINITION. The transaction language in which the spec writes host programs (spec/30_encoding.md R75 to R78): its statements, its
pseudo-instructions and their expansions, and a host that runs one against the block. The host is no part of the block and
holds no block state (R75); `step` does not use this file. -/

namespace Sys2Proof.Machine

/-- `off` of R75: a number, or a register's or buffer's first offset plus `k`. -/
inductive OffsetExpr where
  | number (n : Nat)
  | named (r : Region) (plus : Nat)
  deriving DecidableEq, Repr

/-- The first offset of a register or buffer (R22, R31). -/
def Region.start : Region → Nat
  | .ctrl => 0x000
  | .status => 0x004
  | .cmd => 0x008
  | .msgLen => 0x00C
  | .msgCap => 0x010
  | .key => keyBase
  | .seed => seedBase
  | .pk => pkBase
  | .sig => sigBase
  | .aed => aedBase
  | .msg => msgBase
  | .unmapped => 0x014

/-- The offset an expression denotes: what R11 adds to `BLOCK_BASE`, inside the window or past it. -/
def OffsetExpr.value : OffsetExpr → Nat
  | .number n => n
  | .named r k => r.start + k

/-- A label: written in the program, or fresh in an expansion (R77). -/
inductive Label where
  | written (name : String)
  | fresh (n : Nat)
  deriving DecidableEq, Repr

/-- A host-side value: `name`, or `name_j` of a READ (R75, R77). -/
structure ValueName where
  name : String
  part : Option Nat
  deriving DecidableEq, Repr

/-- The statements of R75. -/
inductive HostStmt where
  /-- `WR off, imm32`. -/
  | wr (off : OffsetExpr) (imm : Word)
  /-- `RD off -> name`. -/
  | rd (off : OffsetExpr) (name : ValueName)
  /-- `BRBIT off, bit, val, label`. DESIGN CHOICE (assumption 16): `bit` is 0 to 31, a bit of the word read, and `val` is 0 (`false`) or 1
  (`true`); R75 gives the two no range. -/
  | brbit (off : OffsetExpr) (bit : Fin 32) (val : Bool) (label : Label)
  /-- `label:`. -/
  | label (l : Label)
  /-- `END`. -/
  | finish
  deriving DecidableEq, Repr

/-- A line as it is written: a statement, or a pseudo-instruction of R76 or R77. -/
inductive HostLine where
  | stmt (s : HostStmt)
  /-- SIGN, MAP, VERIFY and CLEAR (R76). -/
  | command (i : Instr)
  /-- `LOAD BUF, hexbytes`. -/
  | load (off : OffsetExpr) (bytes : List Byte)
  /-- `SETMSG hexbytes`. -/
  | setMsg (bytes : List Byte)
  /-- `WAIT_IDLE`. -/
  | waitIdle
  /-- `CLRST`. -/
  | clrst
  /-- `READ BUF, n -> name`. -/
  | readBuf (off : OffsetExpr) (n : Nat) (name : String)
  deriving DecidableEq, Repr

/-- `off + k`. -/
def OffsetExpr.add : OffsetExpr → Nat → OffsetExpr
  | .number n, k => .number (n + k)
  | .named r j, k => .named r (j + k)

/-- The words of a byte string padded with zero bytes to a multiple of 4 (R77). -/
def lanesOf : List Byte → List Word
  | [] => []
  | [b0] => [laneWord b0 0 0 0]
  | [b0, b1] => [laneWord b0 b1 0 0]
  | [b0, b1, b2] => [laneWord b0 b1 b2 0]
  | b0 :: b1 :: b2 :: b3 :: bs => laneWord b0 b1 b2 b3 :: lanesOf bs

/-- The writes of a list of words at rising offsets. -/
def storeLanes (off : OffsetExpr) : List Word → List HostStmt
  | [] => []
  | w :: ws => .wr off w :: storeLanes (off.add 4) ws

/-- The statements a line stands for (R76, R77); `n` makes a label fresh. DESIGN CHOICE (assumption 16): the n/4 of READ, whose rounding
R77 does not give, is rounded down. -/
def HostLine.expand (n : Nat) : HostLine → List HostStmt
  | .stmt s => [s]
  | .command i => [.wr (.named .cmd 0) (encode i)]
  | .load off bytes => storeLanes off (lanesOf bytes)
  | .setMsg bytes =>
    storeLanes (.named .msg 0) (lanesOf bytes) ++ [.wr (.named .msgLen 0) (BitVec.ofNat 32 bytes.length)]
  | .waitIdle => [.label (.fresh n), .brbit (.named .status 0) 0 true (.fresh n)]
  | .clrst => [.wr (.named .status 0) 0x12]
  | .readBuf off k name => (List.range (k / 4)).map fun j => .rd (off.add (4 * j)) ⟨name, some j⟩

/-- A program's lines expanded, each with a fresh label number. -/
def expandLines : Nat → List HostLine → List HostStmt
  | _, [] => []
  | n, l :: ls => l.expand n ++ expandLines (n + 1) ls

/-- Why a host stops (assumption 16). -/
inductive HostStatus where
  | running
  /-- `END` was reached, or the last line was passed. -/
  | finished
  /-- The bus gave an error response; what a host does then is the platform's (R171). Safe: the run ends. -/
  | busErrored
  /-- `BRBIT` named a label the program does not have. Safe: the run ends. -/
  | noLabel
  /-- The block's step answered no next state. Safe: the run ends. -/
  | blockStopped
  deriving DecidableEq, Repr

/-- A host running a program against the block. -/
structure HostRun where
  block : State
  /-- The line to run next. -/
  line : Nat
  /-- The host-side values, the latest first. -/
  values : List (ValueName × Word)
  status : HostStatus
  deriving DecidableEq, Repr

/-- One access of the host, before whatever the agenda holds (R61). -/
def busStep (a : Access) (s : State) : Result := step (withAgenda (.access a :: s.agenda) s)

/-- The line of a label. DESIGN CHOICE (assumption 16): where two lines have the label, which R75 does not speak of, the first. -/
def findLabel (l : Label) : List HostStmt → Nat → Option Nat
  | [], _ => none
  | st :: sts, n => if st = .label l then some n else findLabel l sts (n + 1)

/-- A run after its access was answered: `k` says what a read's word does. -/
def HostRun.afterAccess (h : HostRun) (r : Result) (k : HostRun → Word → HostRun) : HostRun :=
  match r with
  | .next t =>
    match t.response with
    | some .written => { h with block := t, line := h.line + 1 }
    | some (.value v) => k { h with block := t, line := h.line + 1 } v
    | some (.busError _) => { h with block := t, status := .busErrored }
    | none => { h with block := t, status := .blockStopped }
  | .fault _ => { h with status := .blockStopped }
  | .refused _ => { h with status := .blockStopped }

/-- The number of offsets in the window (R50). -/
def windowSize : Nat := 0x10000

/-- A host's access at an offset (R11). Inside the window it is an access of the block. Past it the block is not reached and the access
is a bus error, as R54 says of the MSG offsets from `0x1000 + MSG_CAP` on (B-6; assumption 16). -/
def HostRun.accessAt (h : HostRun) (off : Nat) (a : Offset → Access) (k : HostRun → Word → HostRun) : HostRun :=
  if off < windowSize then h.afterAccess (busStep (a (BitVec.ofNat 16 off)) h.block) k
  else { h with status := .busErrored }

/-- One statement (R75). -/
def HostRun.runStmt (prog : List HostStmt) (h : HostRun) : HostStmt → HostRun
  | .wr off imm => h.accessAt off.value (fun o => .write o .w32 0xF imm) fun g _ => g
  | .rd off name =>
    h.accessAt off.value (fun o => .read o .w32) fun g v => { g with values := (name, v) :: g.values }
  | .brbit off bit val l =>
    h.accessAt off.value (fun o => .read o .w32) fun g v =>
      if v.getLsbD bit.val = val then
        match findLabel l prog 0 with
        | some n => { g with line := n }
        | none => { g with status := .noLabel }
      else g
  | .label _ => { h with line := h.line + 1 }
  | .finish => { h with status := .finished }

/-- Who moves: the host, or the block on its own (a completion, or another master's access on the agenda; R62, R67). -/
inductive Mover where
  | host
  | block
  deriving DecidableEq, Repr

/-- One move of a run. -/
def HostRun.move (prog : List HostStmt) (h : HostRun) (who : Mover) : HostRun :=
  match who with
  | .host =>
    if h.status = .running then
      match prog[h.line]? with
      | some st => h.runStmt prog st
      | none => { h with status := .finished }
    else h
  | .block =>
    match step h.block with
    | .next t => { h with block := t }
    | .fault _ => { h with status := .blockStopped }
    | .refused _ => { h with status := .blockStopped }

/-- A run under an interleaving of the host's statements and the block's own steps (R62). -/
def HostRun.moves (prog : List HostStmt) (h : HostRun) (who : List Mover) : HostRun :=
  who.foldl (HostRun.move prog) h

/-- A run that starts at the first line of a program on a block. -/
def HostRun.start (s : State) : HostRun := ⟨s, 0, [], .running⟩

/-- The bytes READ leaves under a name: those of its words, by R53. DESIGN CHOICE (assumption 16): `n / 4` is rounded down, so the bytes
past the last whole word of `n` are not read. -/
def HostRun.bytesOf (h : HostRun) (name : String) (n : Nat) : List Byte :=
  (List.range (n / 4)).flatMap fun j =>
    match h.values.find? fun e => e.1 == ⟨name, some j⟩ with
    | some e => wordBytes e.2
    | none => []

end Sys2Proof.Machine
end

