-- ==== Sys2Proof/Safety.lean ====
section
/-! DEFINITION. What the claims mean by a sound state of the block: the invariant that holds at reset and that every
step keeps, part by part. -/

namespace Sys2Proof.Machine

/-- The offsets of the operand buffers' bytes (R31). -/
def isBufferByte (a : Nat) : Bool :=
  (decide (keyBase ≤ a) && decide (a < 0x1E0)) || (decide (msgBase ≤ a) && decide (a < msgBase + Config.msgCap))

/-- The memory lists buffer bytes only. -/
def Memory.inBuffers (m : Memory) : Bool := m.all fun c => isBufferByte c.1

/-- The memory is canonical and lists buffer bytes only. -/
def MemorySound (s : State) : Prop := s.mem.wf = true ∧ s.mem.inBuffers = true

/-- `SCHK` and its latch never hold 3 (R24, R25). -/
def SchkLegal (s : State) : Prop := s.ctrl.schk ≠ 3 ∧ s.curSchk ≠ 3

/-- While the engine is idle all of the hidden state is zero (R37, R40). -/
def IdleClean (s : State) : Prop :=
  s.eng = .idle → s.curOp = 0 ∧ s.curSchk = 0 ∧ s.curLen = 0 ∧ s.hidden = .zero

/-- The intermediates a command holds while it runs (R37). -/
def intermediatesOf : Instr → State → Intermediates
  | .sign => signIntermediates
  | .map => mapIntermediates
  | .verify => verifyIntermediates
  | .clear => clearIntermediates

/-- While the engine is busy the latches are those of an accepted command (R21, R35, R167, R187), the hidden store holds the command's
intermediates (R37) and the flags it cleared are clear (R191). -/
def BusyAccepted (s : State) : Prop :=
  s.eng = .busy → ∃ i, s.curOp = i.opcode ∧ s.status.lastOp = i.opcode ∧ s.curLen = s.msgLen ∧
    (checksLength i = true → s.msgLen.toNat ≤ Config.msgCap) ∧ (i = .verify → s.curSchk = s.ctrl.schk) ∧
    s.hidden = intermediatesOf i s ∧
    s.status.done = false ∧ s.status.result = false ∧ s.status.excl = false

/-- ERRCODE is 0 exactly when ERR is 0, and never above 3 (R169, R170). -/
def ErrorCoded (s : State) : Prop := (s.status.err = true ↔ s.status.errCode ≠ 0) ∧ s.status.errCode ≤ 3

/-- LASTOP is 0 or a command's opcode, and DONE, RESULT and EXCL are those of a command that can set them (R26). -/
def FlagsOfLastOp (s : State) : Prop :=
  (s.status.lastOp = 0 ∨ ∃ i : Instr, s.status.lastOp = i.opcode) ∧
    (s.status.done = true → s.status.lastOp ≠ 0) ∧
    (s.status.result = true → s.status.lastOp = Instr.verify.opcode) ∧
    (s.status.excl = true → s.status.lastOp = Instr.map.opcode)

/-- The invariant of the block. -/
structure State.Inv (s : State) : Prop where
  memory : MemorySound s
  schk : SchkLegal s
  idle : IdleClean s
  busy : BusyAccepted s
  errors : ErrorCoded s
  flags : FlagsOfLastOp s

/-- A command runs and it is the moment of its completion: no access is on the port (R36). -/
def Running (i : Instr) (s : State) : Prop := s.port = none ∧ s.eng = .busy ∧ s.curOp = i.opcode

/-- A command's word is being written to `CMD` (R28). -/
def Presented (i : Instr) (s : State) : Prop := s.port = some (cmdWrite (encode i))

/-- The next event is an access, and `rest` comes after it. -/
def NextAccess (a : Access) (rest : List Event) (s : State) : Prop := s.agenda = .access a :: rest

/-- The next step is the block's own: a completion event, or nothing left to come (R62, R196). -/
def OwnNext (rest : List Event) (s : State) : Prop :=
  s.agenda = .complete :: rest ∨ (s.agenda = [] ∧ rest = [])

/-- The register fields of the block but STATUS, and the engine's latches, are the same in two states. -/
def SameLatches (s t : State) : Prop :=
  t.eng = s.eng ∧ t.curOp = s.curOp ∧ t.curSchk = s.curSchk ∧ t.curLen = s.curLen ∧ t.hidden = s.hidden

/-- Everything the block holds is the same in two states: only the port and the agenda may differ. -/
def SameBlock (s t : State) : Prop :=
  SameLatches s t ∧ t.ctrl = s.ctrl ∧ t.status = s.status ∧ t.msgLen = s.msgLen ∧ t.mem = s.mem ∧ t.draws = s.draws

/-- What a completion leaves of the engine (R36, R37): idle, with all of the hidden state zero. -/
def EngineRetired (t : State) : Prop :=
  t.eng = .idle ∧ t.curOp = 0 ∧ t.curSchk = 0 ∧ t.curLen = 0 ∧ t.hidden = .zero

/-- The port and the agenda are the same in two states. -/
def SameOutside (s t : State) : Prop := t.port = s.port ∧ t.response = s.response ∧ t.agenda = s.agenda

/-- The values of R40, `irq` among them. -/
def HoldsResetValues (t : State) : Prop :=
  EngineRetired t ∧ t.ctrl.word = 0x00000004 ∧ t.statusWord = 0 ∧ t.msgLen = 0 ∧ (∀ a, readByte t.mem a = 0) ∧ t.irq = false

/-- An offset the map of R51 gives to a register or a buffer. -/
def Mapped (off : Nat) : Prop :=
  off < 0x014 ∨ (0x100 ≤ off ∧ off < 0x1E0) ∨ (0x1000 ≤ off ∧ off < 0x1000 + Config.msgCap)

/-- An offset of a buffer that the host may write: KEY, SEED, PK, SIG or MSG (R31). -/
def HostBuffer (off : Nat) : Prop :=
  (0x100 ≤ off ∧ off < 0x1C0) ∨ (0x1000 ≤ off ∧ off < 0x1000 + Config.msgCap)

/-- The accesses of R54: a wrong width, byte strobes off, no multiple of 4, an unmapped offset, a write to AED or MSG_CAP. -/
def BreaksBusRules : Access → Prop
  | .read off w => w ≠ .w32 ∨ off.toNat % 4 ≠ 0 ∨ ¬ Mapped off.toNat
  | .write off w strobes _ =>
    w ≠ .w32 ∨ strobes ≠ 0xF ∨ off.toNat % 4 ≠ 0 ∨ ¬ Mapped off.toNat ∨
      (0x1C0 ≤ off.toNat ∧ off.toNat < 0x1E0) ∨ (0x010 ≤ off.toNat ∧ off.toNat < 0x014)

/-- A full-word write of `v` at an offset. -/
def wordWrite (off : Offset) (v : Word) : Access := .write off .w32 0xF v

/-- A full-word read at an offset. -/
def wordRead (off : Offset) : Access := .read off .w32

/-- The Montgomery public key of a private scalar (R107): `FeEncode((1 + y) * FeInv(1 - y))` for `(x, y) = [LE(k)]B`. The block
never computes it. -/
def montgomeryPublicKey (k : List Byte) : List Byte :=
  let y := (scalarMult (leNat k) basePoint).y
  feEncode (feMul (feAdd 1 y) (feInv (feSub 1 y)))

/-- Two states that hold the same but for the bytes of KEY and SEED. -/
def EqualButSecrets (s t : State) : Prop :=
  SameLatches s t ∧ SameOutside s t ∧ t.ctrl = s.ctrl ∧ t.status = s.status ∧ t.msgLen = s.msgLen ∧ t.draws = s.draws ∧
    ∀ a, ¬ (keyBase ≤ a ∧ a < seedBase + 64) → readByte t.mem a = readByte s.mem a

/-- The agenda writes no SIGN to `CMD`. -/
def NoSignToCome (s : State) : Prop := ∀ w, Event.access (cmdWrite w) ∈ s.agenda → decode w ≠ .ok .sign

end Sys2Proof.Machine
end

