-- ==== Sys2Proof/Certificates/Slice0/Obligations.lean ====
section
/-! DEFINITION. The statements for the provers, in the order of the files of spec/. Each docstring names the rules of spec/ it
states; where a statement rests on an entry of the assumption log, its docstring names the entry. -/

open Sys2Proof Sys2Proof.Machine

/-! ### Reset and the invariant -/

/-- R185, R40: a cycle of reset, from any state, and `State.reset` itself hold every value of R40; the cycle answers no bus access. -/
def Obligations.ResetLeavesTheListedValues : Prop :=
  HoldsResetValues State.reset ∧
    ∀ (s : State) (rest : List Event), s.agenda = .reset :: rest →
      ∃ t, step s = .next t ∧ HoldsResetValues t ∧ t.response = none ∧ t.agenda = rest

/-- The invariant holds after reset. -/
def Obligations.ResetMeetsTheInvariant : Prop := State.reset.Inv

/-- Every step keeps the invariant: the memory canonical and inside the buffers, SCHK legal (R24), the hidden state zero while idle
(R37), a busy engine that of an accepted command (R35) that holds its intermediates (R37), the error code and the flags those of R26 and
R169. That the latches are zero while idle is assumption 13, and that the intermediates are held from the accept on is assumption 5. -/
def Obligations.EveryStepKeepsTheInvariant : Prop := ∀ s t : State, s.Inv → step s = .next t → t.Inv

/-- No step from a state of the invariant stops. -/
def Obligations.InvariantStatesNeverStop : Prop := ∀ s : State, s.Inv → ∃ t, step s = .next t

/-! ### Command words -/

/-- The words of R73, and four words R74 makes illegal. -/
def Obligations.TableWordsDecode : Prop :=
  decode 0x00000001 = .ok .sign ∧ decode 0x00000002 = .ok .map ∧ decode 0x00000003 = .ok .verify ∧
    decode 0x00000004 = .ok .clear ∧ decode 0x00000000 = .error .unknownOpcode ∧ decode 0x00000005 = .error .unknownOpcode ∧
    decode 0x00000101 = .error .reservedBits ∧ decode 0x80000004 = .error .reservedBits

/-- R70, R73: the decoder takes exactly the words the encoder gives, each as its own command. -/
def Obligations.DecoderTakesExactlyTheEncodedWords : Prop := ∀ (w : Word) (i : Instr), decode w = .ok i ↔ w = encode i

/-- R74: a word that is no command's, written to `CMD` while idle, raises command error 1 and does nothing else. -/
def Obligations.IllegalWordRaisesErrorOneOnly : Prop :=
  ∀ (s : State) (w : Word) (rest : List Event), s.eng = .idle → NextAccess (cmdWrite w) rest s → (∀ i, w ≠ encode i) →
    ∃ t, step s = .next t ∧ t.status = { s.status with err := true, errCode := 1 } ∧ SameLatches s t ∧ t.ctrl = s.ctrl ∧
      t.msgLen = s.msgLen ∧ t.mem = s.mem ∧ t.draws = s.draws ∧ t.response = some .written ∧ t.agenda = rest

/-- R167: the checks of a write to `CMD`, in their order; the first that applies decides. That an accepted command holds its
intermediates from the accept on is the model's choice (assumption 5). -/
def Obligations.CommandWriteChecksInOrder : Prop :=
  ∀ (s : State) (w : Word) (rest : List Event), NextAccess (cmdWrite w) rest s →
    ∃ s', SameBlock s s' ∧ s'.port = some (cmdWrite w) ∧ s'.response = some .written ∧ s'.agenda = rest ∧
      (s.eng = .busy → step s = .next (raiseCmdError 2 s')) ∧
      (s.eng = .idle → ∀ e, decode w = .error e → step s = .next (raiseCmdError 1 s')) ∧
      (s.eng = .idle → ∀ i, decode w = .ok i → (i = .sign ∨ i = .verify) → Config.msgCap < s.msgLen.toNat →
        step s = .next (raiseCmdError 3 s')) ∧
      (s.eng = .idle → ∀ i, decode w = .ok i → ¬ ((i = .sign ∨ i = .verify) ∧ Config.msgCap < s.msgLen.toNat) →
        step s = .next (acceptCommand i (intermediatesOf i) s'))

/-- A step runs the decoded command: a legal word written to `CMD` runs its command with that write on the port, and the block's own
step runs the command in `CUR_OP` with none; an idle engine's own step changes nothing. What surrounds `exec` is taking the
event off the agenda and setting the port (assumptions 7 and 8). -/
def Obligations.StepRunsTheDecodedCommand : Prop :=
  (∀ (s : State) (w : Word) (rest : List Event) (i : Instr), NextAccess (cmdWrite w) rest s → decode w = .ok i →
      step s = exec i { s with agenda := rest, port := some (cmdWrite w), response := some .written }) ∧
    (∀ (s : State) (rest : List Event) (i : Instr), OwnNext rest s → s.eng = .busy → s.curOp = i.opcode →
      step s = exec i { s with agenda := rest, port := none, response := none }) ∧
    (∀ (s : State) (rest : List Event), OwnNext rest s → s.eng = .idle →
      step s = .next { s with agenda := rest, port := none, response := none })

/-! ### Accept -/

/-- R35: an accepted command makes the engine busy, latches its operands' registers and clears DONE, RESULT and EXCL; its operands
cannot change before its completion, since no access changes them while it runs. That the hidden store holds the command's intermediates
from the accept on is the model's choice (assumption 5). -/
def Obligations.AcceptStartsTheCommand : Prop :=
  (∀ (i : Instr) (s : State), Presented i s → s.eng = .idle →
      ((i = .sign ∨ i = .verify) → s.msgLen.toNat ≤ Config.msgCap) →
      let t : State := { s with
        eng := .busy, curOp := i.opcode, curSchk := if i = .verify then s.ctrl.schk else s.curSchk, curLen := s.msgLen,
        status := { s.status with done := false, result := false, excl := false, lastOp := i.opcode } }
      exec i s = .next { t with hidden := intermediatesOf i t }) ∧
    ∀ (s : State) (a : Access) (rest : List Event), s.eng = .busy → NextAccess a rest s →
      ∃ t, step s = .next t ∧ t.mem = s.mem ∧ t.ctrl = s.ctrl ∧ t.msgLen = s.msgLen ∧ SameLatches s t

/-! ### SIGN -/

/-- R115 to R125: a running SIGN with a clamped key completes with the signature in SIG, SEED zeroed and DONE set.
R36, R37: the engine is idle with its hidden state zero; that this takes in the latches is assumption 13. -/
def Obligations.SignCompletesWithTheSignature : Prop :=
  ∀ s : State, Running .sign s → s.mem.wf = true → clamped s.key = true →
    let a := leNat s.key
    let aenc := pointEncode (scalarMult a basePoint)
    let r := scReduce512 (hash512 (diversifier ++ s.key ++ s.message ++ s.seed))
    let renc := pointEncode (scalarMult r basePoint)
    let h := scReduce512 (hash512 (renc ++ aenc ++ s.message))
    ∃ t, exec .sign s = .next t ∧ t.sig.take 32 = renc ∧
      leNat (t.sig.drop 32) = (h * a + r) % groupOrder + 2 ^ 255 * signBit aenc ∧
      t.seed = zeros 64 ∧ EngineRetired t ∧ t.status = { s.status with done := true } ∧ t.draws = s.draws

/-- R124: a running SIGN with an unclamped key completes too: SIG is a draw, 64 free bytes (assumption 4), SEED is zeroed and no error is
raised. R36, R37: the engine is idle with its hidden state zero; that this takes in the latches is assumption 13. -/
def Obligations.SignOfUnclampedKeyCompletesWithADraw : Prop :=
  ∀ s : State, Running .sign s → s.mem.wf = true → clamped s.key = false →
    ∃ t, exec .sign s = .next t ∧ (∀ i < 64, byteAt t.sig i = Config.drawByte s.draws i) ∧ t.seed = zeros 64 ∧
      EngineRetired t ∧ t.status = { s.status with done := true } ∧ t.draws = s.draws + 1

/-- R125: SIGN's completion zeroes SEED, whatever the key, and does not clear KEY. -/
def Obligations.SignConsumesTheSeed : Prop :=
  ∀ s : State, Running .sign s → s.mem.wf = true → ∃ t, exec .sign s = .next t ∧ t.seed = zeros 64 ∧ t.key = s.key

/-- R128: what SIGN leaves unchanged; of memory, every byte outside SIG and SEED. -/
def Obligations.SignLeavesTheRestUnchanged : Prop :=
  ∀ s : State, Running .sign s →
    ∃ t, exec .sign s = .next t ∧ t.key = s.key ∧ t.pk = s.pk ∧ t.aed = s.aed ∧
      (∀ a, ¬ (sigBase ≤ a ∧ a < sigBase + 64) → ¬ (seedBase ≤ a ∧ a < seedBase + 64) →
        readByte t.mem a = readByte s.mem a) ∧
      t.msgLen = s.msgLen ∧ t.ctrl = s.ctrl ∧ t.status = { s.status with done := true } ∧ SameOutside s t

/-- R127, R34: for a clamped key the SIG of SIGN depends on KEY, the message's CUR_LEN bytes and SEED alone. -/
def Obligations.SignDependsOnItsOperandsOnly : Prop :=
  ∀ s s' : State, Running .sign s → Running .sign s' → s.mem.wf = true → s'.mem.wf = true → clamped s.key = true →
    s'.curLen = s.curLen →
    (∀ a, (keyBase ≤ a ∧ a < keyBase + 32) ∨ (seedBase ≤ a ∧ a < seedBase + 64) ∨
      (msgBase ≤ a ∧ a < msgBase + s.curLen.toNat) → readByte s'.mem a = readByte s.mem a) →
    ∃ t t', exec .sign s = .next t ∧ exec .sign s' = .next t' ∧ t'.sig = t.sig

/-- R121, R122, R123: the parts of a signature. S is below L, so bits 253 and 254 are 0, and bit 255 is the sign bit of the encoded
public point. -/
def Obligations.SignatureLayout : Prop :=
  ∀ k m seed : List Byte,
    let a := leNat k
    let aenc := signPublic k
    let r := signNonce k m seed
    let renc := signNoncePoint r
    let s := (challenge renc aenc m * a + r) % groupOrder
    let sig := signature k m seed
    sig.length = 64 ∧ sig.take 32 = renc ∧ leNat (sig.drop 32) % 2 ^ 255 = s ∧ s < groupOrder ∧
      byteAt sig 63 &&& 0x60 = 0 ∧ byteAt sig 63 = (byteAt (leBytes 32 s) 31 &&& 0x7F) ||| (byteAt aenc 31 &&& 0x80)

/-! ### MAP -/

/-- R130, R132: a running MAP whose u is not p - 1 completes with y = (u - 1)/(u + 1) and the sign bit of SIG in AED.
R36, R37: the engine is idle with its hidden state zero; that this takes in the latches is assumption 13. -/
def Obligations.MapCompletesWithTheMappedKey : Prop :=
  ∀ s : State, Running .map s → s.mem.wf = true → leNat s.pk % 2 ^ 255 % p ≠ p - 1 →
    let u := leNat s.pk % 2 ^ 255 % p
    ∃ t, exec .map s = .next t ∧
      leNat t.aed = feMul (feSub u 1) (feInv (feAdd u 1)) + 2 ^ 255 * ((byteAt s.sig 63).toNat / 128) ∧
      EngineRetired t ∧ t.status = { s.status with done := true } ∧ t.draws = s.draws

/-- R131: on the excluded input MAP completes with EXCL and DONE set, free bytes in AED (assumption 4) and no command error.
R36, R37: the engine is idle with its hidden state zero; that this takes in the latches is assumption 13. -/
def Obligations.MapOfExcludedInputCompletes : Prop :=
  ∀ s : State, Running .map s → s.mem.wf = true → leNat s.pk % 2 ^ 255 % p = p - 1 →
    ∃ t, exec .map s = .next t ∧ (∀ i < 32, byteAt t.aed i = Config.drawByte s.draws i) ∧ EngineRetired t ∧
      t.status = { s.status with done := true, excl := true } ∧ t.draws = s.draws + 1

/-- R71, R133, R134: what MAP leaves unchanged; of memory, every byte outside AED. -/
def Obligations.MapLeavesTheRestUnchanged : Prop :=
  ∀ s : State, Running .map s →
    ∃ t, exec .map s = .next t ∧
      (∀ a, ¬ (aedBase ≤ a ∧ a < aedBase + 32) → readByte t.mem a = readByte s.mem a) ∧
      t.key = s.key ∧ t.seed = s.seed ∧ t.pk = s.pk ∧ t.sig = s.sig ∧ t.msgLen = s.msgLen ∧ t.ctrl = s.ctrl ∧
      t.status = { s.status with done := true, excl := t.status.excl } ∧ SameOutside s t

/-- R134: bit 7 of `PK[31]` never affects MAP's result, and MAP leaves PK as it was. -/
def Obligations.MapIgnoresTheTopBitOfPk : Prop :=
  (∀ (pk : List Byte) (sb b : Byte), pk.length = 32 → b &&& 0x7F = byteAt pk 31 &&& 0x7F →
      mapCore (pk.set 31 b) sb = mapCore pk sb) ∧
    ∀ s : State, Running .map s → ∃ t, exec .map s = .next t ∧ t.pk = s.pk

/-- R135: a non-canonical u is mapped as u - p, and the excluded element p - 1 has two encodings. -/
def Obligations.MapReducesNonCanonicalInputs : Prop :=
  (∀ (pk : List Byte) (sb : Byte), pk.length = 32 → p ≤ leNat pk % 2 ^ 255 →
      mapCore pk sb = mapCore (leBytes 32 (leNat pk % 2 ^ 255 - p)) sb) ∧
    ∀ (pk : List Byte) (sb : Byte), pk.length = 32 →
      (mapCore pk sb = none ↔ pk = leBytes 32 (p - 1) ∨ pk = leBytes 32 (p - 1 + 2 ^ 255))

/-- R137: different field elements have different y fields, no field element maps to y = 1, and with its sign bit the output
determines the input. -/
def Obligations.MapIsInjective : Prop :=
  ∀ (u1 u2 : Nat) (b1 b2 : Bool) (e1 e2 : List Byte), u1 < p → u2 < p →
    mapCore (feEncode u1) (if b1 then 0x80 else 0) = some e1 → mapCore (feEncode u2) (if b2 then 0x80 else 0) = some e2 →
    low255 e1 ≠ 1 ∧ (low255 e1 = low255 e2 → u1 = u2) ∧ (e1 = e2 → u1 = u2 ∧ b1 = b2)

/-! ### VERIFY -/

/-- R140, R152: a running VERIFY completes with RESULT the conjunction of its tests: map not excluded, S accepted by the policy, A
decodes, encodings equal. R36, R37: the engine is idle with its hidden state zero; that this takes in the latches is assumption 13. -/
def Obligations.VerifyCompletesWithItsVerdict : Prop :=
  ∀ s : State, Running .verify s →
    let sc := leNat (s.sig.drop 32) % 2 ^ 255
    let rb := s.sig.take 32
    ∃ t, exec .verify s = .next t ∧ EngineRetired t ∧
      t.status = { s.status with done := true, result := t.status.result } ∧
      (t.status.result = true ↔
        (s.curSchk = 1 → sc < 2 ^ 253) ∧ (s.curSchk = 2 → sc < groupOrder) ∧
          ∃ aed a, mapCore s.pk (byteAt s.sig 63 &&& 0x80) = some aed ∧ pointDecode aed = some a ∧
            pointEncode (pointAdd (scalarMult sc basePoint)
              (scalarMult (scReduce512 (hash512 (rb ++ aed ++ s.message))) (pointNeg a))) = rb)

/-- R151: VERIFY writes no buffer, and of the registers STATUS alone. -/
def Obligations.VerifyHasNoSideEffect : Prop :=
  ∀ s : State, Running .verify s →
    ∃ t, exec .verify s = .next t ∧ t.mem = s.mem ∧ t.msgLen = s.msgLen ∧ t.ctrl = s.ctrl ∧ t.draws = s.draws ∧
      t.status = { s.status with done := true, result := t.status.result } ∧ SameOutside s t

/-- R143: on the excluded input VERIFY's result is false and EXCL is not set. -/
def Obligations.VerifyOfExcludedInputIsFalse : Prop :=
  ∀ s : State, Running .verify s → leNat s.pk % 2 ^ 255 % p = p - 1 →
    ∃ t, exec .verify s = .next t ∧ t.status.result = false ∧ t.status.excl = s.status.excl

/-- R145: policy 0 lets every S into the equation, 1 those below 2^253, which is the test of bits 253 and 254, and 2 those below L; a
rejected S makes the result false, and an accepted one leaves it to the equation. -/
def Obligations.CanonicalPolicyTable : Prop :=
  ∀ pk m sig : List Byte, sig.length = 64 →
    let s := leNat (sig.drop 32) % 2 ^ 255
    schkAccepts 0 s = true ∧ (schkAccepts 1 s = true ↔ s < 2 ^ 253) ∧ (s < 2 ^ 253 ↔ byteAt sig 63 &&& 0x60 = 0) ∧
      (schkAccepts 2 s = true ↔ s < groupOrder) ∧
      (s < 2 ^ 253 → verifies 1 pk m sig = verifies 0 pk m sig) ∧ (2 ^ 253 ≤ s → verifies 1 pk m sig = false) ∧
      (s < groupOrder → verifies 2 pk m sig = verifies 0 pk m sig) ∧ (groupOrder ≤ s → verifies 2 pk m sig = false)

/-- R141: the top bit of the public key does not change the result. -/
def Obligations.VerifyIgnoresTheTopBitOfPk : Prop :=
  ∀ (schk : BitVec 2) (pk m sig : List Byte) (b : Byte), pk.length = 32 → b &&& 0x7F = byteAt pk 31 &&& 0x7F →
    verifies schk (pk.set 31 b) m sig = verifies schk pk m sig

/-- R146: under policy 0 the result depends on S modulo L only; under 1 likewise among S below 2^253; under 2 no second S verifies. -/
def Obligations.MalleabilityByPolicy : Prop :=
  ∀ pk m sig sig' : List Byte, sig.length = 64 → sig'.length = 64 → sig'.take 32 = sig.take 32 →
    byteAt sig' 63 &&& 0x80 = byteAt sig 63 &&& 0x80 →
    let s := leNat (sig.drop 32) % 2 ^ 255
    let s' := leNat (sig'.drop 32) % 2 ^ 255
    s' % groupOrder = s % groupOrder →
      (verifies 0 pk m sig = true → verifies 0 pk m sig' = true) ∧
      (s' < 2 ^ 253 → verifies 1 pk m sig = true → verifies 1 pk m sig' = true) ∧
      (verifies 2 pk m sig = true → verifies 2 pk m sig' = true → s' = s)

/-- R153: what SIGN leaves verifies, under every policy, against the Montgomery public key of its key. -/
def Obligations.SignThenVerifyIsTrue : Prop :=
  ∀ s t s' : State, Running .sign s → s.mem.wf = true → clamped s.key = true → exec .sign s = .next t →
    Running .verify s' → s'.sig = t.sig → s'.message = s.message → s'.pk = montgomeryPublicKey s.key →
    ∃ t', exec .verify s' = .next t' ∧ t'.status.result = true

/-! ### CLEAR -/

/-- R160, R161: a running CLEAR completes with every buffer byte and MSG_LEN at their reset values, and CTRL, ERR and ERRCODE as they
were; no other byte of memory changes. R36, R37: the engine is idle with its hidden state zero; that this takes in the latches is
assumption 13. -/
def Obligations.ClearCompletesWithZeroBuffers : Prop :=
  ∀ s : State, Running .clear s →
    ∃ t, exec .clear s = .next t ∧ t.key = zeros 32 ∧ t.seed = zeros 64 ∧ t.pk = zeros 32 ∧ t.sig = zeros 64 ∧
      t.aed = zeros 32 ∧ readBytes t.mem msgBase Config.msgCap = zeros Config.msgCap ∧
      (∀ a, ¬ (keyBase ≤ a ∧ a < aedBase + 32) → ¬ (msgBase ≤ a ∧ a < msgBase + Config.msgCap) →
        readByte t.mem a = readByte s.mem a) ∧
      t.msgLen = 0 ∧ EngineRetired t ∧ t.ctrl = s.ctrl ∧ t.status = { s.status with done := true } ∧ t.draws = s.draws ∧
      SameOutside s t

/-- R161: after CLEAR the memory of a sound state is that of reset, as data. -/
def Obligations.ClearLeavesTheResetMemory : Prop :=
  ∀ s : State, Running .clear s → MemorySound s →
    ∃ t, exec .clear s = .next t ∧ t.mem = State.reset.mem ∧ t.msgLen = State.reset.msgLen

/-- R162: a VERIFY of what CLEAR leaves is false, under every policy. -/
def Obligations.VerifyOfClearedBuffersIsFalse : Prop :=
  ∀ schk : BitVec 2, verifies schk (zeros 32) [] (zeros 64) = false

/-! ### The bus -/

/-- R55, R57: what a read returns, in either engine state; it changes nothing. -/
def Obligations.ReadsReturnTheirTable : Prop :=
  ∀ (s : State) (off : Offset) (rest : List Event), NextAccess (wordRead off) rest s → off.toNat % 4 = 0 → Mapped off.toNat →
    ∃ t v, step s = .next t ∧ t.response = some (.value v) ∧ t.agenda = rest ∧ SameBlock s t ∧
      (off = 0x000 → v = (s.ctrl.schk.setWidth 32 <<< 1) ||| (BitVec.ofBool s.ctrl.ie).setWidth 32) ∧
      (off = 0x004 → v.getLsbD 0 = (s.eng == .busy) ∧ v.getLsbD 1 = s.status.done ∧ v.getLsbD 2 = s.status.result ∧
        v.getLsbD 3 = s.status.excl ∧ v.getLsbD 4 = s.status.err ∧ v.extractLsb' 5 3 = 0 ∧
        v.extractLsb' 8 4 = s.status.errCode ∧ v.extractLsb' 12 4 = 0 ∧ v.extractLsb' 16 8 = s.status.lastOp ∧
        v.extractLsb' 24 8 = 0) ∧
      (off = 0x008 → v = 0) ∧ (off = 0x00C → v = s.msgLen) ∧ (off = 0x010 → v.toNat = Config.msgCap) ∧
      (0x100 ≤ off.toNat → off.toNat < 0x160 → v = 0) ∧
      ((0x160 ≤ off.toNat ∧ off.toNat < 0x1E0) ∨ 0x1000 ≤ off.toNat →
        ∀ j < 4, v.extractLsb' (8 * j) 8 = readByte s.mem (off.toNat + j))

/-- R32: a read of any word of KEY or SEED returns 0 and changes nothing. -/
def Obligations.SecretBuffersReadAsZero : Prop :=
  ∀ (s : State) (off : Offset) (rest : List Event), NextAccess (wordRead off) rest s → off.toNat % 4 = 0 →
    keyBase ≤ off.toNat → off.toNat < seedBase + 64 →
    ∃ t, step s = .next t ∧ t.response = some (.value 0) ∧ SameBlock s t

/-- R54: the accesses that end in a bus error are exactly those R54 lists, in either engine state, and they change nothing. -/
def Obligations.BusErrorsChangeNothing : Prop :=
  ∀ (s : State) (a : Access) (rest : List Event), NextAccess a rest s →
    ∃ t, step s = .next t ∧ t.agenda = rest ∧ (t.response = some (.busError a.offset) ↔ BreaksBusRules a) ∧
      (BreaksBusRules a → SameBlock s t)

/-- R53, R56: a word written to a buffer while idle lands in its four bytes, least significant first, and nowhere else. -/
def Obligations.BufferWritesAreLittleEndian : Prop :=
  ∀ (s : State) (off : Offset) (v : Word) (rest : List Event), s.eng = .idle → s.mem.wf = true →
    NextAccess (wordWrite off v) rest s → off.toNat % 4 = 0 → HostBuffer off.toNat →
    ∃ t, step s = .next t ∧ (∀ j < 4, readByte t.mem (off.toNat + j) = v.extractLsb' (8 * j) 8) ∧
      (∀ a, ¬ (off.toNat ≤ a ∧ a < off.toNat + 4) → readByte t.mem a = readByte s.mem a) ∧
      SameLatches s t ∧ t.ctrl = s.ctrl ∧ t.status = s.status ∧ t.msgLen = s.msgLen ∧ t.draws = s.draws ∧ t.agenda = rest

/-- R24: a write of CTRL while idle stores IE and SCHK, with 3 stored as 2, and nothing else; while busy it is dropped; and a read
returns the SCHK stored. -/
def Obligations.ControlWriteStoresLegalPolicy : Prop :=
  (∀ (s : State) (v : Word) (rest : List Event), NextAccess (wordWrite 0x000 v) rest s →
    ∃ t, step s = .next t ∧ t.mem = s.mem ∧ t.msgLen = s.msgLen ∧ SameLatches s t ∧
      (s.eng = .idle → t.status = s.status ∧ t.ctrl.ie = v.getLsbD 0 ∧ t.ctrl.schk ≠ 3 ∧
        (v.extractLsb' 1 2 = 3 → t.ctrl.schk = 2) ∧ (v.extractLsb' 1 2 ≠ 3 → t.ctrl.schk = v.extractLsb' 1 2)) ∧
      (s.eng = .busy → t.ctrl = s.ctrl)) ∧
    ∀ (s : State) (rest : List Event), NextAccess (wordRead 0x000) rest s →
      ∃ t v, step s = .next t ∧ t.response = some (.value v) ∧ v.extractLsb' 1 2 = s.ctrl.schk

/-- R27: a write of STATUS is taken in either engine state: bit 1 clears DONE, bit 4 clears ERR and ERRCODE, and nothing else happens. -/
def Obligations.StatusWriteClearsItsBits : Prop :=
  ∀ (s : State) (v : Word) (rest : List Event), NextAccess (wordWrite 0x004 v) rest s →
    ∃ t, step s = .next t ∧ t.response = some .written ∧ SameLatches s t ∧ t.ctrl = s.ctrl ∧ t.msgLen = s.msgLen ∧
      t.mem = s.mem ∧ t.draws = s.draws ∧ t.status.result = s.status.result ∧ t.status.excl = s.status.excl ∧
      t.status.lastOp = s.status.lastOp ∧
      t.status.done = (if v.getLsbD 1 then false else s.status.done) ∧
      t.status.err = (if v.getLsbD 4 then false else s.status.err) ∧
      t.status.errCode = (if v.getLsbD 4 then 0 else s.status.errCode)

/-- R29: any value written to MSG_LEN while idle is held, and reads back unchanged. -/
def Obligations.MessageLengthHoldsAnyValue : Prop :=
  ∀ (s : State) (v : Word) (rest : List Event), s.eng = .idle →
    NextAccess (wordWrite 0x00C v) (.access (wordRead 0x00C) :: rest) s →
    ∃ t u, step s = .next t ∧ t.msgLen = v ∧ t.mem = s.mem ∧ t.ctrl = s.ctrl ∧ t.status = s.status ∧ SameLatches s t ∧
      step t = .next u ∧ u.response = some (.value v)

/-- R30, R7: MSG_CAP is a legal capacity, reads as itself and cannot be written. -/
def Obligations.CapacityIsReadOnly : Prop :=
  legalMsgCap Config.msgCap = true ∧
    (∀ (s : State) (rest : List Event), NextAccess (wordRead 0x010) rest s →
      ∃ t v, step s = .next t ∧ t.response = some (.value v) ∧ v.toNat = Config.msgCap) ∧
    ∀ (s : State) (v : Word) (rest : List Event), NextAccess (wordWrite 0x010 v) rest s →
      ∃ t, step s = .next t ∧ t.response = some (.busError 0x010) ∧ SameBlock s t

/-- R168: while busy, a write to CTRL, MSG_LEN or a buffer is dropped and raises command error 2, and nothing else changes. -/
def Obligations.BusyWritesAreDropped : Prop :=
  ∀ (s : State) (off : Offset) (v : Word) (rest : List Event), s.eng = .busy → NextAccess (wordWrite off v) rest s →
    off.toNat % 4 = 0 → (off = 0x000 ∨ off = 0x00C ∨ HostBuffer off.toNat) →
    ∃ t, step s = .next t ∧ t.status = { s.status with err := true, errCode := 2 } ∧ SameLatches s t ∧ t.ctrl = s.ctrl ∧
      t.msgLen = s.msgLen ∧ t.mem = s.mem ∧ t.draws = s.draws ∧ t.response = some .written ∧ t.agenda = rest

/-- R57: writing the same value twice to a buffer, MSG_LEN or CTRL while idle is the same as writing it once. -/
def Obligations.RepeatedWriteIsOneWrite : Prop :=
  ∀ (s : State) (off : Offset) (v : Word) (rest : List Event), s.eng = .idle → s.mem.wf = true →
    NextAccess (wordWrite off v) (.access (wordWrite off v) :: rest) s → off.toNat % 4 = 0 →
    (off = 0x000 ∨ off = 0x00C ∨ HostBuffer off.toNat) →
    ∃ t u, step s = .next t ∧ step t = .next u ∧ SameBlock t u

/-! ### Rules of the whole machine -/

/-- R172: `irq` is its rule at every state, rises only after a completion, a command error or a write of 1 to IE, and falls only after a
write to STATUS that clears a bit, a write of 0 to IE, an accept without ERR set, or reset. It moves with no cycle of delay
(assumption 14). -/
def Obligations.InterruptMovesOnlyOnItsCauses : Prop :=
  ∀ s t : State, step s = .next t →
    t.irq = (t.ctrl.ie && (t.status.done || t.status.err)) ∧
    (s.irq = false → t.irq = true →
      (s.eng = .busy ∧ t.eng = .idle ∧ t.status.done = true) ∨ (s.status.err = false ∧ t.status.err = true) ∨
        ∃ v rest, NextAccess (wordWrite 0x000 v) rest s ∧ v.getLsbD 0 = true) ∧
    (s.irq = true → t.irq = false →
      (∃ v rest, NextAccess (wordWrite 0x004 v) rest s ∧ (v.getLsbD 1 = true ∨ v.getLsbD 4 = true)) ∨
        (∃ v rest, NextAccess (wordWrite 0x000 v) rest s ∧ v.getLsbD 0 = false) ∨
        (s.eng = .idle ∧ t.eng = .busy ∧ s.status.err = false) ∨ ∃ rest, s.agenda = .reset :: rest)

/-- R170: ERR stays 1 until the host writes 1 to bit 4 of STATUS or reset; ERRCODE is the latest error's, and is 0 after a clear;
accept and completion change neither. -/
def Obligations.ErrorIsSticky : Prop :=
  ∀ s t : State, step s = .next t →
    ((t.status.err = s.status.err ∧ t.status.errCode = s.status.errCode) ∨
      (t.status.err = true ∧ (t.status.errCode = 1 ∨ t.status.errCode = 2 ∨ t.status.errCode = 3) ∧
        ∃ off v rest, NextAccess (wordWrite off v) rest s) ∨
      (t.status.err = false ∧ t.status.errCode = 0 ∧
        ((∃ v rest, NextAccess (wordWrite 0x004 v) rest s ∧ v.getLsbD 4 = true) ∨ ∃ rest, s.agenda = .reset :: rest))) ∧
    (s.eng = .idle → t.eng = .busy → t.status.err = s.status.err ∧ t.status.errCode = s.status.errCode) ∧
    (∀ rest, OwnNext rest s → t.status.err = s.status.err ∧ t.status.errCode = s.status.errCode)

/-- R21: the engine becomes busy only at an accept and idle only at a completion or at reset. -/
def Obligations.EngineMovesOnlyAtAcceptAndCompletion : Prop :=
  ∀ s t : State, step s = .next t →
    (s.eng = .idle → t.eng = .busy → ∃ i rest, NextAccess (cmdWrite (encode i)) rest s ∧ t.curOp = i.opcode) ∧
    (s.eng = .busy → t.eng = .idle →
      (∃ rest, OwnNext rest s ∧ t.status.done = true) ∨ ∃ rest, s.agenda = .reset :: rest)

/-- R33: AED changes only at a completion of MAP or CLEAR and at reset; a bus write to it is a bus error. -/
def Obligations.OnlyMapClearAndResetWriteAed : Prop :=
  (∀ s t : State, step s = .next t → t.aed ≠ s.aed →
      (s.eng = .busy ∧ (s.curOp = Instr.map.opcode ∨ s.curOp = Instr.clear.opcode) ∧ ∃ rest, OwnNext rest s) ∨
        ∃ rest, s.agenda = .reset :: rest) ∧
    ∀ (s : State) (off : Offset) (w : Width) (st : BitVec 4) (v : Word) (rest : List Event),
      NextAccess (.write off w st v) rest s → aedBase ≤ off.toNat → off.toNat < aedBase + 32 →
      ∃ t, step s = .next t ∧ t.response = some (.busError off) ∧ SameBlock s t

/-- R37: nothing the block does or answers depends on the hidden intermediates: two states that differ in them alone step alike. The two
steps make the same draws, in SIG of an unclamped SIGN and in AED of an excluded MAP (assumption 4). -/
def Obligations.HiddenStateIsUnobservable : Prop :=
  ∀ (s t : State) (h : Intermediates), step s = .next t →
    ∃ h', step { s with hidden := h } = .next { t with hidden := h' }

/-- R32, R178: no run in which no SIGN is running or to come tells KEY or SEED apart: whatever the two hold, each step answers the bus
alike and leaves everything but them alike. The two runs make the same draws (assumption 4). -/
def Obligations.SecretsNeverReachTheBus : Prop :=
  ∀ (n : Nat) (s s' t : State), MemorySound s → MemorySound s' → EqualButSecrets s s' → NoSignToCome s →
    ¬ (s.eng = .busy ∧ s.curOp = Instr.sign.opcode) → Host.Core.run Sys2Proof.core n s = .next t →
    ∃ t', Host.Core.run Sys2Proof.core n s' = .next t' ∧ EqualButSecrets t t'

/-- R196: every command completes: from a state of the invariant the engine is idle within one step more than the events to come
(assumption 8 is what makes its turn come). -/
def Obligations.EveryCommandCompletes : Prop :=
  ∀ s : State, s.Inv → ∃ k t, k ≤ s.agenda.length + 1 ∧ Host.Core.run Sys2Proof.core k s = .next t ∧ t.eng = .idle

/-! ### Host programs -/

/-- R77: `WAIT_IDLE` ends: however long the host has polled, once the block has moved the host leaves the loop within three moves. -/
def Obligations.WaitIdleEnds : Prop :=
  ∀ (s : State) (n : Nat), s.Inv → s.agenda = [] →
    let prog := expandLines 0 [.waitIdle]
    let h := (HostRun.start s).moves prog (List.replicate n .host ++ [.block] ++ List.replicate 3 .host)
    h.block.eng = .idle ∧ h.line = 2 ∧ (h.status = .running ∨ h.status = .finished)

/-- R77: `LOAD` stores its bytes, padded with zero bytes to a multiple of 4, at its offset and nowhere else. -/
def Obligations.LoadStoresItsBytes : Prop :=
  ∀ (s : State) (base : Nat) (bytes : List Byte), s.eng = .idle → s.mem.wf = true → s.agenda = [] → base % 4 = 0 →
    (∀ a, base ≤ a → a < base + bytes.length → HostBuffer a) →
    let prog := expandLines 0 [.load (.number base) bytes]
    let h := (HostRun.start s).moves prog (List.replicate prog.length .host)
    let padded := bytes ++ zeros ((4 - bytes.length % 4) % 4)
    h.status = .running ∧ h.line = prog.length ∧ readBytes h.block.mem base padded.length = padded ∧
      (∀ a, ¬ (base ≤ a ∧ a < base + padded.length) → readByte h.block.mem a = readByte s.mem a) ∧
      h.block.ctrl = s.ctrl ∧ h.block.status = s.status ∧ h.block.msgLen = s.msgLen ∧ h.block.eng = .idle

/-! ### Primitives -/

/-- R90: `FeInv` of a field element other than 0 is its only inverse. -/
def Obligations.FieldInverseIsUnique : Prop :=
  ∀ x : Nat, x < p → x ≠ 0 →
    feInv x < p ∧ feMul x (feInv x) = 1 ∧ ∀ z, z < p → feMul x z = 1 → z = feInv x

/-- R88: the encoding of a field element is 32 bytes with its integer, bit 255 is clear, and it decodes to the element whatever bit 255
then is. -/
def Obligations.FieldEncodingRoundTrips : Prop :=
  ∀ (x : Nat) (b : Byte), x < p →
    (feEncode x).length = 32 ∧ leNat (feEncode x) = x ∧ byteAt (feEncode x) 31 &&& 0x80 = 0 ∧
      feDecode ((feEncode x).set 31 (byteAt (feEncode x) 31 ||| (b &&& 0x80))) = x

/-- R95: on the curve the denominators are never 0, the sum is on the curve, and O is neutral. -/
def Obligations.PointAdditionIsComplete : Prop :=
  ∀ q r : Point, onCurve q = true → onCurve r = true →
    let t := feMul curveD (feMul (feMul q.x r.x) (feMul q.y r.y))
    feAdd 1 t ≠ 0 ∧ feSub 1 t ≠ 0 ∧ onCurve (pointAdd q r) = true ∧ onCurve neutral = true ∧ pointAdd q neutral = q ∧
      pointAdd neutral q = q ∧
      feMul (pointAdd q r).x (feAdd 1 t) = feAdd (feMul q.x r.y) (feMul r.x q.y) ∧
      feMul (pointAdd q r).y (feSub 1 t) = feAdd (feMul q.y r.y) (feMul q.x r.x)

/-- R96: the negation of (x, y) is (-x, y), and a point and its negation add to O. -/
def Obligations.PointNegationInverts : Prop :=
  ∀ q : Point, onCurve q = true →
    onCurve (pointNeg q) = true ∧ (pointNeg q).y = q.y ∧ feAdd (pointNeg q).x q.x = 0 ∧ pointAdd q (pointNeg q) = neutral

/-- R97: `ScalarMult`, which the model computes by doubling (assumption 11), meets the recursion of the rule: it is k additions of the
point. -/
def Obligations.ScalarMultIsRepeatedAddition : Prop :=
  ∀ (k : Nat) (q : Point), onCurve q = true →
    scalarMult 0 q = neutral ∧ scalarMult (k + 1) q = pointAdd (scalarMult k q) q ∧ scalarMult k q = scalarMultByRule k q

/-- R98: the base point: y = 4/5, even x, the coordinates, order exactly L, its encoding, and its Montgomery u-coordinate 9. -/
def Obligations.BasePointHasOrderL : Prop :=
  onCurve basePoint = true ∧ basePoint.y = feMul 4 (feInv 5) ∧
    basePoint.y = 46316835694926478169428394003475163141307993866256225615783033603165251855960 ∧
    basePoint.x = 15112221349535400772501151409588531511454012693041857206046113283949847762202 ∧ basePoint.x % 2 = 0 ∧
    scalarMult groupOrder basePoint = neutral ∧ (∀ k, 0 < k → k < groupOrder → scalarMult k basePoint ≠ neutral) ∧
    pointEncode basePoint = 0x58 :: List.replicate 31 0x66 ∧
    feMul (feAdd 1 basePoint.y) (feInv (feSub 1 basePoint.y)) = 9

/-- R101: what decodes is on the curve and encodes back, but for x = 0 with sign bit 1 where the parameter accepts it; and every point's
encoding decodes to the point. -/
def Obligations.PointDecodingInvertsEncoding : Prop :=
  (∀ (b : List Byte) (q : Point), b.length = 32 → pointDecode b = some q →
      onCurve q = true ∧
        (pointEncode q = b ∨ (q.x = 0 ∧ signBit b = 1 ∧ Config.x0Sign1Accept = true ∧ byteAt (pointEncode q) 31 &&& 0x80 = 0))) ∧
    ∀ q : Point, onCurve q = true → pointDecode (pointEncode q) = some q

/-! ### The hidden store -/

/-- R37: while a command runs the block holds the command's intermediates and nothing else: A, rReduced, EncodedR, hReduced and S of SIGN
(R116 to R121), montX, edY and A_ed of MAP and VERIFY (R132), the stripped S (R144) and the challenge (R148) of VERIFY. That it holds them
from the accept on, and 0 for one that a command's rule does not compute, is the model's choice (assumption 5). -/
def Obligations.RunningCommandHoldsItsIntermediates : Prop :=
  ∀ s : State, s.Inv → s.eng = .busy →
    let a := leNat s.key
    let aenc := pointEncode (scalarMult a basePoint)
    let r := scReduce512 (hash512 (diversifier ++ s.key ++ s.message ++ s.seed))
    let renc := pointEncode (scalarMult r basePoint)
    let h := scReduce512 (hash512 (renc ++ aenc ++ s.message))
    let u := leNat s.pk % 2 ^ 255 % p
    let y := feMul (feSub u 1) (feInv (feAdd u 1))
    let sb := (byteAt s.sig 63).toNat / 128
    let sc := leNat (s.sig.drop 32) % 2 ^ 255
    let aed := leBytes 32 (y + 2 ^ 255 * sb)
    let hv := scReduce512 (hash512 (s.sig.take 32 ++ aed ++ s.message))
    (s.curOp = Instr.sign.opcode →
      s.hidden.signA.toNat = leNat aenc ∧ s.hidden.signR.toNat = r ∧ s.hidden.signEncodedR.toNat = leNat renc ∧
        s.hidden.signH.toNat = h ∧ s.hidden.signS.toNat = (h * a + r) % groupOrder ∧ s.hidden.montX = 0 ∧ s.hidden.edY = 0 ∧
        s.hidden.aEd = 0 ∧ s.hidden.strippedS = 0 ∧ s.hidden.challenge = 0) ∧
    (s.curOp = Instr.map.opcode ∨ s.curOp = Instr.verify.opcode →
      s.hidden.montX.toNat = u ∧ (u ≠ p - 1 → s.hidden.edY.toNat = y ∧ s.hidden.aEd.toNat = y + 2 ^ 255 * sb) ∧
        (u = p - 1 → s.hidden.edY = 0 ∧ s.hidden.aEd = 0) ∧ s.hidden.signA = 0 ∧ s.hidden.signR = 0 ∧
        s.hidden.signEncodedR = 0 ∧ s.hidden.signH = 0 ∧ s.hidden.signS = 0) ∧
    (s.curOp = Instr.map.opcode → s.hidden.strippedS = 0 ∧ s.hidden.challenge = 0) ∧
    (s.curOp = Instr.verify.opcode →
      let reached := schkAccepts s.curSchk sc = true ∧ (pointDecode aed).isSome = true
      (u ≠ p - 1 → s.hidden.strippedS.toNat = sc) ∧ (u = p - 1 → s.hidden.strippedS = 0 ∧ s.hidden.challenge = 0) ∧
        (u ≠ p - 1 ∧ reached → s.hidden.challenge.toNat = hv) ∧ (¬ reached → s.hidden.challenge = 0)) ∧
    (s.curOp = Instr.clear.opcode → s.hidden = .zero)

/-! ### The host's offsets -/

/-- R75, R11, R54: a `WR` or `RD` inside the window is the block's full-word access at that offset; a bus error ends the run, and any
other answer moves it to the next line, a read's word kept under its name. Past the window `WR`, `RD` and `BRBIT` are bus errors that
do not reach the block (assumption 16). -/
def Obligations.HostAccessesReachTheirOffset : Prop :=
  ∀ (prog : List HostStmt) (h : HostRun) (off : OffsetExpr), h.status = .running →
    (off.value < 0x10000 → ∀ (a : Access) (t : State), step (withAgenda (.access a :: h.block.agenda) h.block) = .next t →
      (∀ imm, prog[h.line]? = some (.wr off imm) → a = wordWrite (BitVec.ofNat 16 off.value) imm →
        (t.response = some .written → h.move prog .host = { h with block := t, line := h.line + 1 }) ∧
          (t.response = some (.busError a.offset) → h.move prog .host = { h with block := t, status := .busErrored })) ∧
      (∀ name, prog[h.line]? = some (.rd off name) → a = wordRead (BitVec.ofNat 16 off.value) →
        (∀ v, t.response = some (.value v) →
          h.move prog .host = { h with block := t, line := h.line + 1, values := (name, v) :: h.values }) ∧
        (t.response = some (.busError a.offset) → h.move prog .host = { h with block := t, status := .busErrored }))) ∧
    (0x10000 ≤ off.value →
      (∃ imm, prog[h.line]? = some (.wr off imm)) ∨ (∃ name, prog[h.line]? = some (.rd off name)) ∨
        (∃ bit val l, prog[h.line]? = some (.brbit off bit val l)) →
      h.move prog .host = { h with status := .busErrored })
end

