-- ==== Sys2Proof/Laws/State.lean ====
section
/-! SUPPORT. What each update of the state does to each field: one lemma for each, so that no proof unfolds an update. -/

namespace Sys2Proof.Machine

variable (s : State)

@[simp] theorem raiseCmdError_eng (code : BitVec 4) : (raiseCmdError code s).eng = s.eng := rfl
@[simp] theorem raiseCmdError_curOp (code : BitVec 4) : (raiseCmdError code s).curOp = s.curOp := rfl
@[simp] theorem raiseCmdError_curSchk (code : BitVec 4) : (raiseCmdError code s).curSchk = s.curSchk := rfl
@[simp] theorem raiseCmdError_curLen (code : BitVec 4) : (raiseCmdError code s).curLen = s.curLen := rfl
@[simp] theorem raiseCmdError_hidden (code : BitVec 4) : (raiseCmdError code s).hidden = s.hidden := rfl
@[simp] theorem raiseCmdError_ctrl (code : BitVec 4) : (raiseCmdError code s).ctrl = s.ctrl := rfl
@[simp] theorem raiseCmdError_status (code : BitVec 4) : (raiseCmdError code s).status = s.status.raise code := rfl
@[simp] theorem raiseCmdError_msgLen (code : BitVec 4) : (raiseCmdError code s).msgLen = s.msgLen := rfl
@[simp] theorem raiseCmdError_mem (code : BitVec 4) : (raiseCmdError code s).mem = s.mem := rfl
@[simp] theorem raiseCmdError_port (code : BitVec 4) : (raiseCmdError code s).port = s.port := rfl
@[simp] theorem raiseCmdError_response (code : BitVec 4) : (raiseCmdError code s).response = s.response := rfl
@[simp] theorem raiseCmdError_agenda (code : BitVec 4) : (raiseCmdError code s).agenda = s.agenda := rfl
@[simp] theorem raiseCmdError_draws (code : BitVec 4) : (raiseCmdError code s).draws = s.draws := rfl

@[simp] theorem latchCommand_eng (i : Instr) : (latchCommand i s).eng = .busy := rfl
@[simp] theorem latchCommand_curOp (i : Instr) : (latchCommand i s).curOp = i.opcode := rfl
@[simp] theorem latchCommand_curSchk (i : Instr) : (latchCommand i s).curSchk = if i = .verify then s.ctrl.schk else s.curSchk := rfl
@[simp] theorem latchCommand_curLen (i : Instr) : (latchCommand i s).curLen = s.msgLen := rfl
@[simp] theorem latchCommand_hidden (i : Instr) : (latchCommand i s).hidden = s.hidden := rfl
@[simp] theorem latchCommand_ctrl (i : Instr) : (latchCommand i s).ctrl = s.ctrl := rfl
@[simp] theorem latchCommand_status (i : Instr) : (latchCommand i s).status = s.status.accept i.opcode := rfl
@[simp] theorem latchCommand_msgLen (i : Instr) : (latchCommand i s).msgLen = s.msgLen := rfl
@[simp] theorem latchCommand_mem (i : Instr) : (latchCommand i s).mem = s.mem := rfl
@[simp] theorem latchCommand_port (i : Instr) : (latchCommand i s).port = s.port := rfl
@[simp] theorem latchCommand_response (i : Instr) : (latchCommand i s).response = s.response := rfl
@[simp] theorem latchCommand_agenda (i : Instr) : (latchCommand i s).agenda = s.agenda := rfl
@[simp] theorem latchCommand_draws (i : Instr) : (latchCommand i s).draws = s.draws := rfl

@[simp] theorem acceptCommand_eng (i : Instr) (held : State → Intermediates) : (acceptCommand i held s).eng = .busy := rfl
@[simp] theorem acceptCommand_curOp (i : Instr) (held : State → Intermediates) : (acceptCommand i held s).curOp = i.opcode := rfl
@[simp] theorem acceptCommand_curSchk (i : Instr) (held : State → Intermediates) : (acceptCommand i held s).curSchk = if i = .verify then s.ctrl.schk else s.curSchk := rfl
@[simp] theorem acceptCommand_curLen (i : Instr) (held : State → Intermediates) : (acceptCommand i held s).curLen = s.msgLen := rfl
@[simp] theorem acceptCommand_hidden (i : Instr) (held : State → Intermediates) : (acceptCommand i held s).hidden = held (latchCommand i s) := rfl
@[simp] theorem acceptCommand_ctrl (i : Instr) (held : State → Intermediates) : (acceptCommand i held s).ctrl = s.ctrl := rfl
@[simp] theorem acceptCommand_status (i : Instr) (held : State → Intermediates) : (acceptCommand i held s).status = s.status.accept i.opcode := rfl
@[simp] theorem acceptCommand_msgLen (i : Instr) (held : State → Intermediates) : (acceptCommand i held s).msgLen = s.msgLen := rfl
@[simp] theorem acceptCommand_mem (i : Instr) (held : State → Intermediates) : (acceptCommand i held s).mem = s.mem := rfl
@[simp] theorem acceptCommand_port (i : Instr) (held : State → Intermediates) : (acceptCommand i held s).port = s.port := rfl
@[simp] theorem acceptCommand_response (i : Instr) (held : State → Intermediates) : (acceptCommand i held s).response = s.response := rfl
@[simp] theorem acceptCommand_agenda (i : Instr) (held : State → Intermediates) : (acceptCommand i held s).agenda = s.agenda := rfl
@[simp] theorem acceptCommand_draws (i : Instr) (held : State → Intermediates) : (acceptCommand i held s).draws = s.draws := rfl

@[simp] theorem retire_eng : (retire s).eng = .idle := rfl
@[simp] theorem retire_curOp : (retire s).curOp = 0 := rfl
@[simp] theorem retire_curSchk : (retire s).curSchk = 0 := rfl
@[simp] theorem retire_curLen : (retire s).curLen = 0 := rfl
@[simp] theorem retire_hidden : (retire s).hidden = .zero := rfl
@[simp] theorem retire_ctrl : (retire s).ctrl = s.ctrl := rfl
@[simp] theorem retire_status : (retire s).status = { s.status with done := true } := rfl
@[simp] theorem retire_msgLen : (retire s).msgLen = s.msgLen := rfl
@[simp] theorem retire_mem : (retire s).mem = s.mem := rfl
@[simp] theorem retire_port : (retire s).port = s.port := rfl
@[simp] theorem retire_response : (retire s).response = s.response := rfl
@[simp] theorem retire_agenda : (retire s).agenda = s.agenda := rfl
@[simp] theorem retire_draws : (retire s).draws = s.draws := rfl

@[simp] theorem resetBlock_eng : (resetBlock s).eng = .idle := rfl
@[simp] theorem resetBlock_curOp : (resetBlock s).curOp = 0 := rfl
@[simp] theorem resetBlock_curSchk : (resetBlock s).curSchk = 0 := rfl
@[simp] theorem resetBlock_curLen : (resetBlock s).curLen = 0 := rfl
@[simp] theorem resetBlock_hidden : (resetBlock s).hidden = .zero := rfl
@[simp] theorem resetBlock_ctrl : (resetBlock s).ctrl = ⟨false, 2⟩ := rfl
@[simp] theorem resetBlock_status : (resetBlock s).status = ⟨false, false, false, false, 0, 0⟩ := rfl
@[simp] theorem resetBlock_msgLen : (resetBlock s).msgLen = 0 := rfl
@[simp] theorem resetBlock_mem : (resetBlock s).mem = [] := rfl
@[simp] theorem resetBlock_port : (resetBlock s).port = none := rfl
@[simp] theorem resetBlock_response : (resetBlock s).response = none := rfl
@[simp] theorem resetBlock_agenda : (resetBlock s).agenda = s.agenda := rfl
@[simp] theorem resetBlock_draws : (resetBlock s).draws = s.draws := rfl

@[simp] theorem quiet_eng : (quiet s).eng = s.eng := rfl
@[simp] theorem quiet_curOp : (quiet s).curOp = s.curOp := rfl
@[simp] theorem quiet_curSchk : (quiet s).curSchk = s.curSchk := rfl
@[simp] theorem quiet_curLen : (quiet s).curLen = s.curLen := rfl
@[simp] theorem quiet_hidden : (quiet s).hidden = s.hidden := rfl
@[simp] theorem quiet_ctrl : (quiet s).ctrl = s.ctrl := rfl
@[simp] theorem quiet_status : (quiet s).status = s.status := rfl
@[simp] theorem quiet_msgLen : (quiet s).msgLen = s.msgLen := rfl
@[simp] theorem quiet_mem : (quiet s).mem = s.mem := rfl
@[simp] theorem quiet_port : (quiet s).port = none := rfl
@[simp] theorem quiet_response : (quiet s).response = none := rfl
@[simp] theorem quiet_agenda : (quiet s).agenda = s.agenda := rfl
@[simp] theorem quiet_draws : (quiet s).draws = s.draws := rfl

@[simp] theorem present_eng (a : Access) : (present a s).eng = s.eng := rfl
@[simp] theorem present_curOp (a : Access) : (present a s).curOp = s.curOp := rfl
@[simp] theorem present_curSchk (a : Access) : (present a s).curSchk = s.curSchk := rfl
@[simp] theorem present_curLen (a : Access) : (present a s).curLen = s.curLen := rfl
@[simp] theorem present_hidden (a : Access) : (present a s).hidden = s.hidden := rfl
@[simp] theorem present_ctrl (a : Access) : (present a s).ctrl = s.ctrl := rfl
@[simp] theorem present_status (a : Access) : (present a s).status = s.status := rfl
@[simp] theorem present_msgLen (a : Access) : (present a s).msgLen = s.msgLen := rfl
@[simp] theorem present_mem (a : Access) : (present a s).mem = s.mem := rfl
@[simp] theorem present_port (a : Access) : (present a s).port = some a := rfl
@[simp] theorem present_response (a : Access) : (present a s).response = some (answer s a) := rfl
@[simp] theorem present_agenda (a : Access) : (present a s).agenda = s.agenda := rfl
@[simp] theorem present_draws (a : Access) : (present a s).draws = s.draws := rfl

@[simp] theorem pushCommand_eng (w : Word) : (pushCommand w s).eng = s.eng := rfl
@[simp] theorem pushCommand_curOp (w : Word) : (pushCommand w s).curOp = s.curOp := rfl
@[simp] theorem pushCommand_curSchk (w : Word) : (pushCommand w s).curSchk = s.curSchk := rfl
@[simp] theorem pushCommand_curLen (w : Word) : (pushCommand w s).curLen = s.curLen := rfl
@[simp] theorem pushCommand_hidden (w : Word) : (pushCommand w s).hidden = s.hidden := rfl
@[simp] theorem pushCommand_ctrl (w : Word) : (pushCommand w s).ctrl = s.ctrl := rfl
@[simp] theorem pushCommand_status (w : Word) : (pushCommand w s).status = s.status := rfl
@[simp] theorem pushCommand_msgLen (w : Word) : (pushCommand w s).msgLen = s.msgLen := rfl
@[simp] theorem pushCommand_mem (w : Word) : (pushCommand w s).mem = s.mem := rfl
@[simp] theorem pushCommand_port (w : Word) : (pushCommand w s).port = s.port := rfl
@[simp] theorem pushCommand_response (w : Word) : (pushCommand w s).response = s.response := rfl
@[simp] theorem pushCommand_agenda (w : Word) : (pushCommand w s).agenda = .access (cmdWrite w) :: s.agenda := rfl
@[simp] theorem pushCommand_draws (w : Word) : (pushCommand w s).draws = s.draws := rfl

@[simp] theorem withAgenda_eng (rest : List Event) : (withAgenda rest s).eng = s.eng := rfl
@[simp] theorem withAgenda_curOp (rest : List Event) : (withAgenda rest s).curOp = s.curOp := rfl
@[simp] theorem withAgenda_curSchk (rest : List Event) : (withAgenda rest s).curSchk = s.curSchk := rfl
@[simp] theorem withAgenda_curLen (rest : List Event) : (withAgenda rest s).curLen = s.curLen := rfl
@[simp] theorem withAgenda_hidden (rest : List Event) : (withAgenda rest s).hidden = s.hidden := rfl
@[simp] theorem withAgenda_ctrl (rest : List Event) : (withAgenda rest s).ctrl = s.ctrl := rfl
@[simp] theorem withAgenda_status (rest : List Event) : (withAgenda rest s).status = s.status := rfl
@[simp] theorem withAgenda_msgLen (rest : List Event) : (withAgenda rest s).msgLen = s.msgLen := rfl
@[simp] theorem withAgenda_mem (rest : List Event) : (withAgenda rest s).mem = s.mem := rfl
@[simp] theorem withAgenda_port (rest : List Event) : (withAgenda rest s).port = s.port := rfl
@[simp] theorem withAgenda_response (rest : List Event) : (withAgenda rest s).response = s.response := rfl
@[simp] theorem withAgenda_agenda (rest : List Event) : (withAgenda rest s).agenda = rest := rfl
@[simp] theorem withAgenda_draws (rest : List Event) : (withAgenda rest s).draws = s.draws := rfl

@[simp] theorem signEffect_eng : (signEffect s).eng = s.eng := rfl
@[simp] theorem signEffect_curOp : (signEffect s).curOp = s.curOp := rfl
@[simp] theorem signEffect_curSchk : (signEffect s).curSchk = s.curSchk := rfl
@[simp] theorem signEffect_curLen : (signEffect s).curLen = s.curLen := rfl
@[simp] theorem signEffect_hidden : (signEffect s).hidden = s.hidden := rfl
@[simp] theorem signEffect_ctrl : (signEffect s).ctrl = s.ctrl := rfl
@[simp] theorem signEffect_status : (signEffect s).status = s.status := rfl
@[simp] theorem signEffect_msgLen : (signEffect s).msgLen = s.msgLen := rfl
@[simp] theorem signEffect_mem : (signEffect s).mem = zeroBytes (writeBytes s.mem sigBase (signResult s)) seedBase 64 := rfl
@[simp] theorem signEffect_port : (signEffect s).port = s.port := rfl
@[simp] theorem signEffect_response : (signEffect s).response = s.response := rfl
@[simp] theorem signEffect_agenda : (signEffect s).agenda = s.agenda := rfl
@[simp] theorem signEffect_draws : (signEffect s).draws = if clamped s.key then s.draws else s.draws + 1 := rfl

@[simp] theorem verifyEffect_eng : (verifyEffect s).eng = s.eng := rfl
@[simp] theorem verifyEffect_curOp : (verifyEffect s).curOp = s.curOp := rfl
@[simp] theorem verifyEffect_curSchk : (verifyEffect s).curSchk = s.curSchk := rfl
@[simp] theorem verifyEffect_curLen : (verifyEffect s).curLen = s.curLen := rfl
@[simp] theorem verifyEffect_hidden : (verifyEffect s).hidden = s.hidden := rfl
@[simp] theorem verifyEffect_ctrl : (verifyEffect s).ctrl = s.ctrl := rfl
@[simp] theorem verifyEffect_status : (verifyEffect s).status = { s.status with result := verifies s.curSchk s.pk s.message s.sig } := rfl
@[simp] theorem verifyEffect_msgLen : (verifyEffect s).msgLen = s.msgLen := rfl
@[simp] theorem verifyEffect_mem : (verifyEffect s).mem = s.mem := rfl
@[simp] theorem verifyEffect_port : (verifyEffect s).port = s.port := rfl
@[simp] theorem verifyEffect_response : (verifyEffect s).response = s.response := rfl
@[simp] theorem verifyEffect_agenda : (verifyEffect s).agenda = s.agenda := rfl
@[simp] theorem verifyEffect_draws : (verifyEffect s).draws = s.draws := rfl

@[simp] theorem clearEffect_eng : (clearEffect s).eng = s.eng := rfl
@[simp] theorem clearEffect_curOp : (clearEffect s).curOp = s.curOp := rfl
@[simp] theorem clearEffect_curSchk : (clearEffect s).curSchk = s.curSchk := rfl
@[simp] theorem clearEffect_curLen : (clearEffect s).curLen = s.curLen := rfl
@[simp] theorem clearEffect_hidden : (clearEffect s).hidden = s.hidden := rfl
@[simp] theorem clearEffect_ctrl : (clearEffect s).ctrl = s.ctrl := rfl
@[simp] theorem clearEffect_status : (clearEffect s).status = s.status := rfl
@[simp] theorem clearEffect_msgLen : (clearEffect s).msgLen = 0 := rfl
@[simp] theorem clearEffect_mem : (clearEffect s).mem = zeroBuffers s.mem := rfl
@[simp] theorem clearEffect_port : (clearEffect s).port = s.port := rfl
@[simp] theorem clearEffect_response : (clearEffect s).response = s.response := rfl
@[simp] theorem clearEffect_agenda : (clearEffect s).agenda = s.agenda := rfl
@[simp] theorem clearEffect_draws : (clearEffect s).draws = s.draws := rfl

@[simp] theorem mapEffect_eng : (mapEffect s).eng = s.eng := by
  unfold mapEffect; split <;> rfl
@[simp] theorem mapEffect_curOp : (mapEffect s).curOp = s.curOp := by
  unfold mapEffect; split <;> rfl
@[simp] theorem mapEffect_curSchk : (mapEffect s).curSchk = s.curSchk := by
  unfold mapEffect; split <;> rfl
@[simp] theorem mapEffect_curLen : (mapEffect s).curLen = s.curLen := by
  unfold mapEffect; split <;> rfl
@[simp] theorem mapEffect_hidden : (mapEffect s).hidden = s.hidden := by
  unfold mapEffect; split <;> rfl
@[simp] theorem mapEffect_ctrl : (mapEffect s).ctrl = s.ctrl := by
  unfold mapEffect; split <;> rfl
@[simp] theorem mapEffect_msgLen : (mapEffect s).msgLen = s.msgLen := by
  unfold mapEffect; split <;> rfl
@[simp] theorem mapEffect_port : (mapEffect s).port = s.port := by
  unfold mapEffect; split <;> rfl
@[simp] theorem mapEffect_response : (mapEffect s).response = s.response := by
  unfold mapEffect; split <;> rfl
@[simp] theorem mapEffect_agenda : (mapEffect s).agenda = s.agenda := by
  unfold mapEffect; split <;> rfl

variable (t : Status)

@[simp] theorem Status.raise_done (code : BitVec 4) : (t.raise code).done = t.done := rfl
@[simp] theorem Status.raise_result (code : BitVec 4) : (t.raise code).result = t.result := rfl
@[simp] theorem Status.raise_excl (code : BitVec 4) : (t.raise code).excl = t.excl := rfl
@[simp] theorem Status.raise_err (code : BitVec 4) : (t.raise code).err = true := rfl
@[simp] theorem Status.raise_errCode (code : BitVec 4) : (t.raise code).errCode = code := rfl
@[simp] theorem Status.raise_lastOp (code : BitVec 4) : (t.raise code).lastOp = t.lastOp := rfl
@[simp] theorem Status.accept_done (op : BitVec 8) : (t.accept op).done = false := rfl
@[simp] theorem Status.accept_result (op : BitVec 8) : (t.accept op).result = false := rfl
@[simp] theorem Status.accept_excl (op : BitVec 8) : (t.accept op).excl = false := rfl
@[simp] theorem Status.accept_err (op : BitVec 8) : (t.accept op).err = t.err := rfl
@[simp] theorem Status.accept_errCode (op : BitVec 8) : (t.accept op).errCode = t.errCode := rfl
@[simp] theorem Status.accept_lastOp (op : BitVec 8) : (t.accept op).lastOp = op := rfl
@[simp] theorem Status.clearBits_done (v : Word) : (t.clearBits v).done = (t.done && !v.getLsbD 1) := by
  unfold Status.clearBits; split <;> split <;> simp_all
@[simp] theorem Status.clearBits_result (v : Word) : (t.clearBits v).result = (t.result) := by
  unfold Status.clearBits; split <;> split <;> simp_all
@[simp] theorem Status.clearBits_excl (v : Word) : (t.clearBits v).excl = (t.excl) := by
  unfold Status.clearBits; split <;> split <;> simp_all
@[simp] theorem Status.clearBits_err (v : Word) : (t.clearBits v).err = (t.err && !v.getLsbD 4) := by
  unfold Status.clearBits; split <;> split <;> simp_all
@[simp] theorem Status.clearBits_errCode (v : Word) : (t.clearBits v).errCode = (if v.getLsbD 4 then 0 else t.errCode) := by
  unfold Status.clearBits; split <;> split <;> simp_all
@[simp] theorem Status.clearBits_lastOp (v : Word) : (t.clearBits v).lastOp = (t.lastOp) := by
  unfold Status.clearBits; split <;> split <;> simp_all

@[simp] theorem opcode_sign : Instr.sign.opcode = 1 := rfl
@[simp] theorem opcode_map : Instr.map.opcode = 2 := rfl
@[simp] theorem opcode_verify : Instr.verify.opcode = 3 := rfl
@[simp] theorem opcode_clear : Instr.clear.opcode = 4 := rfl

/-- An opcode names one command. -/
@[simp] theorem decodeOpcode_opcode (i : Instr) : decodeOpcode i.opcode = some i := by cases i <;> rfl

theorem opcode_ne_zero (i : Instr) : i.opcode ≠ 0 := by cases i <;> decide

theorem opcode_injective {i j : Instr} (h : i.opcode = j.opcode) : i = j := by
  simpa using congrArg decodeOpcode h

/-- A byte that decodes is its command's opcode. -/
theorem eq_opcode_of_decodeOpcode {c : BitVec 8} {i : Instr} (h : decodeOpcode c = some i) : c = i.opcode := by
  unfold decodeOpcode at h
  split at h
  · cases h; assumption
  split at h
  · cases h; assumption
  split at h
  · cases h; assumption
  split at h
  · cases h; assumption
  · cases h

end Sys2Proof.Machine
end

