-- ==== Sys2Proof/Laws/Flags.lean ====
section
/-! SUPPORT. The words of `CTRL` and `STATUS`, field by field (spec/10_state.md R23, R26). -/

namespace Sys2Proof.Machine

/-- The four bytes of a word laid out by R53. -/
theorem laneWord_bytes (b0 b1 b2 b3 : Byte) :
    (laneWord b0 b1 b2 b3).extractLsb' 0 8 = b0 ∧ (laneWord b0 b1 b2 b3).extractLsb' 8 8 = b1 ∧
      (laneWord b0 b1 b2 b3).extractLsb' 16 8 = b2 ∧ (laneWord b0 b1 b2 b3).extractLsb' 24 8 = b3 := by
  unfold laneWord
  refine ⟨?_, ?_, ?_, ?_⟩ <;>
  · apply BitVec.eq_of_getLsbD_eq; intro i hi
    simp only [BitVec.getLsbD_append, BitVec.getLsbD_extractLsb', hi, decide_true, Bool.true_and]
    repeat' split
    all_goals first | (exfalso; omega) | (congr 1; omega)

/-- The fields of the `CTRL` word (R23, R55). -/
theorem ctrlWord_fields (c : Ctrl) :
    c.word.getLsbD 0 = c.ie ∧ c.word.extractLsb' 1 2 = c.schk ∧ c.word.extractLsb' 3 29 = 0 := by
  unfold Ctrl.word
  refine ⟨?_, ?_, ?_⟩
  · simp only [BitVec.getLsbD_append]; simp
  all_goals
    apply BitVec.eq_of_getLsbD_eq; intro i hi
    simp only [BitVec.getLsbD_append, BitVec.getLsbD_extractLsb', hi, decide_true, Bool.true_and]
    repeat' split
    all_goals first | (exfalso; omega) | (congr 1; omega)

/-- The single bits of the `STATUS` word (R26, R55). -/
theorem statusWord_bits (s : State) :
    s.statusWord.getLsbD 0 = s.busy ∧ s.statusWord.getLsbD 1 = s.status.done ∧ s.statusWord.getLsbD 2 = s.status.result ∧
      s.statusWord.getLsbD 3 = s.status.excl ∧ s.statusWord.getLsbD 4 = s.status.err := by
  unfold State.statusWord
  refine ⟨?_, ?_, ?_, ?_, ?_⟩ <;> (simp only [BitVec.getLsbD_append]; simp)

/-- Bits 7:5 of the `STATUS` word (R26, R55). -/
theorem statusWord_reserved5 (s : State) : s.statusWord.extractLsb' 5 3 = 0 := by
  unfold State.statusWord
  apply BitVec.eq_of_getLsbD_eq; intro i hi
  simp only [BitVec.getLsbD_append, BitVec.getLsbD_extractLsb', hi, decide_true, Bool.true_and]
  iterate 5 rw [if_neg (by omega)]
  rw [if_pos (by omega)]
  congr 1; omega

/-- ERRCODE in the `STATUS` word (R26, R55). -/
theorem statusWord_errCode (s : State) : s.statusWord.extractLsb' 8 4 = s.status.errCode := by
  unfold State.statusWord
  apply BitVec.eq_of_getLsbD_eq; intro i hi
  simp only [BitVec.getLsbD_append, BitVec.getLsbD_extractLsb', hi, decide_true, Bool.true_and]
  iterate 6 rw [if_neg (by omega)]
  rw [if_pos (by omega)]
  congr 1; omega

/-- Bits 15:12 of the `STATUS` word (R26, R55). -/
theorem statusWord_reserved12 (s : State) : s.statusWord.extractLsb' 12 4 = 0 := by
  unfold State.statusWord
  apply BitVec.eq_of_getLsbD_eq; intro i hi
  simp only [BitVec.getLsbD_append, BitVec.getLsbD_extractLsb', hi, decide_true, Bool.true_and]
  iterate 7 rw [if_neg (by omega)]
  rw [if_pos (by omega)]
  congr 1; omega

/-- LASTOP in the `STATUS` word (R26, R55). -/
theorem statusWord_lastOp (s : State) : s.statusWord.extractLsb' 16 8 = s.status.lastOp := by
  unfold State.statusWord
  apply BitVec.eq_of_getLsbD_eq; intro i hi
  simp only [BitVec.getLsbD_append, BitVec.getLsbD_extractLsb', hi, decide_true, Bool.true_and]
  iterate 8 rw [if_neg (by omega)]
  rw [if_pos (by omega)]
  congr 1; omega

/-- Bits 31:24 of the `STATUS` word (R26, R55). -/
theorem statusWord_reserved24 (s : State) : s.statusWord.extractLsb' 24 8 = 0 := by
  unfold State.statusWord
  apply BitVec.eq_of_getLsbD_eq; intro i hi
  simp only [BitVec.getLsbD_append, BitVec.getLsbD_extractLsb', hi, decide_true, Bool.true_and]
  iterate 9 rw [if_neg (by omega)]
  congr 1; omega

end Sys2Proof.Machine
end

