-- ==== Sys2Proof/Laws/Memory.lean ====
section
/-! SUPPORT. The laws of the byte memory: what a read sees after a write, and that every operation keeps the canonical form. -/

namespace Sys2Proof.Machine

@[simp] theorem readByte_nil (a : Nat) : readByte [] a = 0 := rfl

theorem readByte_of_wfFrom_lt {m : Memory} {lo a : Nat} (h : Memory.wfFrom lo m = true) (ha : a < lo) :
    readByte m a = 0 := by
  induction m generalizing lo with
  | nil => rfl
  | cons c m ih =>
    obtain ⟨k, v⟩ := c
    simp only [Memory.wfFrom, Bool.and_eq_true, decide_eq_true_eq] at h
    have hk : k ≠ a := by omega
    simp only [readByte, hk, if_false]
    exact ih h.2 (by omega)

theorem wfFrom_mono {m : Memory} {lo lo' : Nat} (h : Memory.wfFrom lo m = true) (hl : lo' ≤ lo) :
    Memory.wfFrom lo' m = true := by
  cases m with
  | nil => rfl
  | cons c m =>
    obtain ⟨k, v⟩ := c
    simp only [Memory.wfFrom, Bool.and_eq_true, decide_eq_true_eq] at h ⊢
    exact ⟨⟨by omega, h.1.2⟩, h.2⟩

theorem wfFrom_writeByte {m : Memory} {lo a : Nat} (b : Byte) (h : Memory.wfFrom lo m = true) (ha : lo ≤ a) :
    Memory.wfFrom lo (writeByte m a b) = true := by
  induction m generalizing lo with
  | nil =>
    by_cases hb : b = unlistedByte <;> simp [writeByte, Memory.wfFrom, hb, ha]
  | cons c m ih =>
    obtain ⟨k, v⟩ := c
    simp only [Memory.wfFrom, Bool.and_eq_true, decide_eq_true_eq] at h
    simp only [writeByte]
    split_ifs with h1 h2 h3 h3
    · simp [Memory.wfFrom, h.1.1, h.1.2, ih h.2 (by omega)]
    · exact wfFrom_mono h.2 (by omega)
    · subst h2; simp [Memory.wfFrom, h3, ha, h.2]
    · simp [Memory.wfFrom, h.1.1, h.1.2, h.2]
    · have : a + 1 ≤ k := by omega
      simp [Memory.wfFrom, h3, ha, this, h.1.2, h.2]

/-- A write keeps the canonical form. -/
theorem wf_writeByte {m : Memory} (a : Nat) (b : Byte) (h : m.wf = true) : Memory.wf (writeByte m a b) = true :=
  wfFrom_writeByte b h (Nat.zero_le a)

theorem readByte_writeByte_from {m : Memory} {lo : Nat} (a : Nat) (b : Byte) (x : Nat)
    (h : Memory.wfFrom lo m = true) : readByte (writeByte m a b) x = if x = a then b else readByte m x := by
  induction m generalizing lo with
  | nil =>
    by_cases hb : b = unlistedByte
    · subst hb
      simp [writeByte, readByte, unlistedByte]
    · by_cases hx : x = a
      · simp [writeByte, readByte, hb, hx]
      · simp [writeByte, readByte, hb, hx, Ne.symm hx]
  | cons c m ih =>
    obtain ⟨k, v⟩ := c
    simp only [Memory.wfFrom, Bool.and_eq_true, decide_eq_true_eq] at h
    have zeroBelow : x ≤ k → readByte m x = 0 := fun hx => readByte_of_wfFrom_lt h.2 (by omega)
    rcases Nat.lt_trichotomy k a with h1 | h1 | h1
    · rw [writeByte, if_pos h1, readByte, readByte, ih h.2]
      by_cases hx : x = a
      · rw [if_neg (by omega), if_pos hx, if_pos hx]
      · rw [if_neg hx, if_neg hx]
    · subst h1
      rw [writeByte, if_neg (Nat.lt_irrefl k), if_pos rfl]
      by_cases hx : x = k
      · subst hx
        by_cases hb : b = unlistedByte
        · rw [if_pos hb, if_pos rfl, zeroBelow (Nat.le_refl x), hb, unlistedByte]
        · rw [if_neg hb, readByte, if_pos rfl, if_pos rfl]
      · rw [if_neg hx]
        by_cases hb : b = unlistedByte
        · rw [if_pos hb, readByte, if_neg (Ne.symm hx)]
        · rw [if_neg hb, readByte, readByte, if_neg (Ne.symm hx), if_neg (Ne.symm hx)]
    · rw [writeByte, if_neg (by omega), if_neg (by omega)]
      by_cases hx : x = a
      · subst hx
        by_cases hb : b = unlistedByte
        · rw [if_pos hb, if_pos rfl, readByte, if_neg (by omega), zeroBelow (by omega), hb, unlistedByte]
        · rw [if_neg hb, readByte, if_pos rfl]
      · rw [if_neg hx]
        by_cases hb : b = unlistedByte
        · rw [if_pos hb]
        · rw [if_neg hb, readByte, if_neg (Ne.symm hx)]

/-- A read after a write: the byte written at its offset, and every other byte as it was. -/
theorem readByte_writeByte {m : Memory} (a : Nat) (b : Byte) (x : Nat) (h : m.wf = true) :
    readByte (writeByte m a b) x = if x = a then b else readByte m x :=
  readByte_writeByte_from a b x h

theorem wfFrom_filter {m : Memory} {lo : Nat} (f : Host.Cell → Bool) (h : Memory.wfFrom lo m = true) :
    Memory.wfFrom lo (m.filter f) = true := by
  induction m generalizing lo with
  | nil => rfl
  | cons c m ih =>
    obtain ⟨k, v⟩ := c
    simp only [Memory.wfFrom, Bool.and_eq_true, decide_eq_true_eq] at h
    by_cases hf : f (k, v) = true
    · simp [List.filter, hf, Memory.wfFrom, h.1.1, h.1.2, ih h.2]
    · simp [List.filter, hf]
      exact wfFrom_mono (ih h.2) (by omega)

/-- Zeroing a run of bytes keeps the canonical form. -/
theorem wf_zeroBytes {m : Memory} (a n : Nat) (h : m.wf = true) : Memory.wf (zeroBytes m a n) = true :=
  wfFrom_filter _ h

/-- A read after zeroing: 0 inside the run, and every other byte as it was. -/
theorem readByte_zeroBytes (m : Memory) (a n x : Nat) :
    readByte (zeroBytes m a n) x = if a ≤ x ∧ x < a + n then 0 else readByte m x := by
  induction m with
  | nil => simp [zeroBytes]
  | cons c m ih =>
    obtain ⟨k, v⟩ := c
    have ih' : readByte (List.filter (fun c => decide (c.1 < a) || decide (a + n ≤ c.1)) m) x =
        if a ≤ x ∧ x < a + n then 0 else readByte m x := ih
    by_cases hk : k < a ∨ a + n ≤ k
    · have hf : (decide (k < a) || decide (a + n ≤ k)) = true := by simpa using hk
      simp only [zeroBytes, List.filter, hf, readByte, ih']
      by_cases hx : k = x
      · have : ¬ (a ≤ x ∧ x < a + n) := by omega
        simp [hx, this]
      · simp [hx]
    · have hf : (decide (k < a) || decide (a + n ≤ k)) = false := by
        simp only [Bool.or_eq_false_iff, decide_eq_false_iff_not]; omega
      simp only [zeroBytes, List.filter, hf, readByte, ih']
      by_cases hx : k = x
      · have : a ≤ x ∧ x < a + n := by omega
        simp [this]
      · simp [hx]

/-- A byte string stored keeps the canonical form. -/
theorem wf_writeBytes {m : Memory} (a : Nat) (bs : List Byte) (h : m.wf = true) :
    Memory.wf (writeBytes m a bs) = true := by
  induction bs generalizing m a with
  | nil => exact h
  | cons b bs ih => exact ih (a + 1) (wf_writeByte a b h)

/-- A read after a byte string is stored: its byte inside the string, and every other byte as it was. -/
theorem readByte_writeBytes {m : Memory} (a : Nat) (bs : List Byte) (x : Nat) (h : m.wf = true) :
    readByte (writeBytes m a bs) x =
      if a ≤ x ∧ x < a + bs.length then byteAt bs (x - a) else readByte m x := by
  induction bs generalizing m a with
  | nil =>
    have : ¬ (a ≤ x ∧ x < a + ([] : List Byte).length) := by simp only [List.length_nil]; omega
    rw [if_neg this, writeBytes]
  | cons b bs ih =>
    rw [writeBytes, ih (a + 1) (wf_writeByte a b h), readByte_writeByte a b x h]
    by_cases hx : x = a
    · subst hx
      simp [byteAt]
    · by_cases hin : a + 1 ≤ x ∧ x < a + 1 + bs.length
      · have h2 : a ≤ x ∧ x < a + (b :: bs).length := by simp only [List.length_cons]; omega
        obtain ⟨j, rfl⟩ : ∃ j, x = a + 1 + j := ⟨x - (a + 1), by omega⟩
        rw [if_pos hin, if_pos h2]
        have e1 : a + 1 + j - (a + 1) = j := by omega
        have e2 : a + 1 + j - a = j + 1 := by omega
        rw [e1, e2]
        simp [byteAt]
      · have h2 : ¬ (a ≤ x ∧ x < a + (b :: bs).length) := by simp only [List.length_cons]; omega
        rw [if_neg hin, if_neg h2, if_neg hx]

/-- Bytes stored outside an offset do not touch it, in any memory. -/
theorem readByte_writeByte_other (m : Memory) {a x : Nat} (b : Byte) (hx : x ≠ a) :
    readByte (writeByte m a b) x = readByte m x := by
  induction m with
  | nil =>
    rw [writeByte]
    by_cases hb : b = unlistedByte
    · rw [if_pos hb]
    · rw [if_neg hb]
      exact if_neg (Ne.symm hx)
  | cons c m ih =>
    obtain ⟨k, v⟩ := c
    simp only [writeByte]
    split_ifs with h1 h2 h3 h3 <;> simp only [readByte]
    · rw [ih]
    · subst h2; simp [Ne.symm hx]
    · subst h2; simp [Ne.symm hx]
    · simp [Ne.symm hx]

/-- A byte string stored leaves every byte outside it as it was, in any memory. -/
theorem readByte_writeBytes_other (m : Memory) {a x : Nat} (bs : List Byte) (hx : x < a ∨ a + bs.length ≤ x) :
    readByte (writeBytes m a bs) x = readByte m x := by
  induction bs generalizing m a with
  | nil => rfl
  | cons b bs ih =>
    simp only [List.length_cons] at hx
    rw [writeBytes, ih _ (by omega), readByte_writeByte_other m b (by omega)]

@[simp] theorem length_readBytes (m : Memory) (a n : Nat) : (readBytes m a n).length = n := by
  induction n generalizing a with
  | zero => rfl
  | succ n ih => simp [readBytes, ih]

/-- A byte of a string read from memory. -/
theorem byteAt_readBytes (m : Memory) (a n i : Nat) (hi : i < n) : byteAt (readBytes m a n) i = readByte m (a + i) := by
  induction n generalizing a i with
  | zero => omega
  | succ n ih =>
    cases i with
    | zero => simp [readBytes, byteAt]
    | succ i =>
      have := ih (a + 1) i (by omega)
      simp only [byteAt, readBytes, List.getD_cons_succ] at this ⊢
      rw [this, show a + 1 + i = a + (i + 1) by omega]

/-- A string read from memory depends on its own bytes only. -/
theorem readBytes_congr {m m' : Memory} {a n : Nat} (h : ∀ i < n, readByte m (a + i) = readByte m' (a + i)) :
    readBytes m a n = readBytes m' a n := by
  induction n generalizing a with
  | zero => rfl
  | succ n ih =>
    simp only [readBytes]
    rw [show readByte m a = readByte m' a from h 0 (by omega),
      ih fun i hi => by have := h (i + 1) (by omega); rwa [show a + (i + 1) = a + 1 + i by omega] at this]

/-- A string stored is read back. -/
theorem readBytes_writeBytes {m : Memory} (a : Nat) (bs : List Byte) (h : m.wf = true) :
    readBytes (writeBytes m a bs) a bs.length = bs := by
  apply List.ext_getElem (by simp)
  intro i h1 h2
  have hb : byteAt (readBytes (writeBytes m a bs) a bs.length) i = byteAt bs i := by
    rw [byteAt_readBytes _ _ _ _ h2, readByte_writeBytes _ _ _ h, if_pos (by omega)]
    simp
  rw [byteAt, byteAt, List.getD_eq_getElem _ _ h1, List.getD_eq_getElem _ _ h2] at hb
  exact hb

theorem eq_of_readByte_from {m m' : Memory} {lo : Nat} (h : Memory.wfFrom lo m = true)
    (h' : Memory.wfFrom lo m' = true) (he : ∀ a, readByte m a = readByte m' a) : m = m' := by
  induction m generalizing m' lo with
  | nil =>
    cases m' with
    | nil => rfl
    | cons c m' =>
      obtain ⟨k, v⟩ := c
      simp only [Memory.wfFrom, Bool.and_eq_true, decide_eq_true_eq] at h'
      exact absurd (by simpa [readByte] using (he k).symm) h'.1.2
  | cons c m ih =>
    obtain ⟨k, v⟩ := c
    simp only [Memory.wfFrom, Bool.and_eq_true, decide_eq_true_eq] at h
    cases m' with
    | nil => exact absurd (by simpa [readByte] using he k) h.1.2
    | cons c' m' =>
      obtain ⟨k', v'⟩ := c'
      simp only [Memory.wfFrom, Bool.and_eq_true, decide_eq_true_eq] at h'
      have hk : k = k' := by
        by_contra hne
        rcases Nat.lt_or_gt_of_ne hne with hlt | hlt
        · have := he k
          rw [readByte, if_pos rfl, readByte, if_neg (by omega),
            readByte_of_wfFrom_lt h'.2 (by omega)] at this
          exact h.1.2 this
        · have := he k'
          rw [readByte, if_neg (by omega), readByte_of_wfFrom_lt h.2 (by omega), readByte, if_pos rfl] at this
          exact h'.1.2 this.symm
      subst hk
      have hv : v = v' := by simpa [readByte] using he k
      subst hv
      rw [ih h.2 h'.2]
      intro a
      by_cases ha : k = a
      · subst ha
        rw [readByte_of_wfFrom_lt h.2 (by omega), readByte_of_wfFrom_lt h'.2 (by omega)]
      · simpa [readByte, ha] using he a

/-- Canonical memories that read alike are equal lists. -/
theorem Memory.ext_readByte {m m' : Memory} (h : m.wf = true) (h' : m'.wf = true)
    (he : ∀ a, readByte m a = readByte m' a) : m = m' :=
  eq_of_readByte_from h h' he

theorem inBuffers_writeByte {m : Memory} {a : Nat} (b : Byte) (h : m.inBuffers = true) (ha : isBufferByte a = true) :
    Memory.inBuffers (writeByte m a b) = true := by
  induction m with
  | nil => by_cases hb : b = unlistedByte <;> simp [writeByte, Memory.inBuffers, hb, ha]
  | cons c m ih =>
    obtain ⟨k, v⟩ := c
    simp only [Memory.inBuffers, List.all_cons, Bool.and_eq_true] at h ih ⊢
    simp only [writeByte]
    split_ifs with h1 h2 h3 h3
    · simpa [List.all_cons, h.1] using ih h.2
    · exact h.2
    · simp [List.all_cons, ha]; simpa using h.2
    · simp [List.all_cons, h.1]; simpa using h.2
    · simp [List.all_cons, ha, h.1]; simpa using h.2

/-- A string stored inside the buffers keeps the memory inside them. -/
theorem inBuffers_writeBytes {m : Memory} {a : Nat} (bs : List Byte) (h : m.inBuffers = true)
    (ha : ∀ x, a ≤ x → x < a + bs.length → isBufferByte x = true) : Memory.inBuffers (writeBytes m a bs) = true := by
  induction bs generalizing m a with
  | nil => exact h
  | cons b bs ih =>
    simp only [List.length_cons] at ha
    exact ih (inBuffers_writeByte b h (ha a (by omega) (by omega))) fun x h1 h2 => ha x (by omega) (by omega)

/-- Zeroing keeps the memory inside the buffers. -/
theorem inBuffers_zeroBytes {m : Memory} (a n : Nat) (h : m.inBuffers = true) :
    Memory.inBuffers (zeroBytes m a n) = true := by
  simp only [Memory.inBuffers, zeroBytes, List.all_eq_true, List.mem_filter] at h ⊢
  exact fun x hx => h x hx.1

end Sys2Proof.Machine
end

