-- ==== Sys2Proof/Laws/Bytes.lean ====
section
/-! SUPPORT. The laws of byte strings: lengths, the integers they stand for, and the lengths of what the commands store. -/

namespace Sys2Proof.Machine

@[simp] theorem length_leBytes (n v : Nat) : (leBytes n v).length = n := by
  induction n generalizing v with
  | zero => rfl
  | succ n ih => simp [leBytes, ih]

@[simp] theorem length_beBytes (n v : Nat) : (beBytes n v).length = n := by
  induction n generalizing v with
  | zero => rfl
  | succ n ih => simp [beBytes, ih]

@[simp] theorem length_zeros (n : Nat) : (zeros n).length = n := by simp [zeros]

@[simp] theorem length_orByte (b : List Byte) (i : Nat) (m : Byte) : (orByte b i m).length = b.length := by
  simp [orByte]

@[simp] theorem length_andByte (b : List Byte) (i : Nat) (m : Byte) : (andByte b i m).length = b.length := by
  simp [andByte]

@[simp] theorem length_drawBytes (d n : Nat) : (drawBytes d n).length = n := by unfold drawBytes; simp

@[simp] theorem length_wordBytes (w : Word) : (wordBytes w).length = 4 := rfl

@[simp] theorem length_feEncode (x : Nat) : (feEncode x).length = 32 := by simp [feEncode]

@[simp] theorem length_pointEncode (q : Point) : (pointEncode q).length = 32 := by simp [pointEncode]

@[simp] theorem length_signPublic (k : List Byte) : (signPublic k).length = 32 := by
  rw [signPublic, length_pointEncode]

@[simp] theorem length_signNoncePoint (r : Nat) : (signNoncePoint r).length = 32 := by
  rw [signNoncePoint, length_pointEncode]

@[simp] theorem length_embedSign (sig aenc : List Byte) : (embedSign sig aenc).length = sig.length := by
  simp [embedSign]

@[simp] theorem length_signature (k m seed : List Byte) : (signature k m seed).length = 64 := by
  simp only [signature, length_embedSign, List.length_append, length_signNoncePoint, length_leBytes]

@[simp] theorem length_signResult (s : State) : (signResult s).length = 64 := by
  unfold signResult; split
  · exact length_signature _ _ _
  · exact length_drawBytes _ _

theorem length_mapCore {pk : List Byte} {sb : Byte} {aed : List Byte} (h : mapCore pk sb = some aed) :
    aed.length = 32 := by
  unfold mapCore at h
  dsimp only at h
  split at h
  · cases h
  · cases h; simp

@[simp] theorem length_key (s : State) : s.key.length = 32 := by simp [State.key]

@[simp] theorem length_seed (s : State) : s.seed.length = 64 := by simp [State.seed]

@[simp] theorem length_pk (s : State) : s.pk.length = 32 := by simp [State.pk]

@[simp] theorem length_sig (s : State) : s.sig.length = 64 := by simp [State.sig]

@[simp] theorem length_aed (s : State) : s.aed.length = 32 := by simp [State.aed]

theorem leNat_append (a b : List Byte) : leNat (a ++ b) = leNat a + 256 ^ a.length * leNat b := by
  induction a with
  | nil => simp [leNat]
  | cons x a ih => simp only [List.cons_append, leNat, ih, List.length_cons, Nat.pow_succ]; ring

/-- A string of `n` bytes stands for an integer below `256^n`. -/
theorem leNat_lt (b : List Byte) : leNat b < 256 ^ b.length := by
  induction b with
  | nil => simp [leNat]
  | cons x b ih =>
    simp only [leNat, List.length_cons, Nat.pow_succ]
    have := x.isLt
    omega

/-- The integer of the little-endian bytes of `v`. -/
theorem leNat_leBytes (n v : Nat) : leNat (leBytes n v) = v % 256 ^ n := by
  induction n generalizing v with
  | zero => simp [leBytes, leNat, Nat.mod_one]
  | succ n ih =>
    simp only [leBytes, leNat, ih, BitVec.toNat_ofNat]
    rw [Nat.pow_succ' (n := n), Nat.mod_mul]

/-- The little-endian bytes of the integer of a string are the string. -/
theorem leBytes_leNat (b : List Byte) : leBytes b.length (leNat b) = b := by
  induction b with
  | nil => rfl
  | cons x b ih =>
    have hx := x.isLt
    have h1 : (x.toNat + 256 * leNat b) / 256 = leNat b := by omega
    have h2 : BitVec.ofNat 8 (x.toNat + 256 * leNat b) = x := by
      apply BitVec.eq_of_toNat_eq; simp only [BitVec.toNat_ofNat]; omega
    simp only [List.length_cons, leBytes, leNat, h1, h2, ih]

/-- Strings of one length with the same integer are equal. -/
theorem eq_of_leNat_eq {a b : List Byte} (hl : a.length = b.length) (h : leNat a = leNat b) : a = b := by
  rw [← leBytes_leNat a, ← leBytes_leNat b, hl, h]

@[simp] theorem byteAt_zeros (n i : Nat) : byteAt (zeros n) i = 0 := by
  simp only [byteAt, zeros, List.getD_eq_getElem?_getD, List.getElem?_replicate]
  split <;> rfl

theorem byteAt_set {b : List Byte} {i j : Nat} (v : Byte) (hi : i < b.length) :
    byteAt (b.set i v) j = if i = j then v else byteAt b j := by
  simp only [byteAt, List.getD_eq_getElem?_getD, List.getElem?_set]
  split
  · simp
  · rfl

theorem byteAt_orByte {b : List Byte} {i j : Nat} (m : Byte) (hi : i < b.length) :
    byteAt (orByte b i m) j = if i = j then byteAt b i ||| m else byteAt b j :=
  byteAt_set _ hi

theorem byteAt_andByte {b : List Byte} {i j : Nat} (m : Byte) (hi : i < b.length) :
    byteAt (andByte b i m) j = if i = j then byteAt b i &&& m else byteAt b j :=
  byteAt_set _ hi

/-- Strings of one length with the same bytes are equal. -/
theorem eq_of_byteAt_eq {a b : List Byte} (hl : a.length = b.length) (h : ∀ i < a.length, byteAt a i = byteAt b i) :
    a = b := by
  apply List.ext_getElem hl
  intro i h1 h2
  have := h i h1
  rwa [byteAt, byteAt, List.getD_eq_getElem _ _ h1, List.getD_eq_getElem _ _ h2] at this

/-- The integer of 32 bytes by its last byte. -/
theorem leNat_split31 {b : List Byte} (hb : b.length = 32) :
    leNat b = leNat (b.take 31) + 256 ^ 31 * (byteAt b 31).toNat := by
  conv_lhs => rw [← List.take_append_drop 31 b]
  rw [leNat_append]
  have h1 : (b.take 31).length = 31 := by simp [hb]
  have h2 : b.drop 31 = [byteAt b 31] := by
    apply List.ext_getElem (by simp [hb])
    intro i h1 h2
    have : i = 0 := by simp at h2; omega
    subst this
    have h31 : 31 < b.length := by omega
    simp [byteAt, h31]
  rw [h1, h2]
  simp [leNat]

/-- Changing byte 31 changes the integer by that byte alone. -/
theorem leNat_set31 {b : List Byte} (hb : b.length = 32) (v : Byte) :
    leNat (b.set 31 v) = leNat (b.take 31) + 256 ^ 31 * v.toNat := by
  rw [leNat_split31 (by simpa using hb), byteAt_set v (by omega), if_pos rfl]
  rw [List.take_set, List.set_eq_of_length_le (by simp)]

end Sys2Proof.Machine
end

