-- ==== Sys2Proof/Laws/Ops.lean ====
section
/-! SUPPORT. The laws of the operations the commands share: everything each of them can do, said once. -/

namespace Sys2Proof.Machine

/-- The effect of each command at its completion. -/
def effectOf : Instr → State → State
  | .sign => signEffect
  | .map => mapEffect
  | .verify => verifyEffect
  | .clear => clearEffect

/-- Every command's meaning is `runCommand` of its intermediates and its effect. -/
theorem exec_eq_runCommand (i : Instr) (s : State) : exec i s = runCommand i (intermediatesOf i) (effectOf i) s := by cases i <;> rfl

/-- With an access on the port a command's word is presented to `CMD`, and the block always goes on. -/
theorem exec_of_port {i : Instr} {s : State} {a : Access} (h : s.port = some a) : exec i s = .next (issueCommand i (intermediatesOf i) s) := by
  rw [exec_eq_runCommand, runCommand, h]

/-- With no access on the port a running command completes. -/
theorem exec_of_running {i : Instr} {s : State} (h : s.port = none) (hb : s.eng = .busy) (ho : s.curOp = i.opcode) :
    exec i s = .next (retire (effectOf i s)) := by
  rw [exec_eq_runCommand, runCommand, h]
  exact if_pos ⟨hb, ho⟩

/-- Everything a command can do when it goes on. -/
theorem exec_next_cases {i : Instr} {s t : State} (h : exec i s = .next t) :
    (s.port ≠ none ∧ t = issueCommand i (intermediatesOf i) s) ∨
      (s.port = none ∧ s.eng = .busy ∧ s.curOp = i.opcode ∧ t = retire (effectOf i s)) := by
  rw [exec_eq_runCommand, runCommand] at h
  split at h
  · next a ha => injection h with h; exact .inl ⟨by simp [ha], h.symm⟩
  · next ha =>
    unfold completeCommand at h
    split at h
    · next hc => injection h with h; exact .inr ⟨ha, hc.1, hc.2, h.symm⟩
    · cases h

/-- Everything a write of a command's word can do (R167). -/
theorem issueCommand_cases (i : Instr) (s : State) :
    (s.eng = .busy ∧ issueCommand i (intermediatesOf i) s = raiseCmdError errBusy s) ∨
      (s.eng = .idle ∧ checksLength i = true ∧ Config.msgCap < s.msgLen.toNat ∧
        issueCommand i (intermediatesOf i) s = raiseCmdError errMsgLen s) ∨
      (s.eng = .idle ∧ (checksLength i = true → s.msgLen.toNat ≤ Config.msgCap) ∧
        issueCommand i (intermediatesOf i) s = acceptCommand i (intermediatesOf i) s) := by
  unfold issueCommand
  by_cases hb : s.eng = .busy
  · exact .inl ⟨hb, if_pos hb⟩
  · have hi : s.eng = .idle := by cases h : s.eng <;> simp_all
    rw [if_neg hb]
    by_cases hl : checksLength i = true ∧ Config.msgCap < s.msgLen.toNat
    · exact .inr (.inl ⟨hi, hl.1, hl.2, if_pos (by simp [hl.1, hl.2])⟩)
    · exact .inr (.inr ⟨hi, fun h => by_contra fun hn => hl ⟨h, by omega⟩, if_neg (by simpa using hl)⟩)

/-- Everything a write of an illegal word to `CMD` can do (R167). -/
theorem issueIllegal_cases (s : State) :
    (s.eng = .busy ∧ issueIllegal s = raiseCmdError errBusy s) ∨
      (s.eng = .idle ∧ issueIllegal s = raiseCmdError errIllegal s) := by
  unfold issueIllegal
  by_cases hb : s.eng = .busy
  · exact .inl ⟨hb, if_pos hb⟩
  · exact .inr ⟨by cases h : s.eng <;> simp_all, if_neg hb⟩

/-- Everything MAP's effect can be. -/
theorem mapEffect_cases (s : State) :
    (∃ aed, mapCore s.pk (sigSignBit s.sig) = some aed ∧ mapEffect s = { s with mem := writeBytes s.mem aedBase aed }) ∨
      (mapCore s.pk (sigSignBit s.sig) = none ∧
        mapEffect s = { s with mem := writeBytes s.mem aedBase (drawBytes s.draws 32), status := { s.status with excl := true }, draws := s.draws + 1 }) := by
  unfold mapEffect
  split
  · next aed h => exact .inl ⟨aed, h, rfl⟩
  · next h => exact .inr ⟨h, rfl⟩

/-- MAP stores 32 bytes in AED, whichever they are. -/
theorem mapEffect_mem (s : State) : ∃ bs : List Byte, bs.length = 32 ∧ (mapEffect s).mem = writeBytes s.mem aedBase bs := by
  rcases mapEffect_cases s with ⟨aed, h, he⟩ | ⟨_, he⟩
  · exact ⟨aed, length_mapCore h, by rw [he]⟩
  · exact ⟨_, length_drawBytes _ _, by rw [he]⟩

/-- A command's effect leaves the engine, its latches, `CTRL` and the port as they were. -/
theorem effectOf_frame (i : Instr) (s : State) :
    (effectOf i s).eng = s.eng ∧ (effectOf i s).ctrl = s.ctrl ∧ (effectOf i s).port = s.port ∧
      (effectOf i s).response = s.response ∧ (effectOf i s).agenda = s.agenda := by
  cases i <;> simp [effectOf]

/-- A command's effect leaves DONE, ERR, ERRCODE and LASTOP as they were. -/
theorem effectOf_status (i : Instr) (s : State) :
    (effectOf i s).status.done = s.status.done ∧ (effectOf i s).status.err = s.status.err ∧
      (effectOf i s).status.errCode = s.status.errCode ∧ (effectOf i s).status.lastOp = s.status.lastOp := by
  cases i
  case map => rcases mapEffect_cases s with ⟨_, _, he⟩ | ⟨_, he⟩ <;> simp [effectOf, he]
  all_goals simp [effectOf]

/-- Only VERIFY's effect changes RESULT. -/
theorem effectOf_result {i : Instr} (hi : i ≠ .verify) (s : State) : (effectOf i s).status.result = s.status.result := by
  cases i
  case verify => exact absurd rfl hi
  case map => rcases mapEffect_cases s with ⟨_, _, he⟩ | ⟨_, he⟩ <;> simp [effectOf, he]
  all_goals simp [effectOf]

/-- Only MAP's effect changes EXCL. -/
theorem effectOf_excl {i : Instr} (hi : i ≠ .map) (s : State) : (effectOf i s).status.excl = s.status.excl := by
  cases i
  case map => exact absurd rfl hi
  all_goals simp [effectOf]

/-- Only CLEAR's effect changes MSG_LEN. -/
theorem effectOf_msgLen {i : Instr} (hi : i ≠ .clear) (s : State) : (effectOf i s).msgLen = s.msgLen := by
  cases i
  case clear => exact absurd rfl hi
  all_goals simp [effectOf]

/-- Every buffer byte's offset is that of a named buffer. -/
theorem isBufferByte_of_lt {a : Nat} (h1 : keyBase ≤ a) (h2 : a < 0x1E0) : isBufferByte a = true := by
  simp [isBufferByte, h1, h2]

theorem isBufferByte_msg {a : Nat} (h1 : msgBase ≤ a) (h2 : a < msgBase + Config.msgCap) : isBufferByte a = true := by
  simp [isBufferByte, h1, h2]

/-- A command's effect keeps the memory sound. -/
theorem effectOf_memorySound (i : Instr) {s : State} (h : MemorySound s) : MemorySound (effectOf i s) := by
  cases i
  case sign =>
    refine ⟨?_, ?_⟩
    · exact wf_zeroBytes _ _ (wf_writeBytes _ _ h.1)
    · refine inBuffers_zeroBytes _ _ (inBuffers_writeBytes _ h.2 fun x h1 h2 => ?_)
      rw [length_signResult] at h2
      exact isBufferByte_of_lt (by unfold keyBase; unfold sigBase at h1; omega) (by unfold sigBase at h2; omega)
  case map =>
    obtain ⟨bs, hl, hm⟩ := mapEffect_mem s
    refine ⟨?_, ?_⟩
    · exact hm ▸ wf_writeBytes _ _ h.1
    · refine hm ▸ inBuffers_writeBytes _ h.2 fun x h1 h2 => ?_
      rw [hl] at h2
      exact isBufferByte_of_lt (by unfold keyBase; unfold aedBase at h1; omega) (by unfold aedBase at h2; omega)
  case verify => exact h
  case clear => exact ⟨wf_zeroBytes _ _ (wf_zeroBytes _ _ h.1), inBuffers_zeroBytes _ _ (inBuffers_zeroBytes _ _ h.2)⟩

/-- A read after SIGN's effect: SIG holds the result, SEED is 0, every other byte is as it was. -/
theorem readByte_signEffect {s : State} (h : s.mem.wf = true) (x : Nat) :
    readByte (signEffect s).mem x =
      if seedBase ≤ x ∧ x < seedBase + 64 then 0
      else if sigBase ≤ x ∧ x < sigBase + 64 then byteAt (signResult s) (x - sigBase)
      else readByte s.mem x := by
  rw [signEffect_mem, readByte_zeroBytes, readByte_writeBytes _ _ _ h, length_signResult]

/-- Every byte outside SIG and SEED is as it was after SIGN's effect, in any memory. -/
theorem readByte_signEffect_other (s : State) {x : Nat} (h1 : ¬ (seedBase ≤ x ∧ x < seedBase + 64))
    (h2 : ¬ (sigBase ≤ x ∧ x < sigBase + 64)) : readByte (signEffect s).mem x = readByte s.mem x := by
  rw [signEffect_mem, readByte_zeroBytes, if_neg h1, readByte_writeBytes_other _ _ (by rw [length_signResult]; omega)]

/-- Every byte outside AED is as it was after MAP's effect, in any memory. -/
theorem readByte_mapEffect_other (s : State) {x : Nat} (h : ¬ (aedBase ≤ x ∧ x < aedBase + 32)) :
    readByte (mapEffect s).mem x = readByte s.mem x := by
  obtain ⟨bs, hl, hm⟩ := mapEffect_mem s
  rw [hm, readByte_writeBytes_other _ _ (by omega)]

/-- A read after CLEAR's effect. -/
theorem readByte_clearEffect (s : State) (x : Nat) :
    readByte (clearEffect s).mem x = if isBufferByte x = true then 0 else readByte s.mem x := by
  rw [clearEffect_mem, zeroBuffers, readByte_zeroBytes, readByte_zeroBytes]
  unfold isBufferByte keyBase
  by_cases h1 : msgBase ≤ x ∧ x < msgBase + Config.msgCap
  · simp [h1]
  · by_cases h2 : 0x100 ≤ x ∧ x < 0x100 + 0xE0
    · simp [h2]
    · rw [if_neg h1, if_neg h2, if_neg]
      simp only [Bool.or_eq_true, Bool.and_eq_true, decide_eq_true_eq]
      omega

end Sys2Proof.Machine
end

