-- ==== Sys2Proof/Laws/Bus.lean ====
section
/-! SUPPORT. The laws of the bus port: the address map, what an access can do, and that it keeps the memory sound. -/

namespace Sys2Proof.Machine

/-- `MSG_CAP` is a legal capacity (R7). -/
theorem msgCap_legal : Config.msgCap % 4 = 0 ∧ 4 ≤ Config.msgCap ∧ Config.msgCap ≤ 61440 := by
  have := Config.msgCapSelect.isLt
  unfold Config.msgCap
  omega

@[simp] theorem region_cmd : region 8 = .cmd := rfl

theorem commandWord_cmdWrite (w : Word) : (cmdWrite w).commandWord = some w := rfl

theorem isBusError_cmdWrite (w : Word) : (cmdWrite w).isBusError = false := rfl

/-- The address map, row by row (R51). -/
theorem region_cases (o : Nat) :
    (0x000 ≤ o ∧ o < 0x004 ∧ region o = .ctrl) ∨
      (0x004 ≤ o ∧ o < 0x008 ∧ region o = .status) ∨
      (0x008 ≤ o ∧ o < 0x00C ∧ region o = .cmd) ∨
      (0x00C ≤ o ∧ o < 0x010 ∧ region o = .msgLen) ∨
      (0x010 ≤ o ∧ o < 0x014 ∧ region o = .msgCap) ∨
      (0x014 ≤ o ∧ o < 0x100 ∧ region o = .unmapped) ∨
      (0x100 ≤ o ∧ o < 0x120 ∧ region o = .key) ∨
      (0x120 ≤ o ∧ o < 0x160 ∧ region o = .seed) ∨
      (0x160 ≤ o ∧ o < 0x180 ∧ region o = .pk) ∨
      (0x180 ≤ o ∧ o < 0x1C0 ∧ region o = .sig) ∨
      (0x1C0 ≤ o ∧ o < 0x1E0 ∧ region o = .aed) ∨
      (0x1E0 ≤ o ∧ o < 0x1000 ∧ region o = .unmapped) ∨
      (0x1000 ≤ o ∧ o < 0x1000 + Config.msgCap ∧ region o = .msg) ∨
      (0x1000 + Config.msgCap ≤ o ∧ region o = .unmapped) := by
  generalize hr : region o = r
  unfold region at hr
  by_cases h0 : o < 0x004
  · rw [if_pos h0] at hr; subst hr; simp; omega
  rw [if_neg h0] at hr
  by_cases h1 : o < 0x008
  · rw [if_pos h1] at hr; subst hr; simp; omega
  rw [if_neg h1] at hr
  by_cases h2 : o < 0x00C
  · rw [if_pos h2] at hr; subst hr; simp; omega
  rw [if_neg h2] at hr
  by_cases h3 : o < 0x010
  · rw [if_pos h3] at hr; subst hr; simp; omega
  rw [if_neg h3] at hr
  by_cases h4 : o < 0x014
  · rw [if_pos h4] at hr; subst hr; simp; omega
  rw [if_neg h4] at hr
  by_cases h5 : o < 0x100
  · rw [if_pos h5] at hr; subst hr; simp; omega
  rw [if_neg h5] at hr
  by_cases h6 : o < 0x120
  · rw [if_pos h6] at hr; subst hr; simp; omega
  rw [if_neg h6] at hr
  by_cases h7 : o < 0x160
  · rw [if_pos h7] at hr; subst hr; simp; omega
  rw [if_neg h7] at hr
  by_cases h8 : o < 0x180
  · rw [if_pos h8] at hr; subst hr; simp; omega
  rw [if_neg h8] at hr
  by_cases h9 : o < 0x1C0
  · rw [if_pos h9] at hr; subst hr; simp; omega
  rw [if_neg h9] at hr
  by_cases h10 : o < 0x1E0
  · rw [if_pos h10] at hr; subst hr; simp; omega
  rw [if_neg h10] at hr
  by_cases h11 : o < 0x1000
  · rw [if_pos h11] at hr; subst hr; simp; omega
  rw [if_neg h11] at hr
  by_cases hm : o < msgBase + Config.msgCap
  · rw [if_pos hm] at hr; subst hr; unfold msgBase at hm; simp; omega
  rw [if_neg hm] at hr; subst hr; unfold msgBase at hm; simp; omega

/-- A buffer's region is a run of offsets. -/
theorem region_cmd_iff (o : Nat) : region o = .cmd ↔ 0x008 ≤ o ∧ o < 0x00C := by
  rcases region_cases o with
    ⟨h1, h2, e⟩ | ⟨h1, h2, e⟩ | ⟨h1, h2, e⟩ | ⟨h1, h2, e⟩ | ⟨h1, h2, e⟩ | ⟨h1, h2, e⟩ | ⟨h1, h2, e⟩ | ⟨h1, h2, e⟩ | ⟨h1, h2, e⟩ | ⟨h1, h2, e⟩ | ⟨h1, h2, e⟩ | ⟨h1, h2, e⟩ | ⟨h1, h2, e⟩ | ⟨h1, e⟩ <;>
  simp only [e, reduceCtorEq, false_iff, true_iff] <;> omega

theorem region_key_iff (o : Nat) : region o = .key ↔ 0x100 ≤ o ∧ o < 0x120 := by
  rcases region_cases o with
    ⟨h1, h2, e⟩ | ⟨h1, h2, e⟩ | ⟨h1, h2, e⟩ | ⟨h1, h2, e⟩ | ⟨h1, h2, e⟩ | ⟨h1, h2, e⟩ | ⟨h1, h2, e⟩ | ⟨h1, h2, e⟩ | ⟨h1, h2, e⟩ | ⟨h1, h2, e⟩ | ⟨h1, h2, e⟩ | ⟨h1, h2, e⟩ | ⟨h1, h2, e⟩ | ⟨h1, e⟩ <;>
  simp only [e, reduceCtorEq, false_iff, true_iff] <;> omega

theorem region_seed_iff (o : Nat) : region o = .seed ↔ 0x120 ≤ o ∧ o < 0x160 := by
  rcases region_cases o with
    ⟨h1, h2, e⟩ | ⟨h1, h2, e⟩ | ⟨h1, h2, e⟩ | ⟨h1, h2, e⟩ | ⟨h1, h2, e⟩ | ⟨h1, h2, e⟩ | ⟨h1, h2, e⟩ | ⟨h1, h2, e⟩ | ⟨h1, h2, e⟩ | ⟨h1, h2, e⟩ | ⟨h1, h2, e⟩ | ⟨h1, h2, e⟩ | ⟨h1, h2, e⟩ | ⟨h1, e⟩ <;>
  simp only [e, reduceCtorEq, false_iff, true_iff] <;> omega

theorem region_pk_iff (o : Nat) : region o = .pk ↔ 0x160 ≤ o ∧ o < 0x180 := by
  rcases region_cases o with
    ⟨h1, h2, e⟩ | ⟨h1, h2, e⟩ | ⟨h1, h2, e⟩ | ⟨h1, h2, e⟩ | ⟨h1, h2, e⟩ | ⟨h1, h2, e⟩ | ⟨h1, h2, e⟩ | ⟨h1, h2, e⟩ | ⟨h1, h2, e⟩ | ⟨h1, h2, e⟩ | ⟨h1, h2, e⟩ | ⟨h1, h2, e⟩ | ⟨h1, h2, e⟩ | ⟨h1, e⟩ <;>
  simp only [e, reduceCtorEq, false_iff, true_iff] <;> omega

theorem region_sig_iff (o : Nat) : region o = .sig ↔ 0x180 ≤ o ∧ o < 0x1C0 := by
  rcases region_cases o with
    ⟨h1, h2, e⟩ | ⟨h1, h2, e⟩ | ⟨h1, h2, e⟩ | ⟨h1, h2, e⟩ | ⟨h1, h2, e⟩ | ⟨h1, h2, e⟩ | ⟨h1, h2, e⟩ | ⟨h1, h2, e⟩ | ⟨h1, h2, e⟩ | ⟨h1, h2, e⟩ | ⟨h1, h2, e⟩ | ⟨h1, h2, e⟩ | ⟨h1, h2, e⟩ | ⟨h1, e⟩ <;>
  simp only [e, reduceCtorEq, false_iff, true_iff] <;> omega

theorem region_aed_iff (o : Nat) : region o = .aed ↔ 0x1C0 ≤ o ∧ o < 0x1E0 := by
  rcases region_cases o with
    ⟨h1, h2, e⟩ | ⟨h1, h2, e⟩ | ⟨h1, h2, e⟩ | ⟨h1, h2, e⟩ | ⟨h1, h2, e⟩ | ⟨h1, h2, e⟩ | ⟨h1, h2, e⟩ | ⟨h1, h2, e⟩ | ⟨h1, h2, e⟩ | ⟨h1, h2, e⟩ | ⟨h1, h2, e⟩ | ⟨h1, h2, e⟩ | ⟨h1, h2, e⟩ | ⟨h1, e⟩ <;>
  simp only [e, reduceCtorEq, false_iff, true_iff] <;> omega

theorem region_msg_iff (o : Nat) : region o = .msg ↔ 0x1000 ≤ o ∧ o < 0x1000 + Config.msgCap := by
  rcases region_cases o with
    ⟨h1, h2, e⟩ | ⟨h1, h2, e⟩ | ⟨h1, h2, e⟩ | ⟨h1, h2, e⟩ | ⟨h1, h2, e⟩ | ⟨h1, h2, e⟩ | ⟨h1, h2, e⟩ | ⟨h1, h2, e⟩ | ⟨h1, h2, e⟩ | ⟨h1, h2, e⟩ | ⟨h1, h2, e⟩ | ⟨h1, h2, e⟩ | ⟨h1, h2, e⟩ | ⟨h1, e⟩ <;>
  simp only [e, reduceCtorEq, false_iff, true_iff] <;> omega

theorem region_msgCap_iff (o : Nat) : region o = .msgCap ↔ 0x010 ≤ o ∧ o < 0x014 := by
  rcases region_cases o with
    ⟨h1, h2, e⟩ | ⟨h1, h2, e⟩ | ⟨h1, h2, e⟩ | ⟨h1, h2, e⟩ | ⟨h1, h2, e⟩ | ⟨h1, h2, e⟩ | ⟨h1, h2, e⟩ | ⟨h1, h2, e⟩ | ⟨h1, h2, e⟩ | ⟨h1, h2, e⟩ | ⟨h1, h2, e⟩ | ⟨h1, h2, e⟩ | ⟨h1, h2, e⟩ | ⟨h1, e⟩ <;>
  simp only [e, reduceCtorEq, false_iff, true_iff] <;> omega

theorem region_ctrl_iff (o : Nat) : region o = .ctrl ↔ 0x000 ≤ o ∧ o < 0x004 := by
  rcases region_cases o with
    ⟨h1, h2, e⟩ | ⟨h1, h2, e⟩ | ⟨h1, h2, e⟩ | ⟨h1, h2, e⟩ | ⟨h1, h2, e⟩ | ⟨h1, h2, e⟩ | ⟨h1, h2, e⟩ | ⟨h1, h2, e⟩ | ⟨h1, h2, e⟩ | ⟨h1, h2, e⟩ | ⟨h1, h2, e⟩ | ⟨h1, h2, e⟩ | ⟨h1, h2, e⟩ | ⟨h1, e⟩ <;>
  simp only [e, reduceCtorEq, false_iff, true_iff] <;> omega

theorem region_status_iff (o : Nat) : region o = .status ↔ 0x004 ≤ o ∧ o < 0x008 := by
  rcases region_cases o with
    ⟨h1, h2, e⟩ | ⟨h1, h2, e⟩ | ⟨h1, h2, e⟩ | ⟨h1, h2, e⟩ | ⟨h1, h2, e⟩ | ⟨h1, h2, e⟩ | ⟨h1, h2, e⟩ | ⟨h1, h2, e⟩ | ⟨h1, h2, e⟩ | ⟨h1, h2, e⟩ | ⟨h1, h2, e⟩ | ⟨h1, h2, e⟩ | ⟨h1, h2, e⟩ | ⟨h1, e⟩ <;>
  simp only [e, reduceCtorEq, false_iff, true_iff] <;> omega

theorem region_msgLen_iff (o : Nat) : region o = .msgLen ↔ 0x00C ≤ o ∧ o < 0x010 := by
  rcases region_cases o with
    ⟨h1, h2, e⟩ | ⟨h1, h2, e⟩ | ⟨h1, h2, e⟩ | ⟨h1, h2, e⟩ | ⟨h1, h2, e⟩ | ⟨h1, h2, e⟩ | ⟨h1, h2, e⟩ | ⟨h1, h2, e⟩ | ⟨h1, h2, e⟩ | ⟨h1, h2, e⟩ | ⟨h1, h2, e⟩ | ⟨h1, h2, e⟩ | ⟨h1, h2, e⟩ | ⟨h1, e⟩ <;>
  simp only [e, reduceCtorEq, false_iff, true_iff] <;> omega

/-- The offsets of the map's rows are those with a region (R51). -/
theorem mapped_iff (o : Nat) : Mapped o ↔ region o ≠ .unmapped := by
  rcases region_cases o with
    ⟨h1, h2, e⟩ | ⟨h1, h2, e⟩ | ⟨h1, h2, e⟩ | ⟨h1, h2, e⟩ | ⟨h1, h2, e⟩ | ⟨h1, h2, e⟩ | ⟨h1, h2, e⟩ | ⟨h1, h2, e⟩ | ⟨h1, h2, e⟩ | ⟨h1, h2, e⟩ | ⟨h1, h2, e⟩ | ⟨h1, h2, e⟩ | ⟨h1, h2, e⟩ | ⟨h1, e⟩ <;>
  simp only [e, Mapped, ne_eq, reduceCtorEq, not_true_eq_false, not_false_eq_true, iff_true, iff_false] <;> omega

/-- The buffers the host may write, as regions (R31). -/
theorem hostBuffer_iff (o : Nat) :
    HostBuffer o ↔ region o = .key ∨ region o = .seed ∨ region o = .pk ∨ region o = .sig ∨ region o = .msg := by
  rw [region_key_iff, region_seed_iff, region_pk_iff, region_sig_iff, region_msg_iff, HostBuffer]; omega

/-- The block answers an access with a bus error exactly when the access breaks the rules of R54. -/
theorem isBusError_iff (a : Access) : a.isBusError = true ↔ BreaksBusRules a := by
  cases a with
  | read off w =>
    rw [BreaksBusRules, mapped_iff, Access.isBusError, Access.wellSized, Region.readable]
    by_cases a1 : w = .w32 <;> by_cases a3 : off.toNat % 4 = 0 <;> simp [a1, a3]
  | write off w st v =>
    have h2 := region_aed_iff off.toNat
    have h3 := region_msgCap_iff off.toNat
    rw [BreaksBusRules, ← h2, ← h3, mapped_iff, Access.isBusError, Access.wellSized, Region.writable]
    by_cases a1 : w = .w32
    · by_cases a2 : st = 0xF
      · by_cases a3 : off.toNat % 4 = 0
        · cases region off.toNat <;> simp [a1, a2, a3]
        · simp [a3]
      · have a2' : ¬ st = 15#4 := a2
        simp [a2']
    · simp [a1]

/-- An access that presents a command word is the write of that word to `CMD` (R28, R72). -/
theorem commandWord_eq_some {a : Access} {w : Word} (h : a.commandWord = some w) : a = cmdWrite w := by
  cases a with
  | read off wd => cases h
  | write off wd st v =>
    simp only [Access.commandWord] at h
    split at h
    · next hc =>
      injection h with h
      subst h
      simp only [Access.wellSized, Bool.and_eq_true, beq_iff_eq] at hc
      obtain ⟨⟨⟨h1, h2⟩, h3⟩, h4⟩ := hc
      have h5 : off.toNat = 8 := by
        have := (region_cmd_iff _).1 h4
        omega
      have h6 : off = 0x008 := BitVec.eq_of_toNat_eq h5
      rw [h1, h2, h6, cmdWrite]
    · cases h

/-- The byte lanes of a word lie in the region of its offset, when the offset is a multiple of 4 (R53). -/
theorem isBufferByte_lane {o x : Nat} (h4 : o % 4 = 0) (h1 : o ≤ x) (h2 : x < o + 4)
    (hr : region o = .key ∨ region o = .seed ∨ region o = .pk ∨ region o = .sig ∨ region o = .msg) :
    isBufferByte x = true := by
  have hm := msgCap_legal
  rw [region_key_iff, region_seed_iff, region_pk_iff, region_sig_iff, region_msg_iff] at hr
  by_cases hx : x < 0x1E0
  · exact isBufferByte_of_lt (by unfold keyBase; omega) hx
  · exact isBufferByte_msg (by unfold msgBase; omega) (by unfold msgBase; omega)

/-- Everything a write to a region other than `CMD` can do to the state (R56, R168). -/
theorem writeValue_cases (off : Nat) (v : Word) (s : State) :
    (region off = .status ∧ writeValue off v s = { s with status := s.status.clearBits v }) ∨
      (region off ≠ .status ∧ s.eng = .busy ∧ writeValue off v s = raiseCmdError errBusy s) ∨
      (region off ≠ .status ∧ s.eng = .idle ∧ writeValue off v s = storeValue off v s) := by
  unfold writeValue
  by_cases h1 : region off = .status
  · exact .inl ⟨h1, if_pos h1⟩
  · rw [if_neg h1]
    by_cases h2 : s.eng = .busy
    · exact .inr (.inl ⟨h1, h2, if_pos h2⟩)
    · exact .inr (.inr ⟨h1, by cases h : s.eng <;> simp_all, if_neg h2⟩)

/-- Everything a write in `IDLE` can store (R56): a register, or a word of a buffer the host may write. -/
theorem storeValue_cases (off : Nat) (v : Word) (s : State) :
    (region off = .ctrl ∧ storeValue off v s = { s with ctrl := Ctrl.ofWord v }) ∨
      (region off = .msgLen ∧ storeValue off v s = { s with msgLen := v }) ∨
      ((region off = .key ∨ region off = .seed ∨ region off = .pk ∨ region off = .sig ∨ region off = .msg) ∧
        storeValue off v s = { s with mem := writeWord s.mem off v }) ∨
      storeValue off v s = s := by
  unfold storeValue
  cases h : region off <;> simp

/-- Everything an access that is no command can do to the state. -/
theorem accessEffect_cases (s : State) (a : Access) :
    accessEffect s a = s ∨
      (∃ off st v, a = .write off .w32 st v ∧ a.isBusError = false ∧ off.toNat % 4 = 0 ∧
        accessEffect s a = writeValue off.toNat v s) := by
  cases a with
  | read off w => exact .inl rfl
  | write off w st v =>
    by_cases h : (Access.write off w st v).isBusError = true
    · exact .inl (by simp only [accessEffect, h, if_true])
    · have h0 : (Access.write off w st v).isBusError = false := by simpa using h
      have hw : (Access.write off w st v).wellSized = true := by
        simp only [Access.isBusError, Bool.or_eq_false_iff] at h0
        simpa using h0.1
      simp only [Access.wellSized, Bool.and_eq_true, beq_iff_eq] at hw
      obtain ⟨⟨h1, _⟩, h3⟩ := hw
      subst h1
      exact .inr ⟨off, st, v, rfl, h0, h3, by simp only [accessEffect, h0]; rfl⟩

/-- Everything an access can do to the state, and which access it was (R54 to R56, R168). -/
theorem accessEffect_effects (s : State) (a : Access) :
    accessEffect s a = s ∨
      (∃ v, a = wordWrite 0x004 v ∧ accessEffect s a = { s with status := s.status.clearBits v }) ∨
      (∃ off v, a = wordWrite off v ∧ s.eng = .busy ∧ accessEffect s a = raiseCmdError errBusy s) ∨
      (∃ v, a = wordWrite 0x000 v ∧ s.eng = .idle ∧ accessEffect s a = { s with ctrl := Ctrl.ofWord v }) ∨
      (∃ v, a = wordWrite 0x00C v ∧ s.eng = .idle ∧ accessEffect s a = { s with msgLen := v }) ∨
      (∃ off v, a = wordWrite off v ∧ s.eng = .idle ∧ off.toNat % 4 = 0 ∧ HostBuffer off.toNat ∧
        accessEffect s a = { s with mem := writeWord s.mem off.toNat v }) := by
  rcases accessEffect_cases s a with h | ⟨off, st, v, rfl, hb, h4, he⟩
  · exact .inl h
  have hst : st = 0xF := by
    by_contra hne
    have : (Access.write off .w32 st v).isBusError = true := (isBusError_iff _).2 (.inr (.inl hne))
    rw [hb] at this; cases this
  subst hst
  have hoff : ∀ n : Nat, n < 2 ^ 16 → n % 4 = 0 → n ≤ off.toNat → off.toNat < n + 4 → off = BitVec.ofNat 16 n := fun n h1 h2 h3 h5 =>
    BitVec.eq_of_toNat_eq (by rw [BitVec.toNat_ofNat, Nat.mod_eq_of_lt h1]; omega)
  rw [he]
  rcases writeValue_cases off.toNat v s with ⟨hr, h⟩ | ⟨_, hbusy, h⟩ | ⟨_, hidle, h⟩
  · have := (region_status_iff _).1 hr
    exact .inr (.inl ⟨v, by rw [hoff 4 (by norm_num) rfl this.1 this.2]; rfl, h⟩)
  · exact .inr (.inr (.inl ⟨off, v, rfl, hbusy, h⟩))
  · rw [h]
    rcases storeValue_cases off.toNat v s with ⟨hr, h⟩ | ⟨hr, h⟩ | ⟨hr, h⟩ | h
    · have := (region_ctrl_iff _).1 hr
      exact .inr (.inr (.inr (.inl ⟨v, by rw [hoff 0 (by norm_num) rfl this.1 this.2]; rfl, hidle, h⟩)))
    · have := (region_msgLen_iff _).1 hr
      exact .inr (.inr (.inr (.inr (.inl ⟨v, by rw [hoff 0xC (by norm_num) rfl this.1 this.2]; rfl, hidle, h⟩))))
    · exact .inr (.inr (.inr (.inr (.inr ⟨off, v, rfl, hidle, h4, (hostBuffer_iff _).2 hr, h⟩))))
    · exact .inl h

theorem ofWord_schk_ne_three (v : Word) : (Ctrl.ofWord v).schk ≠ 3 := by
  unfold Ctrl.ofWord
  dsimp only
  split
  · decide
  · assumption

/-- A word stored in a buffer by the host keeps the memory sound. -/
theorem writeWord_memorySound {s : State} {off : Nat} (v : Word) (h : MemorySound s) (h4 : off % 4 = 0)
    (hr : region off = .key ∨ region off = .seed ∨ region off = .pk ∨ region off = .sig ∨ region off = .msg) :
    MemorySound { s with mem := writeWord s.mem off v } :=
  ⟨wf_writeBytes _ _ h.1, inBuffers_writeBytes _ h.2 fun _ h1 h2 => isBufferByte_lane h4 h1 (by simpa using h2) hr⟩

/-- A byte of a word read from the buffers (R53). -/
theorem byte_of_readWord (m : Memory) (o j : Nat) (hj : j < 4) :
    (readWord m o).extractLsb' (8 * j) 8 = readByte m (o + j) := by
  obtain ⟨h0, h1, h2, h3⟩ :=
    laneWord_bytes (readByte m o) (readByte m (o + 1)) (readByte m (o + 2)) (readByte m (o + 3))
  match j with
  | 0 => exact h0
  | 1 => exact h1
  | 2 => exact h2
  | 3 => exact h3

/-- A byte of the lanes of a word (R53). -/
theorem byteAt_wordBytes (v : Word) {j : Nat} (hj : j < 4) : byteAt (wordBytes v) j = v.extractLsb' (8 * j) 8 := by
  match j with
  | 0 | 1 | 2 | 3 => rfl

/-- A read after a word is stored: its lanes, and every other byte as it was (R53). -/
theorem readByte_writeWord {m : Memory} (off x : Nat) (v : Word) (h : m.wf = true) :
    readByte (writeWord m off v) x =
      if off ≤ x ∧ x < off + 4 then v.extractLsb' (8 * (x - off)) 8 else readByte m x := by
  rw [writeWord, readByte_writeBytes _ _ _ h, length_wordBytes]
  split
  · rw [byteAt_wordBytes _ (by omega)]
  · rfl

/-- A read of one word after a word is stored at the same offset gives it back (R53). -/
theorem readWord_writeWord {m : Memory} (off : Nat) (v : Word) (h : m.wf = true) :
    readWord (writeWord m off v) off = v := by
  have hb : ∀ j, j < 4 → readByte (writeWord m off v) (off + j) = byteAt (wordBytes v) j := fun j hj => by
    rw [writeWord, readByte_writeBytes _ _ _ h, if_pos (by simp; omega)]
    congr 1; omega
  have h0 : readByte (writeWord m off v) off = byteAt (wordBytes v) 0 := hb 0 (by omega)
  rw [readWord, h0, hb 1 (by omega), hb 2 (by omega), hb 3 (by omega)]
  simp only [laneWord, wordBytes, byteAt, List.getD_cons_zero, List.getD_cons_succ]
  apply BitVec.eq_of_getLsbD_eq
  intro i hi
  simp only [BitVec.getLsbD_append, BitVec.getLsbD_extractLsb']
  by_cases h1 : i < 8
  · simp [h1]
  by_cases h2 : i < 16
  · simp [h1, show i - 8 < 8 by omega, show 8 + (i - 8) = i by omega]
  by_cases h3 : i < 24
  · simp [h1, show ¬ i - 8 < 8 by omega, show i - 8 - 8 < 8 by omega, show 16 + (i - 8 - 8) = i by omega]
  · simp [h1, show ¬ i - 8 < 8 by omega, show ¬ i - 8 - 8 < 8 by omega, show i - 8 - 8 - 8 < 8 by omega,
      show 24 + (i - 8 - 8 - 8) = i by omega]

end Sys2Proof.Machine
end

