-- ==== Sys2Proof/Laws/Edwards.lean ====
section
/-! SUPPORT. The group law of a twisted Edwards curve `-x^2 + y^2 = 1 + d x^2 y^2` over a field in which -1 is a square and d is not
(spec/40_primitives.md R94, R95): the addition is complete, stays on the curve, and is a commutative group. -/

namespace Sys2Proof.Edwards

-- Declarations whose proofs take seconds are checked in their turn, so that those after them do not wait in threads of their own.
set_option Elab.async false

variable {F : Type} [Field F]

/-- The curve. -/
def OnE (d : F) (q : F × F) : Prop := q.2 ^ 2 - q.1 ^ 2 = 1 + d * q.1 ^ 2 * q.2 ^ 2

/-- The addition. -/
def add (d : F) (q r : F × F) : F × F :=
  ((q.1 * r.2 + r.1 * q.2) / (1 + d * q.1 * r.1 * q.2 * r.2), (q.2 * r.2 + q.1 * r.1) / (1 - d * q.1 * r.1 * q.2 * r.2))

/-- The negation. -/
def neg (q : F × F) : F × F := (-q.1, q.2)

/-- What makes the addition complete: -1 is a square, d is not, and 2 is not 0. -/
structure Complete (d : F) : Prop where
  root : ∃ i : F, i * i = -1
  nonsquare : ¬ IsSquare d
  two : (2 : F) ≠ 0

variable {d : F} (hc : Complete d)

include hc

/-- The product in the denominators is never 1 or -1. -/
theorem product_ne {x1 y1 x2 y2 ε : F} (h1 : OnE d (x1, y1)) (h2 : OnE d (x2, y2)) (hε : ε * ε = 1) :
    d * x1 * x2 * y1 * y2 ≠ ε := by
  intro he
  obtain ⟨i, hi⟩ := hc.root
  simp only [OnE] at h1 h2
  have hε0 : ε ≠ 0 := fun h => by simp [h] at hε
  have hx1 : x1 ≠ 0 := fun h => hε0 (by rw [← he, h]; ring)
  have hy1 : y1 ≠ 0 := fun h => hε0 (by rw [← he, h]; ring)
  have hx2 : x2 ≠ 0 := fun h => hε0 (by rw [← he, h]; ring)
  have hi0 : i ≠ 0 := fun h => by simp [h] at hi
  have key : ∀ σ : F, σ * σ = 1 → (i * x1 + σ * ε * y1) ^ 2 = d * (x1 * y1 * (i * x2 + σ * y2)) ^ 2 := fun σ hσ => by
    linear_combination (x1 ^ 2 - d * x1 ^ 2 * y1 ^ 2 * x2 ^ 2) * hi + (y1 ^ 2 * ε ^ 2 - d * x1 ^ 2 * y1 ^ 2 * y2 ^ 2) * hσ +
      y1 ^ 2 * hε + h1 - d * x1 ^ 2 * y1 ^ 2 * h2 -
      (d * x1 * x2 * y1 * y2 + ε + 2 * i * σ * x1 * y1) * he - hε
  have zero : ∀ σ : F, σ * σ = 1 → i * x2 + σ * y2 = 0 := fun σ hσ => by
    by_contra hne
    refine hc.nonsquare ⟨(i * x1 + σ * ε * y1) / (x1 * y1 * (i * x2 + σ * y2)), ?_⟩
    have := key σ hσ
    field_simp
    linear_combination -this
  have hp := zero 1 (by ring)
  have hm := zero (-1) (by ring)
  have : 2 * (i * x2) = 0 := by linear_combination hp + hm
  rcases mul_eq_zero.1 this with h | h
  · exact hc.two h
  · exact (mul_ne_zero hi0 hx2) h

/-- The first denominator is not 0. -/
theorem den_add_ne {x1 y1 x2 y2 : F} (h1 : OnE d (x1, y1)) (h2 : OnE d (x2, y2)) : 1 + d * x1 * x2 * y1 * y2 ≠ 0 :=
  fun h => product_ne hc h1 h2 (ε := -1) (by ring) (by linear_combination h)

/-- The second denominator is not 0. -/
theorem den_sub_ne {x1 y1 x2 y2 : F} (h1 : OnE d (x1, y1)) (h2 : OnE d (x2, y2)) : 1 - d * x1 * x2 * y1 * y2 ≠ 0 :=
  fun h => product_ne hc h1 h2 (ε := 1) (by ring) (by linear_combination -h)

/-- The sum of two points is a point. -/
theorem add_onE {q r : F × F} (hq : OnE d q) (hr : OnE d r) : OnE d (add d q r) := by
  obtain ⟨x1, y1⟩ := q
  obtain ⟨x2, y2⟩ := r
  have ha := den_add_ne hc hq hr
  have hs := den_sub_ne hc hq hr
  simp only [OnE, add] at hq hr ⊢
  generalize hA : 1 + d * x1 * x2 * y1 * y2 = a at *
  generalize hB : 1 - d * x1 * x2 * y1 * y2 = b at *
  field_simp
  subst hA hB
  linear_combination (x1^2*y1^2*x2^4*y2^4*d^3 - x1^2*x2^4*y2^4*d^2 - x1^2*x2^4*y2^2*d + x1^2*x2^2*y2^4*d +
      y1^2*x2^4*y2^4*d^2 + y1^2*x2^4*y2^2*d - y1^2*x2^2*y2^4*d - x2^4*y2^4*d^2 - 2*x2^4*y2^4*d -
      2*x2^4*y2^2 + x2^4 + 2*x2^2*y2^4 - 2*x2^2*y2^2*d - 4*x2^2*y2^2 + y2^4) * hq +
    (x1^4*x2^2*y2^2*d + 2*x1^2*x2^2*y2^2*d + 2*x1^2*x2^2*y2^2 - x1^2*x2^2 + x1^2*y2^2 + y1^4*x2^2*y2^2*d
      - 2*y1^2*x2^2*y2^2*d - 2*y1^2*x2^2*y2^2 + y1^2*x2^2 - y1^2*y2^2 + x2^2*y2^2*d + 2*x2^2*y2^2 - x2^2 +
      y2^2 + 1) * hr

/-- The addition is associative. -/
theorem add_assoc {q r s : F × F} (hq : OnE d q) (hr : OnE d r) (hs : OnE d s) :
    add d (add d q r) s = add d q (add d r s) := by
  have hqr := add_onE hc hq hr
  have hrs := add_onE hc hr hs
  obtain ⟨x1, y1⟩ := q
  obtain ⟨x2, y2⟩ := r
  obtain ⟨x3, y3⟩ := s
  have a12 := den_add_ne hc hq hr
  have s12 := den_sub_ne hc hq hr
  have a23 := den_add_ne hc hr hs
  have s23 := den_sub_ne hc hr hs
  have aL := den_add_ne hc hqr hs
  have sL := den_sub_ne hc hqr hs
  have aR := den_add_ne hc hq hrs
  have sR := den_sub_ne hc hq hrs
  simp only [OnE] at hq hr hs
  simp only [add] at aL sL aR sR ⊢
  generalize hA : 1 + d * x1 * x2 * y1 * y2 = a at *
  generalize hB : 1 - d * x1 * x2 * y1 * y2 = b at *
  generalize hC : 1 + d * x2 * x3 * y2 * y3 = c at *
  generalize hD : 1 - d * x2 * x3 * y2 * y3 = e at *
  refine Prod.ext ?_ ?_
  · rw [div_eq_div_iff aL aR]
    field_simp
    subst hA hB hC hD
    linear_combination (- x1*x2^4*y2^3*x3^2*y3*d^2 - x1*x2^4*y2*x3^2*y3*d - x1*x2^3*y2^4*x3*y3^2*d^2 - x1*x2^3*y2^2*x3^3*d -
      x1*x2^3*y2^2*x3*d + x1*x2^2*y2^3*y3^3*d - x1*x2^2*y2^3*y3*d + x1*x2*y2^4*x3*y3^2*d +
      y1*x2^4*y2^3*x3*y3^2*d^2 + y1*x2^4*y2*x3*y3^2*d + y1*x2^3*y2^4*x3^2*y3*d^2 + y1*x2^3*y2^2*y3^3*d -
      y1*x2^3*y2^2*y3*d - y1*x2^2*y2^3*x3^3*d - y1*x2^2*y2^3*x3*d - y1*x2*y2^4*x3^2*y3*d) * hq +
    (x1^3*x2^2*y2*x3^2*y3*d + x1^3*x2*y2^2*x3*y3^2*d + x1^3*x2*x3^3*y3^2*d + x1^3*x2*x3^3 -
      x1^3*x2*x3*y3^2 + x1^3*x2*x3 + x1^3*y2*x3^2*y3^3*d + x1^3*y2*x3^2*y3 - x1^3*y2*y3^3 + x1^3*y2*y3 +
      x1^2*y1*x2^2*y2*x3^3*y3^2*d^2 - x1^2*y1*x2^2*y2*x3*y3^2*d - x1^2*y1*x2*y2^2*x3^2*y3^3*d^2 -
      x1^2*y1*x2*y2^2*x3^2*y3*d + x1^2*y1*x2*x3^2*y3^3*d + x1^2*y1*x2*x3^2*y3 - x1^2*y1*x2*y3^3 +
      x1^2*y1*x2*y3 + x1^2*y1*y2*x3^3*y3^2*d + x1^2*y1*y2*x3^3 - x1^2*y1*y2*x3*y3^2 + x1^2*y1*y2*x3 -
      x1*y1^2*x2^2*y2*x3^2*y3^3*d^2 - x1*y1^2*x2^2*y2*x3^2*y3*d + x1*y1^2*x2*y2^2*x3^3*y3^2*d^2 -
      x1*y1^2*x2*y2^2*x3*y3^2*d - x1*y1^2*x2*x3^3*y3^2*d - x1*y1^2*x2*x3^3 + x1*y1^2*x2*x3*y3^2 -
      x1*y1^2*x2*x3 - x1*y1^2*y2*x3^2*y3^3*d - x1*y1^2*y2*x3^2*y3 + x1*y1^2*y2*y3^3 - x1*y1^2*y2*y3 +
      x1*x2^2*y2*x3^2*y3*d + x1*x2*y2^2*x3*y3^2*d + x1*x2*x3^3*y3^2*d + x1*x2*x3^3 - x1*x2*x3*y3^2 +
      x1*x2*x3 + x1*y2*x3^2*y3^3*d + x1*y2*x3^2*y3 - x1*y2*y3^3 + x1*y2*y3 + y1^3*x2^2*y2*x3*y3^2*d +
      y1^3*x2*y2^2*x3^2*y3*d - y1^3*x2*x3^2*y3^3*d - y1^3*x2*x3^2*y3 + y1^3*x2*y3^3 - y1^3*x2*y3 -
      y1^3*y2*x3^3*y3^2*d - y1^3*y2*x3^3 + y1^3*y2*x3*y3^2 - y1^3*y2*x3 - y1*x2^2*y2*x3*y3^2*d -
      y1*x2*y2^2*x3^2*y3*d + y1*x2*x3^2*y3^3*d + y1*x2*x3^2*y3 - y1*x2*y3^3 + y1*x2*y3 + y1*y2*x3^3*y3^2*d
      + y1*y2*x3^3 - y1*y2*x3*y3^2 + y1*y2*x3) * hr +
    (- x1^3*x2^3*x3 - x1^3*x2^2*y2*y3 + x1^3*x2*y2^2*x3 - x1^3*x2*x3 + x1^3*y2^3*y3 - x1^3*y2*y3 -
      x1^2*y1*x2^3*y3 - x1^2*y1*x2^2*y2*x3*d - x1^2*y1*x2^2*y2*x3 + x1^2*y1*x2*y2^2*y3*d +
      x1^2*y1*x2*y2^2*y3 - x1^2*y1*x2*y3 + x1^2*y1*y2^3*x3 - x1^2*y1*y2*x3 + x1*y1^2*x2^3*x3 +
      x1*y1^2*x2^2*y2*y3*d + x1*y1^2*x2^2*y2*y3 - x1*y1^2*x2*y2^2*x3*d - x1*y1^2*x2*y2^2*x3 +
      x1*y1^2*x2*x3 - x1*y1^2*y2^3*y3 + x1*y1^2*y2*y3 - x1*x2^3*x3 - x1*x2^2*y2*y3 + x1*x2*y2^2*x3 -
      x1*x2*x3 + x1*y2^3*y3 - x1*y2*y3 + y1^3*x2^3*y3 + y1^3*x2^2*y2*x3 - y1^3*x2*y2^2*y3 + y1^3*x2*y3 -
      y1^3*y2^3*x3 + y1^3*y2*x3 - y1*x2^3*y3 - y1*x2^2*y2*x3 + y1*x2*y2^2*y3 - y1*x2*y3 + y1*y2^3*x3 -
      y1*y2*x3) * hs
  · rw [div_eq_div_iff sL sR]
    field_simp
    subst hA hB hC hD
    linear_combination (x1*x2^4*y2^3*x3*y3^2*d^2 + x1*x2^4*y2*x3*y3^2*d + x1*x2^3*y2^4*x3^2*y3*d^2 + x1*x2^3*y2^2*y3^3*d -
      x1*x2^3*y2^2*y3*d - x1*x2^2*y2^3*x3^3*d - x1*x2^2*y2^3*x3*d - x1*x2*y2^4*x3^2*y3*d -
      y1*x2^4*y2^3*x3^2*y3*d^2 - y1*x2^4*y2*x3^2*y3*d - y1*x2^3*y2^4*x3*y3^2*d^2 - y1*x2^3*y2^2*x3^3*d -
      y1*x2^3*y2^2*x3*d + y1*x2^2*y2^3*y3^3*d - y1*x2^2*y2^3*y3*d + y1*x2*y2^4*x3*y3^2*d) * hq +
    (- x1^3*x2^2*y2*x3*y3^2*d - x1^3*x2*y2^2*x3^2*y3*d + x1^3*x2*x3^2*y3^3*d + x1^3*x2*x3^2*y3 -
      x1^3*x2*y3^3 + x1^3*x2*y3 + x1^3*y2*x3^3*y3^2*d + x1^3*y2*x3^3 - x1^3*y2*x3*y3^2 + x1^3*y2*x3 +
      x1^2*y1*x2^2*y2*x3^2*y3^3*d^2 + x1^2*y1*x2^2*y2*x3^2*y3*d - x1^2*y1*x2*y2^2*x3^3*y3^2*d^2 +
      x1^2*y1*x2*y2^2*x3*y3^2*d + x1^2*y1*x2*x3^3*y3^2*d + x1^2*y1*x2*x3^3 - x1^2*y1*x2*x3*y3^2 +
      x1^2*y1*x2*x3 + x1^2*y1*y2*x3^2*y3^3*d + x1^2*y1*y2*x3^2*y3 - x1^2*y1*y2*y3^3 + x1^2*y1*y2*y3 -
      x1*y1^2*x2^2*y2*x3^3*y3^2*d^2 + x1*y1^2*x2^2*y2*x3*y3^2*d + x1*y1^2*x2*y2^2*x3^2*y3^3*d^2 +
      x1*y1^2*x2*y2^2*x3^2*y3*d - x1*y1^2*x2*x3^2*y3^3*d - x1*y1^2*x2*x3^2*y3 + x1*y1^2*x2*y3^3 -
      x1*y1^2*x2*y3 - x1*y1^2*y2*x3^3*y3^2*d - x1*y1^2*y2*x3^3 + x1*y1^2*y2*x3*y3^2 - x1*y1^2*y2*x3 -
      x1*x2^2*y2*x3*y3^2*d - x1*x2*y2^2*x3^2*y3*d + x1*x2*x3^2*y3^3*d + x1*x2*x3^2*y3 - x1*x2*y3^3 +
      x1*x2*y3 + x1*y2*x3^3*y3^2*d + x1*y2*x3^3 - x1*y2*x3*y3^2 + x1*y2*x3 - y1^3*x2^2*y2*x3^2*y3*d -
      y1^3*x2*y2^2*x3*y3^2*d - y1^3*x2*x3^3*y3^2*d - y1^3*x2*x3^3 + y1^3*x2*x3*y3^2 - y1^3*x2*x3 -
      y1^3*y2*x3^2*y3^3*d - y1^3*y2*x3^2*y3 + y1^3*y2*y3^3 - y1^3*y2*y3 + y1*x2^2*y2*x3^2*y3*d +
      y1*x2*y2^2*x3*y3^2*d + y1*x2*x3^3*y3^2*d + y1*x2*x3^3 - y1*x2*x3*y3^2 + y1*x2*x3 + y1*y2*x3^2*y3^3*d
      + y1*y2*x3^2*y3 - y1*y2*y3^3 + y1*y2*y3) * hr +
    (- x1^3*x2^3*y3 - x1^3*x2^2*y2*x3 + x1^3*x2*y2^2*y3 - x1^3*x2*y3 + x1^3*y2^3*x3 - x1^3*y2*x3 -
      x1^2*y1*x2^3*x3 - x1^2*y1*x2^2*y2*y3*d - x1^2*y1*x2^2*y2*y3 + x1^2*y1*x2*y2^2*x3*d +
      x1^2*y1*x2*y2^2*x3 - x1^2*y1*x2*x3 + x1^2*y1*y2^3*y3 - x1^2*y1*y2*y3 + x1*y1^2*x2^3*y3 +
      x1*y1^2*x2^2*y2*x3*d + x1*y1^2*x2^2*y2*x3 - x1*y1^2*x2*y2^2*y3*d - x1*y1^2*x2*y2^2*y3 +
      x1*y1^2*x2*y3 - x1*y1^2*y2^3*x3 + x1*y1^2*y2*x3 - x1*x2^3*y3 - x1*x2^2*y2*x3 + x1*x2*y2^2*y3 -
      x1*x2*y3 + x1*y2^3*x3 - x1*y2*x3 + y1^3*x2^3*x3 + y1^3*x2^2*y2*y3 - y1^3*x2*y2^2*x3 + y1^3*x2*x3 -
      y1^3*y2^3*y3 + y1^3*y2*y3 - y1*x2^3*x3 - y1*x2^2*y2*y3 + y1*x2*y2^2*x3 - y1*x2*x3 + y1*y2^3*y3 -
      y1*y2*y3) * hs

omit hc in
/-- The addition is commutative. -/
theorem add_comm (q r : F × F) : add d q r = add d r q := by
  simp only [add]
  refine Prod.ext ?_ ?_ <;> simp only <;> congr 1 <;> ring

omit hc in
/-- (0, 1) is on the curve. -/
theorem zero_onE : OnE d ((0, 1) : F × F) := by simp [OnE]

omit hc in
/-- (0, 1) is neutral. -/
theorem zero_add (q : F × F) : add d (0, 1) q = q := by simp [add]

omit hc in
theorem neg_onE {q : F × F} (h : OnE d q) : OnE d (neg q) := by
  simp only [OnE, neg] at h ⊢
  linear_combination h

/-- A point and its negation add to (0, 1). -/
theorem add_neg {q : F × F} (h : OnE d q) : add d q (neg q) = (0, 1) := by
  obtain ⟨x, y⟩ := q
  have hs := den_sub_ne hc h (neg_onE h)
  simp only [OnE] at h
  simp only [add, neg] at hs ⊢
  refine Prod.ext ?_ ?_
  · simp only
    rw [show x * y + -x * y = 0 by ring, zero_div]
  · simp only
    rw [div_eq_one_iff_eq hs]
    linear_combination h

omit hc in
/-- `[k]q` as repeated addition (R97). -/
def smul (d : F) : Nat → F × F → F × F
  | 0, _ => (0, 1)
  | k + 1, q => add d (smul d k q) q

theorem smul_onE {q : F × F} (h : OnE d q) (k : Nat) : OnE d (smul d k q) := by
  induction k with
  | zero => exact zero_onE
  | succ k ih => exact add_onE hc ih h

theorem smul_add {q : F × F} (h : OnE d q) (j k : Nat) : smul d (j + k) q = add d (smul d j q) (smul d k q) := by
  induction k with
  | zero => rw [smul, add_comm, zero_add]; rfl
  | succ k ih => rw [← Nat.add_assoc, smul, smul, ih, add_assoc hc (smul_onE hc h j) (smul_onE hc h k) h]

theorem smul_mul {q : F × F} (h : OnE d q) (j k : Nat) : smul d (j * k) q = smul d j (smul d k q) := by
  induction j with
  | zero => rw [Nat.zero_mul]; rfl
  | succ j ih => rw [Nat.succ_mul, smul_add hc h, ih]; rfl

omit hc in
theorem smul_zero_point (k : Nat) : smul d k (0, 1) = ((0, 1) : F × F) := by
  induction k with
  | zero => rfl
  | succ k ih => rw [smul, ih, zero_add]

omit hc in
theorem neg_add (q r : F × F) : neg (add d q r) = add d (neg q) (neg r) := by
  simp only [add, neg]
  refine Prod.ext ?_ ?_
  · simp only
    rw [← neg_div]
    congr 1 <;> ring
  · simp only
    congr 1 <;> ring

omit hc in
theorem neg_smul (q : F × F) (k : Nat) : neg (smul d k q) = smul d k (neg q) := by
  induction k with
  | zero => simp [smul, neg]
  | succ k ih => rw [smul, neg_add, ih]; rfl

/-- Adding a point and then its negation gives the point added to back. -/
theorem add_add_neg {q r : F × F} (hq : OnE d q) (hr : OnE d r) : add d (add d q r) (neg r) = q := by
  rw [add_assoc hc hq hr (neg_onE hr), add_neg hc hr, add_comm, zero_add]

end Sys2Proof.Edwards
end

