-- ==== Sys2Proof/Laws/Primes.lean ====
section
/-! SUPPORT. The field prime p and the group order L are prime (spec/40_primitives.md R86, R91): Pratt certificates, each checked by the
kernel. -/

namespace Sys2Proof.Machine

-- Declarations whose proofs take seconds are checked in their turn, so that those after them do not wait in threads of their own.
set_option Elab.async false

/-- `b^e mod m` for `e < 2^fuel`, by squaring. -/
def powMod (m : Nat) : Nat → Nat → Nat → Nat
  | 0, _, _ => 1 % m
  | fuel + 1, b, e =>
    if e % 2 = 1 then b * powMod m fuel (b * b % m) (e / 2) % m else powMod m fuel (b * b % m) (e / 2)

theorem powMod_eq (m fuel b e : Nat) (h : e < 2 ^ fuel) : powMod m fuel b e = b ^ e % m := by
  induction fuel generalizing b e with
  | zero =>
    have : e = 0 := by simpa using h
    simp [powMod, this]
  | succ fuel ih =>
    have hh : e / 2 < 2 ^ fuel := by rw [Nat.pow_succ] at h; omega
    have hsq : (b * b % m) ^ (e / 2) % m = b ^ (2 * (e / 2)) % m := by
      rw [← Nat.pow_mod, Nat.pow_mul, Nat.pow_two]
    rw [powMod, ih _ _ hh, hsq]
    split
    · next ho =>
      rw [Nat.mul_mod_mod, ← Nat.pow_succ']
      congr 2; omega
    · next ho => congr 2; omega

/-- A certificate of primality: a base, and the factors of `n - 1` with their powers. -/
def prattCheck (n a : Nat) (fs : List (Nat × Nat)) : Bool :=
  decide (1 < n) && (n < 2 ^ 256) && ((fs.map fun f => f.1 ^ f.2).prod == n - 1) && (powMod n 256 a (n - 1) == 1) &&
    fs.all fun f => powMod n 256 a ((n - 1) / f.1) != 1

/-- A certificate whose factors are prime proves its number prime. -/
theorem prime_of_pratt {n : Nat} (a : Nat) (fs : List (Nat × Nat)) (hc : prattCheck n a fs = true)
    (hp : ∀ f ∈ fs, f.1.Prime) : n.Prime := by
  simp only [prattCheck, Bool.and_eq_true, decide_eq_true_eq, beq_iff_eq, List.all_eq_true, bne_iff_ne] at hc
  obtain ⟨⟨⟨⟨h1, hb⟩, hprod⟩, hone⟩, hne⟩ := hc
  have hlt : ∀ e, e ≤ n - 1 → e < 2 ^ 256 := fun e he => by omega
  have hcast : ∀ e, e ≤ n - 1 → ((a : ZMod n) ^ e = 1 ↔ powMod n 256 a e = 1) := fun e he => by
    rw [powMod_eq _ _ _ _ (hlt e he)]
    have : ((a : ZMod n) ^ e = 1) ↔ ((a ^ e : Nat) : ZMod n) = ((1 : Nat) : ZMod n) := by push_cast; rfl
    rw [this, ZMod.natCast_eq_natCast_iff', Nat.mod_eq_of_lt h1]
  refine lucas_primality n (a : ZMod n) ((hcast _ le_rfl).2 hone) fun q hq hd => ?_
  rw [← hprod] at hd
  obtain ⟨x, hx, hqx⟩ := (Prime.dvd_prod_iff hq.prime).1 hd
  obtain ⟨f, hf, rfl⟩ := List.mem_map.1 hx
  have : q = f.1 := (Nat.prime_dvd_prime_iff_eq hq (hp f hf)).1 (hq.dvd_of_dvd_pow hqx)
  subst this
  exact fun h => hne f hf ((hcast _ (Nat.div_le_self _ _)).1 h)


theorem prime_1224481 : Nat.Prime 1224481 :=
  prime_of_pratt 13 [(2, 5), (3, 1), (5, 1), (2551, 1)] (by decide +kernel) (by
    simp only [List.forall_mem_cons, List.not_mem_nil, false_implies, implies_true, and_true]
    exact ⟨by norm_num, by norm_num, by norm_num, by norm_num⟩)

theorem prime_1923133 : Nat.Prime 1923133 :=
  prime_of_pratt 2 [(2, 2), (3, 1), (43, 1), (3727, 1)] (by decide +kernel) (by
    simp only [List.forall_mem_cons, List.not_mem_nil, false_implies, implies_true, and_true]
    exact ⟨by norm_num, by norm_num, by norm_num, by norm_num⟩)

theorem prime_8574133 : Nat.Prime 8574133 :=
  prime_of_pratt 2 [(2, 2), (3, 1), (7, 1), (103, 1), (991, 1)] (by decide +kernel) (by
    simp only [List.forall_mem_cons, List.not_mem_nil, false_implies, implies_true, and_true]
    exact ⟨by norm_num, by norm_num, by norm_num, by norm_num, by norm_num⟩)

theorem prime_14741173 : Nat.Prime 14741173 :=
  prime_of_pratt 2 [(2, 2), (3, 2), (409477, 1)] (by decide +kernel) (by
    simp only [List.forall_mem_cons, List.not_mem_nil, false_implies, implies_true, and_true]
    exact ⟨by norm_num, by norm_num, by norm_num⟩)

theorem prime_58964693 : Nat.Prime 58964693 :=
  prime_of_pratt 2 [(2, 2), (14741173, 1)] (by decide +kernel) (by
    simp only [List.forall_mem_cons, List.not_mem_nil, false_implies, implies_true, and_true]
    exact ⟨by norm_num, prime_14741173⟩)

theorem prime_292386187 : Nat.Prime 292386187 :=
  prime_of_pratt 2 [(2, 1), (3, 4), (307, 1), (5879, 1)] (by decide +kernel) (by
    simp only [List.forall_mem_cons, List.not_mem_nil, false_implies, implies_true, and_true]
    exact ⟨by norm_num, by norm_num, by norm_num, by norm_num⟩)

theorem prime_2773320623 : Nat.Prime 2773320623 :=
  prime_of_pratt 5 [(2, 1), (2437, 1), (569003, 1)] (by decide +kernel) (by
    simp only [List.forall_mem_cons, List.not_mem_nil, false_implies, implies_true, and_true]
    exact ⟨by norm_num, by norm_num, by norm_num⟩)

theorem prime_72106336199 : Nat.Prime 72106336199 :=
  prime_of_pratt 7 [(2, 1), (13, 1), (2773320623, 1)] (by decide +kernel) (by
    simp only [List.forall_mem_cons, List.not_mem_nil, false_implies, implies_true, and_true]
    exact ⟨by norm_num, by norm_num, prime_2773320623⟩)

theorem prime_213441916511 : Nat.Prime 213441916511 :=
  prime_of_pratt 13 [(2, 1), (5, 1), (73, 1), (292386187, 1)] (by decide +kernel) (by
    simp only [List.forall_mem_cons, List.not_mem_nil, false_implies, implies_true, and_true]
    exact ⟨by norm_num, by norm_num, by norm_num, prime_292386187⟩)

theorem prime_1257559732178653 : Nat.Prime 1257559732178653 :=
  prime_of_pratt 2 [(2, 2), (3, 1), (7, 1), (23, 1), (531581, 1), (1224481, 1)] (by decide +kernel) (by
    simp only [List.forall_mem_cons, List.not_mem_nil, false_implies, implies_true, and_true]
    exact ⟨by norm_num, by norm_num, by norm_num, by norm_num, by norm_num, prime_1224481⟩)

theorem prime_1919519569386763 : Nat.Prime 1919519569386763 :=
  prime_of_pratt 2 [(2, 1), (3, 1), (7, 1), (19, 1), (47, 2), (127, 1), (8574133, 1)] (by decide +kernel) (by
    simp only [List.forall_mem_cons, List.not_mem_nil, false_implies, implies_true, and_true]
    exact ⟨by norm_num, by norm_num, by norm_num, by norm_num, by norm_num, by norm_num, prime_8574133⟩)

theorem prime_31757755568855353 : Nat.Prime 31757755568855353 :=
  prime_of_pratt 10 [(2, 3), (3, 1), (31, 1), (107, 1), (223, 1), (4153, 1), (430751, 1)] (by decide +kernel) (by
    simp only [List.forall_mem_cons, List.not_mem_nil, false_implies, implies_true, and_true]
    exact ⟨by norm_num, by norm_num, by norm_num, by norm_num, by norm_num, by norm_num, by norm_num⟩)

theorem prime_4434155615661930479 : Nat.Prime 4434155615661930479 :=
  prime_of_pratt 17 [(2, 1), (41, 1), (43, 1), (1257559732178653, 1)] (by decide +kernel) (by
    simp only [List.forall_mem_cons, List.not_mem_nil, false_implies, implies_true, and_true]
    exact ⟨by norm_num, by norm_num, by norm_num, prime_1257559732178653⟩)

theorem prime_3044861653679985063343 : Nat.Prime 3044861653679985063343 :=
  prime_of_pratt 5 [(2, 1), (3, 1), (11, 1), (30703, 1), (82163, 1), (132667, 1), (137849, 1)] (by decide +kernel) (by
    simp only [List.forall_mem_cons, List.not_mem_nil, false_implies, implies_true, and_true]
    exact ⟨by norm_num, by norm_num, by norm_num, by norm_num, by norm_num, by norm_num, by norm_num⟩)

theorem prime_172054593956031949258510691 : Nat.Prime 172054593956031949258510691 :=
  prime_of_pratt 2 [(2, 1), (5, 1), (1361, 1), (2851, 1), (4434155615661930479, 1)] (by decide +kernel) (by
    simp only [List.forall_mem_cons, List.not_mem_nil, false_implies, implies_true, and_true]
    exact ⟨by norm_num, by norm_num, by norm_num, by norm_num, prime_4434155615661930479⟩)

theorem prime_198211423230930754013084525763697 : Nat.Prime 198211423230930754013084525763697 :=
  prime_of_pratt 5 [(2, 4), (3, 1), (23, 1), (3044861653679985063343, 1), (58964693, 1)] (by decide +kernel) (by
    simp only [List.forall_mem_cons, List.not_mem_nil, false_implies, implies_true, and_true]
    exact ⟨by norm_num, by norm_num, by norm_num, prime_3044861653679985063343, prime_58964693⟩)

theorem prime_75445702479781427272750846543864801 : Nat.Prime 75445702479781427272750846543864801 :=
  prime_of_pratt 7 [(2, 5), (3, 2), (5, 2), (75707, 1), (1919519569386763, 1), (72106336199, 1)] (by decide +kernel) (by
    simp only [List.forall_mem_cons, List.not_mem_nil, false_implies, implies_true, and_true]
    exact ⟨by norm_num, by norm_num, by norm_num, by norm_num, prime_1919519569386763, prime_72106336199⟩)

theorem prime_19757330305831588566944191468367130476339 : Nat.Prime 19757330305831588566944191468367130476339 :=
  prime_of_pratt 2 [(2, 1), (269, 1), (172054593956031949258510691, 1), (213441916511, 1)] (by decide +kernel) (by
    simp only [List.forall_mem_cons, List.not_mem_nil, false_implies, implies_true, and_true]
    exact ⟨by norm_num, by norm_num, prime_172054593956031949258510691, prime_213441916511⟩)

theorem prime_276602624281642239937218680557139826668747 : Nat.Prime 276602624281642239937218680557139826668747 :=
  prime_of_pratt 2 [(2, 1), (7, 1), (19757330305831588566944191468367130476339, 1)] (by decide +kernel) (by
    simp only [List.forall_mem_cons, List.not_mem_nil, false_implies, implies_true, and_true]
    exact ⟨by norm_num, by norm_num, prime_19757330305831588566944191468367130476339⟩)

theorem prime_74058212732561358302231226437062788676166966415465897661863160754340907 : Nat.Prime 74058212732561358302231226437062788676166966415465897661863160754340907 :=
  prime_of_pratt 2 [(2, 1), (3, 1), (353, 1), (57467, 1), (132049, 1), (75445702479781427272750846543864801, 1), (31757755568855353, 1), (1923133, 1)] (by decide +kernel) (by
    simp only [List.forall_mem_cons, List.not_mem_nil, false_implies, implies_true, and_true]
    exact ⟨by norm_num, by norm_num, by norm_num, by norm_num, by norm_num, prime_75445702479781427272750846543864801, prime_31757755568855353, prime_1923133⟩)

theorem prime_groupOrder : Nat.Prime groupOrder :=
  prime_of_pratt 2 [(2, 2), (3, 1), (11, 1), (198211423230930754013084525763697, 1), (276602624281642239937218680557139826668747, 1)] (by decide +kernel) (by
    simp only [List.forall_mem_cons, List.not_mem_nil, false_implies, implies_true, and_true]
    exact ⟨by norm_num, by norm_num, by norm_num, prime_198211423230930754013084525763697, prime_276602624281642239937218680557139826668747⟩)

theorem prime_p : Nat.Prime p :=
  prime_of_pratt 2 [(2, 2), (3, 1), (65147, 1), (74058212732561358302231226437062788676166966415465897661863160754340907, 1)] (by decide +kernel) (by
    simp only [List.forall_mem_cons, List.not_mem_nil, false_implies, implies_true, and_true]
    exact ⟨by norm_num, by norm_num, by norm_num, prime_74058212732561358302231226437062788676166966415465897661863160754340907⟩)

end Sys2Proof.Machine
end

