-- ==== Sys2Proof/Laws/Field.lean ====
section
/-! SUPPORT. The field operations are those of `ZMod p`: one lemma for each, and the facts about p and d that make the curve's
addition complete (spec/40_primitives.md R86 to R95). -/

namespace Sys2Proof.Machine

-- Declarations whose proofs take seconds are checked in their turn, so that those after them do not wait in threads of their own.
set_option Elab.async false

/-- For the library's lemmas about a prime field. -/
theorem fact_prime_p : Fact p.Prime := ⟨prime_p⟩

theorem p_pos : 0 < p := by unfold p; omega

theorem one_lt_p : 1 < p := by unfold p; omega

theorem p_lt_pow255 : p < 2 ^ 255 := by decide +kernel

theorem feAdd_lt (a b : Nat) : feAdd a b < p := Nat.mod_lt _ p_pos

theorem feSub_lt (a b : Nat) : feSub a b < p := Nat.mod_lt _ p_pos

theorem feMul_lt (a b : Nat) : feMul a b < p := Nat.mod_lt _ p_pos

theorem feDecode_lt (b : List Byte) : feDecode b < p := Nat.mod_lt _ p_pos

/-- Numbers below p are equal when they are equal in the field. -/
theorem eq_of_cast_eq {a b : Nat} (ha : a < p) (hb : b < p) (h : (a : ZMod p) = (b : ZMod p)) : a = b := by
  have := (ZMod.natCast_eq_natCast_iff' a b p).1 h
  rwa [Nat.mod_eq_of_lt ha, Nat.mod_eq_of_lt hb] at this

theorem cast_eq_zero_iff (a : Nat) : (a : ZMod p) = 0 ↔ a % p = 0 := by
  rw [ZMod.natCast_eq_zero_iff]; exact ⟨Nat.mod_eq_zero_of_dvd, Nat.dvd_of_mod_eq_zero⟩

@[simp] theorem cast_mod_p (a : Nat) : ((a % p : Nat) : ZMod p) = a := ZMod.natCast_mod a p

theorem cast_feAdd (a b : Nat) : (feAdd a b : ZMod p) = a + b := by rw [feAdd, cast_mod_p]; push_cast; rfl

theorem cast_feMul (a b : Nat) : (feMul a b : ZMod p) = a * b := by rw [feMul, cast_mod_p]; push_cast; rfl

theorem cast_feSub (a b : Nat) : (feSub a b : ZMod p) = a - b := by
  rw [feSub, cast_mod_p, Nat.cast_add, Nat.cast_sub (Nat.le_of_lt (Nat.mod_lt _ p_pos)), cast_mod_p, ZMod.natCast_self]
  ring

theorem powDigits_lt {n b e : Nat} : powDigits n b e < p := by
  cases n with
  | zero => exact one_lt_p
  | succ n => exact feMul_lt _ _

theorem cast_powDigits {n : Nat} (b e : Nat) (h : e < 64 ^ n) : (powDigits n b e : ZMod p) = (b : ZMod p) ^ e := by
  induction n generalizing e with
  | zero =>
    have : e = 0 := by simpa using h
    simp [powDigits, this]
  | succ n ih =>
    have hh : e / 64 < 64 ^ n := by rw [Nat.pow_succ] at h; omega
    rw [powDigits, cast_feMul, Nat.pow_eq, Nat.pow_eq, Nat.cast_pow, Nat.cast_pow, ih _ hh, ← pow_mul, ← pow_add]
    congr 1; omega

theorem fePow_lt (b e : Nat) : fePow b e < p := by unfold fePow; exact powDigits_lt

theorem cast_fePow (b e : Nat) (h : e < 2 ^ 255) : (fePow b e : ZMod p) = (b : ZMod p) ^ e := by
  unfold fePow; exact cast_powDigits b e (h.trans (by norm_num))

theorem feInv_lt (x : Nat) : feInv x < p := by
  unfold feInv; split; exacts [Nat.mod_lt _ p_pos, fePow_lt _ _]

/-- Fermat: `FeInv` is the inverse of the field wherever R90 defines it. -/
theorem cast_feInv {x : Nat} (h : (x : ZMod p) ≠ 0) : (feInv x : ZMod p) = (x : ZMod p)⁻¹ := by
  have := fact_prime_p
  have h0 : ¬ x % p = 0 := fun hx => h ((cast_eq_zero_iff x).2 hx)
  rw [feInv, if_neg h0, cast_fePow _ _ (by have := p_lt_pow255; omega)]
  refine eq_inv_of_mul_eq_one_left ?_
  rw [← pow_succ, show p - 2 + 1 = p - 1 by have := one_lt_p; omega]
  exact ZMod.pow_card_sub_one_eq_one h

/-- -1 is the square of 2^((p-1)/4). -/
theorem cast_sqrtMinusOne_mul_self : (sqrtMinusOne : ZMod p) * sqrtMinusOne = -1 := by
  have h : feAdd (feMul sqrtMinusOne sqrtMinusOne) 1 = 0 := by decide +kernel
  have := congrArg (Nat.cast : Nat → ZMod p) h
  rw [cast_feAdd, cast_feMul] at this
  push_cast at this
  linear_combination this

/-- d is no square modulo p, so the denominators of R95 are never 0. -/
theorem curveD_nonsquare : ¬ IsSquare (curveD : ZMod p) := by
  have := fact_prime_p
  have hd : (curveD : ZMod p) ≠ 0 := fun h => by
    have : curveD % p ≠ 0 := by decide +kernel
    exact this ((cast_eq_zero_iff _).1 h)
  rw [ZMod.euler_criterion p hd, ← cast_fePow _ _ (by have := p_lt_pow255; omega)]
  intro h
  have h1 : fePow curveD (p / 2) ≠ 1 := by decide +kernel
  exact h1 (eq_of_cast_eq (fePow_lt _ _) one_lt_p (by rw [h, Nat.cast_one]))

theorem two_ne_zero_field : (2 : ZMod p) ≠ 0 := fun h => by
  have : (2 : Nat) % p ≠ 0 := by decide +kernel
  exact this ((cast_eq_zero_iff 2).1 (by exact_mod_cast h))

/-- The curve of R94 is one on which the addition is complete. -/
theorem curve_complete [Fact p.Prime] : Edwards.Complete (curveD : ZMod p) :=
  ⟨⟨_, cast_sqrtMinusOne_mul_self⟩, curveD_nonsquare, two_ne_zero_field⟩

/-- A field element is a square exactly when one of the two candidates of `feSqrt` squares to it. -/
theorem sqrt_candidate [Fact p.Prime] {t s : ZMod p} (h : s * s = t) :
    t = 0 ∨ (t ^ ((p + 3) / 8)) * (t ^ ((p + 3) / 8)) = t ∨
      (t ^ ((p + 3) / 8)) * (t ^ ((p + 3) / 8)) = -t := by
  by_cases ht : t = 0
  · exact .inl ht
  right
  have hs : s ≠ 0 := fun h0 => ht (by rw [← h, h0, mul_zero])
  have hp8 : p % 8 = 5 := by decide +kernel
  have h1 : t ^ ((p - 1) / 2) = 1 := by
    rw [← h, ← pow_two, ← pow_mul, show 2 * ((p - 1) / 2) = p - 1 by omega]
    exact ZMod.pow_card_sub_one_eq_one hs
  have h2 : (t ^ ((p - 1) / 4)) * (t ^ ((p - 1) / 4)) = 1 := by
    rw [← pow_add, show (p - 1) / 4 + (p - 1) / 4 = (p - 1) / 2 by omega, h1]
  have h3 : (t ^ ((p + 3) / 8)) * (t ^ ((p + 3) / 8)) = t ^ ((p - 1) / 4) * t := by
    rw [← pow_add, ← pow_succ]; congr 1
  rcases mul_self_eq_one_iff.1 h2 with h4 | h4 <;> rw [h3, h4]
  · left; ring
  · right; ring

end Sys2Proof.Machine
end

