-- ==== Sys2Proof/Laws/Encoding.lean ====
section
/-! SUPPORT. The 32-byte encodings: their low 255 bits and their sign bit (spec/00_scope.md R9; spec/40_primitives.md R87, R88, R100). -/

namespace Sys2Proof.Machine

/-- A 32-byte string by its low 255 bits and its sign bit. -/
theorem leNat_eq_low255 {b : List Byte} (hb : b.length = 32) : leNat b = low255 b + 2 ^ 255 * signBit b := by
  have h := leNat_split31 hb
  have h1 := leNat_lt (b.take 31)
  rw [show (b.take 31).length = 31 by simp [hb]] at h1
  have h2 := (byteAt b 31).isLt
  rw [low255, signBit]
  omega

theorem low255_lt (b : List Byte) : low255 b < 2 ^ 255 := Nat.mod_lt _ (by norm_num)

theorem signBit_le_one (b : List Byte) : signBit b ≤ 1 := by
  have := (byteAt b 31).isLt
  rw [signBit]; omega

/-- 32-byte strings agree when their low 255 bits and their sign bits do. -/
theorem eq_of_low255_signBit {a b : List Byte} (ha : a.length = 32) (hb : b.length = 32) (h : low255 a = low255 b)
    (hs : signBit a = signBit b) : a = b :=
  eq_of_leNat_eq (by rw [ha, hb]) (by rw [leNat_eq_low255 ha, leNat_eq_low255 hb, h, hs])

theorem take31_set (b : List Byte) (v : Byte) : (b.set 31 v).take 31 = b.take 31 := by
  rw [List.take_set, List.set_eq_of_length_le (by simp)]

/-- Replacing byte 31 by one with the same low seven bits keeps the low 255 bits. -/
theorem low255_set31 {b : List Byte} (hb : b.length = 32) {v : Byte} (hv : v &&& 0x7F = byteAt b 31 &&& 0x7F) :
    low255 (b.set 31 v) = low255 b := by
  have hm : v.toNat % 128 = (byteAt b 31).toNat % 128 := by
    have e : ∀ y : Byte, y.toNat % 128 = (y &&& 0x7F).toNat := by decide
    rw [e, e, hv]
  rw [low255, low255, leNat_split31 (by simpa using hb), leNat_split31 hb, take31_set,
    byteAt_set v (by omega), if_pos rfl]
  omega

theorem signBit_set31 {b : List Byte} (hb : b.length = 32) (v : Byte) : signBit (b.set 31 v) = v.toNat / 128 := by
  rw [signBit, byteAt_set v (by omega), if_pos rfl]

/-- A byte's upper bit and lower seven under the masks of the sign-bit operations. -/
theorem byte_masks (x : Byte) : (x &&& 0x7F) &&& 0x7F = x &&& 0x7F ∧ (x &&& 0x80) &&& 0x7F = 0 ∧ (x &&& 0x7F).toNat / 128 = 0 ∧
    (x &&& 0x80).toNat / 128 = x.toNat / 128 := by revert x; decide

/-- Clearing bit 255 keeps the low 255 bits (R141, R144). -/
theorem leNat_andByte31 {b : List Byte} (hb : b.length = 32) : leNat (andByte b 31 0x7F) = low255 b := by
  rw [leNat_eq_low255 (by simpa using hb), andByte, signBit_set31 hb, low255_set31 hb (byte_masks _).1, (byte_masks _).2.2.1]
  omega

theorem low255_andByte31 {b : List Byte} (hb : b.length = 32) : low255 (andByte b 31 0x7F) = low255 b := by
  rw [andByte, low255_set31 hb (byte_masks _).1]

/-- A sign bit put into a string whose bit 255 is clear. -/
theorem leNat_orByte31 {b : List Byte} (hb : b.length = 32) {m : Byte} (h0 : signBit b = 0) (hm : m &&& 0x7F = 0) :
    leNat (orByte b 31 m) = leNat b + 2 ^ 255 * (m.toNat / 128) := by
  have hx : ∀ x m : Byte, m &&& 0x7F = 0 → (x ||| m) &&& 0x7F = x &&& 0x7F := by
    intro x m h
    apply BitVec.eq_of_getLsbD_eq; intro i hi
    have := congrArg (fun v : Byte => v.getLsbD i) h
    simp only [BitVec.getLsbD_and, BitVec.getLsbD_or] at this ⊢
    cases hmi : m.getLsbD i <;> simp_all
  have hd : ∀ x m : Byte, x.toNat / 128 = 0 → m &&& 0x7F = 0 → (x ||| m).toNat / 128 = m.toNat / 128 := by
    intro x m h1 h2
    have e : ∀ y : Byte, y.toNat / 128 = (y.getLsbD 7).toNat := by decide
    rw [e] at h1
    rw [e, e, BitVec.getLsbD_or]
    cases hy : x.getLsbD 7 <;> simp_all
  rw [leNat_eq_low255 (by simpa using hb), orByte, signBit_set31 hb, low255_set31 hb (hx _ _ hm),
    hd _ _ (by rwa [signBit] at h0) hm, leNat_eq_low255 hb, h0]
  omega

/-- The integer of the encoding of a field element is the element. -/
theorem leNat_feEncode {x : Nat} (hx : x < p) : leNat (feEncode x) = x := by
  rw [feEncode, leNat_leBytes, Nat.mod_eq_of_lt]
  have := p_lt_pow255; norm_num at *; omega

theorem low255_feEncode {x : Nat} (hx : x < p) : low255 (feEncode x) = x := by
  rw [low255, leNat_feEncode hx, Nat.mod_eq_of_lt (by have := p_lt_pow255; omega)]

theorem signBit_feEncode {x : Nat} (hx : x < p) : signBit (feEncode x) = 0 := by
  have h1 := leNat_eq_low255 (length_feEncode x)
  rw [leNat_feEncode hx, low255_feEncode hx] at h1
  omega

/-- The integer of a point's encoding: y, and the parity of x in bit 255 (R100). -/
theorem leNat_pointEncode {q : Point} (hy : q.y < p) : leNat (pointEncode q) = q.y + 2 ^ 255 * (q.x % 2) := by
  have hm : ∀ k : Fin 2, BitVec.ofNat 8 (k * 128) &&& 0x7F = (0 : Byte) ∧ (BitVec.ofNat 8 (k * 128)).toNat / 128 = k := by
    decide
  have h := hm ⟨q.x % 2, Nat.mod_lt _ (by omega)⟩
  rw [pointEncode, leNat_orByte31 (length_feEncode _) (signBit_feEncode hy) h.1, leNat_feEncode hy, h.2]

theorem low255_pointEncode {q : Point} (hy : q.y < p) : low255 (pointEncode q) = q.y := by
  have := p_lt_pow255
  have h2 : q.x % 2 < 2 := Nat.mod_lt _ (by omega)
  rw [low255, leNat_pointEncode hy]; omega

theorem signBit_pointEncode {q : Point} (hy : q.y < p) : signBit (pointEncode q) = q.x % 2 := by
  have h := leNat_eq_low255 (length_pointEncode q)
  rw [leNat_pointEncode hy, low255_pointEncode hy] at h
  omega

end Sys2Proof.Machine
end

