-- ==== Sys2Proof/Laws/Commands.lean ====
section
/-! SUPPORT. What the commands' effects leave in their own buffers, and what `MapCore` answers. -/

namespace Sys2Proof.Machine

/-- A buffer read after a string is stored over it. -/
theorem readBytes_writeBytes_of_length {m : Memory} {bs : List Byte} (a n : Nat) (hw : m.wf = true) (hl : bs.length = n) :
    readBytes (writeBytes m a bs) a n = bs := by
  subst hl; exact readBytes_writeBytes a bs hw

/-- A run of zeroed bytes reads as zeros. -/
theorem readBytes_eq_zeros {m : Memory} {a n : Nat} (h : ∀ i < n, readByte m (a + i) = 0) : readBytes m a n = zeros n := by
  apply eq_of_byteAt_eq (by simp)
  intro i hi
  rw [length_readBytes] at hi
  rw [byteAt_readBytes _ _ _ _ hi, h i hi, byteAt_zeros]

/-- SIG after SIGN's effect. -/
theorem sig_signEffect {s : State} (hw : s.mem.wf = true) : (signEffect s).sig = signResult s := by
  apply eq_of_byteAt_eq (by simp)
  intro i hi
  rw [length_sig] at hi
  rw [State.sig, byteAt_readBytes _ _ _ _ hi, readByte_signEffect hw, if_neg (by unfold seedBase sigBase; omega),
    if_pos (by omega), Nat.add_sub_cancel_left]

/-- SEED after SIGN's effect (R125). -/
theorem seed_signEffect {s : State} (hw : s.mem.wf = true) : (signEffect s).seed = zeros 64 :=
  readBytes_eq_zeros fun i hi => by rw [readByte_signEffect hw, if_pos (by omega)]

/-- AED after MAP's effect on an input that maps. -/
theorem aed_mapEffect {s : State} {aed : List Byte} (hw : s.mem.wf = true) (h : mapCore s.pk (sigSignBit s.sig) = some aed) :
    (mapEffect s).aed = aed := by
  unfold mapEffect State.aed
  rw [h]
  exact readBytes_writeBytes_of_length _ _ hw (length_mapCore h)

/-- AED after MAP's effect on the excluded input (R131). -/
theorem aed_mapEffect_excluded {s : State} (hw : s.mem.wf = true) (h : mapCore s.pk (sigSignBit s.sig) = none) :
    (mapEffect s).aed = drawBytes s.draws 32 := by
  rcases mapEffect_cases s with ⟨x, h1, _⟩ | ⟨_, h2⟩
  · rw [h] at h1; cases h1
  · rw [State.aed, h2]
    dsimp only
    rw [readBytes_writeBytes_of_length _ _ hw (length_drawBytes s.draws 32)]

theorem byteAt_drawBytes {n i : Nat} (d : Nat) (h : i < n) : byteAt (drawBytes d n) i = Config.drawByte d i := by
  unfold drawBytes; simp [byteAt, h]

/-- The excluded input of `MapCore` (R132). -/
theorem mapCore_eq_none_iff (pk : List Byte) (sb : Byte) : mapCore pk sb = none ↔ feDecode pk = p - 1 := by
  unfold mapCore; dsimp only; split <;> simp_all

/-- What `MapCore` answers on every other input (R132). -/
theorem mapCore_eq_some {pk : List Byte} (sb : Byte) (h : feDecode pk ≠ p - 1) :
    mapCore pk sb =
      some (orByte (feEncode (feMul (feSub (feDecode pk) 1) (feInv (feAdd (feDecode pk) 1)))) 31 sb) := by
  unfold mapCore; dsimp only; rw [if_neg h]; rfl

/-- `MapCore` depends on the field element that its input decodes to (R132). -/
theorem mapCore_congr {pk pk' : List Byte} (sb : Byte) (h : feDecode pk' = feDecode pk) : mapCore pk' sb = mapCore pk sb := by
  unfold mapCore; rw [h]

/-- What the block holds of `MapCore` on an input that maps (R37, R132). -/
theorem mapCoreIntermediates_of_some {pk aed : List Byte} {sb : Byte} (h : mapCore pk sb = some aed) :
    mapCoreIntermediates pk sb = { Intermediates.zero with
      montX := BitVec.ofNat 256 (feDecode pk), edY := BitVec.ofNat 256 (edwardsY (feDecode pk)), aEd := bytesWord aed } := by
  unfold mapCoreIntermediates; rw [h]

/-- What the block holds of `MapCore` on the excluded input (R37, R132). -/
theorem mapCoreIntermediates_of_none {pk : List Byte} {sb : Byte} (h : mapCore pk sb = none) :
    mapCoreIntermediates pk sb = { Intermediates.zero with montX := BitVec.ofNat 256 (feDecode pk) } := by
  unfold mapCoreIntermediates; rw [h]

/-- The intermediates depend on the operands of the command, as it latched them, alone. -/
theorem intermediatesOf_congr (i : Instr) {s t : State} (hm : t.mem = s.mem) (hl : t.curLen = s.curLen)
    (hs : t.curSchk = s.curSchk) : intermediatesOf i t = intermediatesOf i s := by
  cases i <;> simp only [intermediatesOf, signIntermediates, mapIntermediates, verifyIntermediates, clearIntermediates, State.key,
    State.seed, State.pk, State.sig, State.message, hm, hl, hs]

/-- An accepted command holds its intermediates (R37). -/
theorem acceptCommand_holds (i : Instr) (s : State) :
    (acceptCommand i (intermediatesOf i) s).hidden = intermediatesOf i (acceptCommand i (intermediatesOf i) s) := by
  rw [acceptCommand_hidden]; exact intermediatesOf_congr (t := latchCommand i s) i rfl rfl rfl

/-- A change of the port, the agenda, the draws, ERR or ERRCODE keeps what a busy engine holds. -/
theorem busyAccepted_congr {s t : State} (h : BusyAccepted s) (hl : SameLatches s t) (hc : t.ctrl = s.ctrl)
    (hn : t.msgLen = s.msgLen) (hm : t.mem = s.mem) (hd : s.status.done = false → t.status.done = false)
    (hr : t.status.result = s.status.result) (hx : t.status.excl = s.status.excl) (ho : t.status.lastOp = s.status.lastOp) :
    BusyAccepted t := by
  intro hb
  obtain ⟨h1, h2, h3, h4, h5⟩ := hl
  obtain ⟨i, a1, a2, a3, a4, a5, a6, a7, a8, a9⟩ := h (h1 ▸ hb)
  exact ⟨i, h2.trans a1, ho.trans a2, by rw [h4, hn, a3], by rw [hn]; exact a4, fun hi => by rw [h3, hc, a5 hi],
    by rw [h5, a6, intermediatesOf_congr i hm h4 h3], hd a7, hr.trans a8, hx.trans a9⟩

/-- The intermediates of every command but SIGN depend on PK, SIG, the message and the policy alone: on no secret. -/
theorem intermediatesOf_public {i : Instr} (hi : i ≠ .sign) {s t : State} (hp : t.pk = s.pk) (hg : t.sig = s.sig)
    (hm : t.message = s.message) (hs : t.curSchk = s.curSchk) : intermediatesOf i t = intermediatesOf i s := by
  cases i
  case sign => exact absurd rfl hi
  all_goals simp only [intermediatesOf, mapIntermediates, verifyIntermediates, clearIntermediates, hp, hg, hm, hs]

/-- A sign bit as the commands read it from `SIG[63]`: bit 7 alone. -/
theorem sign_mask : ∀ x : Byte, (x &&& 0x80) &&& 0x7F = 0 ∧ (x &&& 0x80).toNat / 128 = x.toNat / 128 := by decide

/-- The integer of what `MapCore` answers: y, and the sign bit in bit 255. -/
theorem leNat_mapCore {y : Nat} (hy : y < p) {sb : Byte} (hs : sb &&& 0x7F = 0) :
    leNat (orByte (feEncode y) 31 sb) = y + 2 ^ 255 * (sb.toNat / 128) := by
  rw [leNat_orByte31 (by simp) (signBit_feEncode hy) hs, leNat_feEncode hy]

/-- `FeDecode` of the encoding of a field element (R87, R88). -/
theorem feDecode_feEncode {x : Nat} (hx : x < p) : feDecode (feEncode x) = x := by
  rw [feDecode, low255_feEncode hx, Nat.mod_eq_of_lt hx]

end Sys2Proof.Machine
end

