-- ==== Sys2Proof/Laws/PerInstr.lean ====
section
/-! SUPPORT. Statements made once for each command of spec/30_encoding.md R73. -/

namespace Sys2Proof.Laws.CommandWord

/-- A command's word is well formed, has RES = 0 (R70), holds the opcode in bits 7:0, is the little-endian word of its four bytes
(R72) and decodes to the command. -/
def Statement (i : Instr) : Prop :=
  i.wf = true ∧ (encode i).extractLsb' 8 24 = 0 ∧ (encode i).extractLsb' 0 8 = i.opcode ∧ decode (encode i) = .ok i ∧
    decodeBytes (wordBytes (encode i)) = .ok i

theorem sign : Statement .sign := by unfold Statement; decide

theorem map : Statement .map := by unfold Statement; decide

theorem verify : Statement .verify := by unfold Statement; decide

theorem clear : Statement .clear := by unfold Statement; decide

end Sys2Proof.Laws.CommandWord
end

