-- ==== Sys2Proof/Laws/Point.lean ====
section
/-! SUPPORT. The points of the block are those of the curve over `ZMod p`: `PointAdd` and `PointNeg` on the curve are the operations of
Laws/Edwards.lean (spec/40_primitives.md R94 to R96). -/

namespace Sys2Proof.Machine

-- Declarations whose proofs take seconds are checked in their turn, so that those after them do not wait in threads of their own.
set_option Elab.async false

/-- A point's coordinates in the field. -/
def Point.inField (q : Point) : ZMod p × ZMod p := (q.x, q.y)

/-- Points with coordinates below p are equal when their coordinates are equal in the field. -/
theorem Point.ext_inField {q r : Point} (hq : q.x < p ∧ q.y < p) (hr : r.x < p ∧ r.y < p) (h : q.inField = r.inField) :
    q = r := by
  obtain ⟨x, y⟩ := q
  obtain ⟨x', y'⟩ := r
  simp only [Point.inField, Prod.mk.injEq] at h
  exact Point.mk.injEq .. ▸ ⟨eq_of_cast_eq hq.1 hr.1 h.1, eq_of_cast_eq hq.2 hr.2 h.2⟩

theorem inField_neutral : neutral.inField = (0, 1) := by simp [Point.inField, neutral]

variable [Fact p.Prime]

/-- `onCurve` is the curve equation over the field, and coordinates below p. -/
theorem onCurve_iff (q : Point) :
    onCurve q = true ↔ (q.x < p ∧ q.y < p) ∧ Edwards.OnE (curveD : ZMod p) q.inField := by
  have hcast : feSub (feMul q.y q.y) (feMul q.x q.x) =
      feAdd 1 (feMul curveD (feMul (feMul q.x q.x) (feMul q.y q.y))) ↔ Edwards.OnE (curveD : ZMod p) q.inField := by
    constructor
    · intro h
      have h := congrArg (Nat.cast : Nat → ZMod p) h
      simp only [cast_feSub, cast_feAdd, cast_feMul] at h
      push_cast at h
      simp only [Edwards.OnE, Point.inField]
      linear_combination h
    · intro h
      refine eq_of_cast_eq (feSub_lt _ _) (feAdd_lt _ _) ?_
      simp only [cast_feSub, cast_feAdd, cast_feMul]
      push_cast
      simp only [Edwards.OnE, Point.inField] at h
      linear_combination h
  simp only [onCurve, Bool.and_eq_true, decide_eq_true_eq, beq_iff_eq, hcast]

omit [Fact p.Prime] in
theorem pointAdd_lt (q r : Point) : (pointAdd q r).x < p ∧ (pointAdd q r).y < p := ⟨feMul_lt _ _, feMul_lt _ _⟩

/-- `PointAdd` on the curve is the addition over the field. -/
theorem inField_pointAdd {q r : Point} (hq : onCurve q = true) (hr : onCurve r = true) :
    (pointAdd q r).inField = Edwards.add (curveD : ZMod p) q.inField r.inField := by
  have hq' := ((onCurve_iff q).1 hq).2
  have hr' := ((onCurve_iff r).1 hr).2
  have e : (curveD : ZMod p) * (q.x * r.x * (q.y * r.y)) = curveD * q.x * r.x * q.y * r.y := by ring
  have h1 := Edwards.den_add_ne curve_complete (x1 := (q.x : ZMod p)) (y1 := q.y) (x2 := r.x) (y2 := r.y) hq' hr'
  have h2 := Edwards.den_sub_ne curve_complete (x1 := (q.x : ZMod p)) (y1 := q.y) (x2 := r.x) (y2 := r.y) hq' hr'
  simp only [pointAdd, Point.inField, Edwards.add, cast_feMul, cast_feAdd]
  rw [cast_feInv, cast_feInv]
  · simp only [cast_feMul, cast_feAdd, cast_feSub, Nat.cast_one, e, div_eq_mul_inv]
  · simpa only [cast_feMul, cast_feSub, Nat.cast_one, e] using h2
  · simpa only [cast_feMul, cast_feAdd, Nat.cast_one, e] using h1

theorem inField_pointNeg (q : Point) : (pointNeg q).inField = Edwards.neg q.inField := by
  simp only [pointNeg, Point.inField, Edwards.neg, cast_feSub]
  push_cast; rw [zero_sub]

/-- The denominator of R101 is never 0. -/
theorem decode_denominator (y : Nat) : ((feAdd (feMul curveD (feMul y y)) 1 : Nat) : ZMod p) ≠ 0 := by
  intro h
  simp only [cast_feAdd, cast_feMul] at h
  push_cast at h
  apply curveD_nonsquare
  by_cases hy : (y : ZMod p) = 0
  · rw [hy] at h; simp at h
  refine ⟨sqrtMinusOne / y, ?_⟩
  rw [div_mul_div_comm, cast_sqrtMinusOne_mul_self]
  field_simp
  linear_combination h

omit [Fact p.Prime] in
/-- What `feSqrt` answers is a root. -/
theorem feSqrt_sound {t r : Nat} (h : feSqrt t = some r) : r < p ∧ feMul r r = t := by
  unfold feSqrt at h
  dsimp only at h
  split at h
  · next h1 => injection h with h; subst h; exact ⟨fePow_lt _ _, h1⟩
  · split at h
    · next h2 => injection h with h; subst h; exact ⟨feMul_lt _ _, h2⟩
    · cases h

/-- `feSqrt` finds a root of every square. -/
theorem feSqrt_complete {t s : Nat} (ht : t < p) (hs : feMul s s = t) : ∃ r, feSqrt t = some r := by
  unfold feSqrt
  dsimp only
  generalize hr : fePow t ((p + 3) / 8) = r
  have e1 : (r : ZMod p) = (t : ZMod p) ^ ((p + 3) / 8) := by
    rw [← hr]; exact cast_fePow _ _ (by have := p_lt_pow255; have := one_lt_p; omega)
  have key : feMul r r = t ∨ feMul (feMul r sqrtMinusOne) (feMul r sqrtMinusOne) = t := by
    rcases sqrt_candidate (show (s : ZMod p) * s = t by rw [← hs, cast_feMul]) with h | h | h
    · left; refine eq_of_cast_eq (feMul_lt _ _) ht ?_
      have : (p + 3) / 8 ≠ 0 := by decide +kernel
      rw [cast_feMul, e1, h]
      simp [this]
    · left; exact eq_of_cast_eq (feMul_lt _ _) ht (by rw [cast_feMul, e1, h])
    · right; refine eq_of_cast_eq (feMul_lt _ _) ht ?_
      simp only [cast_feMul, e1]
      linear_combination
        (-1 : ZMod p) * h + (t : ZMod p) ^ ((p + 3) / 8) * (t : ZMod p) ^ ((p + 3) / 8) * cast_sqrtMinusOne_mul_self
  by_cases h1 : feMul r r = t
  · exact ⟨_, if_pos h1⟩
  · rw [if_neg h1, if_pos (key.resolve_left h1)]; exact ⟨_, rfl⟩

omit [Fact p.Prime] in
/-- What `pointX` answers: the root of the parity asked for. -/
theorem pointX_some {t sign x : Nat} (h : pointX t sign = some x) :
    ∃ r, feSqrt t = some r ∧ (if r % 2 = sign then r else p - r) = x := by
  unfold pointX at h
  cases hr : feSqrt t with
  | none => rw [hr] at h; cases h
  | some r => rw [hr] at h; exact ⟨r, rfl, by injection h⟩

omit [Fact p.Prime] in
theorem onCurve_basePoint : onCurve basePoint = true := by decide +kernel

end Sys2Proof.Machine
end

