-- ==== Sys2Proof/Laws/Step.lean ====
section
/-! SUPPORT. What a step can be, said once. -/

namespace Sys2Proof.Machine

/-- The block's own turn when its engine is idle. -/
theorem ownTurn_of_idle {s : State} (h : s.eng = .idle) : ownTurn s = .done (quiet s) := by
  rw [ownTurn, if_neg (by simp [h])]

/-- The block's own turn when a command runs. -/
theorem ownTurn_of_running {s : State} {i : Instr} (h : s.eng = .busy) (ho : s.curOp = i.opcode) :
    ownTurn s = .run i (quiet s) := by
  rw [ownTurn, if_pos h, ho, decodeOpcode_opcode]

theorem turn_of_ownNext {s : State} {rest : List Event} (h : OwnNext rest s) : turn s = ownTurn (withAgenda rest s) := by
  rcases h with h | ⟨h, rfl⟩
  · unfold turn; rw [h]
  · have hs : withAgenda [] s = s := by rw [withAgenda, ← h]
    unfold turn; rw [h]; dsimp only; rw [hs]

theorem turn_of_access {s : State} {a : Access} {rest : List Event} (h : s.agenda = .access a :: rest) :
    turn s = accessTurn a (withAgenda rest s) := by unfold turn; rw [h]

theorem turn_of_reset {s : State} {rest : List Event} (h : s.agenda = .reset :: rest) :
    turn s = .done (resetBlock (withAgenda rest s)) := by unfold turn; rw [h]

/-- A legal word written to `CMD` gives its command the turn. -/
theorem accessTurn_legal {w : Word} {i : Instr} (s : State) (h : decode w = .ok i) :
    accessTurn (cmdWrite w) s = .run i (present (cmdWrite w) s) := by
  rw [accessTurn, commandWord_cmdWrite]; dsimp only; rw [h]

/-- An illegal word written to `CMD` is a command error. -/
theorem accessTurn_illegal {w : Word} {e : DecodeError} (s : State) (h : decode w = .error e) :
    accessTurn (cmdWrite w) s = .done (issueIllegal (present (cmdWrite w) s)) := by
  rw [accessTurn, commandWord_cmdWrite]; dsimp only; rw [h]

/-- Any other access is done at once. -/
theorem accessTurn_plain {a : Access} (s : State) (h : a.commandWord = none) :
    accessTurn a s = .done (accessEffect (present a s) a) := by rw [accessTurn, h]

/-- Everything a step that goes on can be. -/
theorem step_next_cases {s t : State} (h : step s = .next t) :
    (∃ rest, OwnNext rest s ∧ s.eng = .idle ∧ t = quiet (withAgenda rest s)) ∨
      (∃ i rest, OwnNext rest s ∧ s.eng = .busy ∧ s.curOp = i.opcode ∧
        t = retire (effectOf i (quiet (withAgenda rest s)))) ∨
      (∃ rest, s.agenda = .reset :: rest ∧ t = resetBlock (withAgenda rest s)) ∨
      (∃ w rest, s.agenda = .access (cmdWrite w) :: rest ∧
        ((∃ i, decode w = .ok i ∧ t = issueCommand i (intermediatesOf i) (present (cmdWrite w) (withAgenda rest s))) ∨
          (∃ e, decode w = .error e ∧ t = issueIllegal (present (cmdWrite w) (withAgenda rest s))))) ∨
      (∃ a rest, s.agenda = .access a :: rest ∧ a.commandWord = none ∧
        t = accessEffect (present a (withAgenda rest s)) a) := by
  have own : ∀ rest, OwnNext rest s →
      (∃ rest, OwnNext rest s ∧ s.eng = .idle ∧ t = quiet (withAgenda rest s)) ∨
        (∃ i rest, OwnNext rest s ∧ s.eng = .busy ∧ s.curOp = i.opcode ∧
          t = retire (effectOf i (quiet (withAgenda rest s)))) := by
    intro rest hn
    rw [step, turn_of_ownNext hn] at h
    cases he : s.eng with
    | idle =>
      rw [ownTurn_of_idle (by simpa using he)] at h
      injection h with h
      exact .inl ⟨rest, hn, rfl, h.symm⟩
    | busy =>
      rw [ownTurn, if_pos (by simpa using he)] at h
      cases hd : decodeOpcode s.curOp with
      | none => rw [withAgenda_curOp, hd] at h; cases h
      | some j =>
        have hop := eq_opcode_of_decodeOpcode hd
        rw [withAgenda_curOp, hd] at h
        dsimp only at h
        rw [exec_of_running (by simp) (by simpa using he) (by simpa using hop)] at h
        injection h with h
        exact .inr ⟨j, rest, hn, rfl, hop, h.symm⟩
  cases hag : s.agenda with
  | nil =>
    rcases own [] (.inr ⟨hag, rfl⟩) with h | h
    · exact .inl h
    · exact .inr (.inl h)
  | cons e rest =>
    cases e with
    | complete =>
      rcases own rest (.inl hag) with h | h
      · exact .inl h
      · exact .inr (.inl h)
    | reset =>
      rw [step, turn_of_reset hag] at h
      injection h with h
      exact .inr (.inr (.inl ⟨rest, rfl, h.symm⟩))
    | access a =>
      rw [step, turn_of_access hag] at h
      cases hw : a.commandWord with
      | none =>
        rw [accessTurn_plain _ hw] at h
        injection h with h
        exact .inr (.inr (.inr (.inr ⟨a, rest, rfl, hw, h.symm⟩)))
      | some w =>
        have ha := commandWord_eq_some hw
        subst ha
        refine .inr (.inr (.inr (.inl ⟨w, rest, rfl, ?_⟩)))
        cases hd : decode w with
        | ok i =>
          rw [accessTurn_legal _ hd] at h
          dsimp only at h
          rw [exec_of_port (present_port _ _)] at h
          injection h with h
          exact .inl ⟨i, rfl, h.symm⟩
        | error e =>
          rw [accessTurn_illegal _ hd] at h
          injection h with h
          exact .inr ⟨e, rfl, h.symm⟩

/-- The step of a write to `CMD` of a legal word. -/
theorem step_of_legal {s : State} {w : Word} {rest : List Event} {i : Instr} (h : NextAccess (cmdWrite w) rest s)
    (hd : decode w = .ok i) : step s = .next (issueCommand i (intermediatesOf i) (present (cmdWrite w) (withAgenda rest s))) := by
  rw [step, turn_of_access h, accessTurn_legal _ hd]
  exact exec_of_port (present_port _ _)

/-- The step of a write to `CMD` of an illegal word. -/
theorem step_of_illegal {s : State} {w : Word} {rest : List Event} {e : DecodeError} (h : NextAccess (cmdWrite w) rest s)
    (hd : decode w = .error e) : step s = .next (issueIllegal (present (cmdWrite w) (withAgenda rest s))) := by
  rw [step, turn_of_access h, accessTurn_illegal _ hd]

/-- The step of any other access. -/
theorem step_of_plain {s : State} {a : Access} {rest : List Event} (h : NextAccess a rest s) (hc : a.commandWord = none) :
    step s = .next (accessEffect (present a (withAgenda rest s)) a) := by
  rw [step, turn_of_access h, accessTurn_plain _ hc]

/-- A full-word read at a mapped multiple of 4 (R55): its word is the answer and the block does not change. -/
theorem step_of_wordRead {s : State} {off : Offset} {rest : List Event} (h : NextAccess (wordRead off) rest s)
    (h4 : off.toNat % 4 = 0) (hm : Mapped off.toNat) :
    step s = .next
      { s with agenda := rest, port := some (wordRead off), response := some (.value (readValue s off.toNat)) } := by
  have hb : (wordRead off).isBusError = false := by
    rw [Bool.eq_false_iff, ne_eq, isBusError_iff]
    simp [wordRead, BreaksBusRules, h4, hm]
  rw [step_of_plain h rfl]
  simp only [accessEffect, wordRead, present, answer] at hb ⊢
  rw [hb]; rfl

/-- A full-word write that is no bus error and no command (R56). -/
theorem step_of_wordWrite {s : State} {off : Offset} {v : Word} {rest : List Event}
    (h : NextAccess (wordWrite off v) rest s) (hb : (wordWrite off v).isBusError = false)
    (hc : (wordWrite off v).commandWord = none) :
    step s = .next (writeValue off.toNat v
      { s with agenda := rest, port := some (wordWrite off v), response := some .written }) := by
  rw [step_of_plain h hc]
  simp only [accessEffect, wordWrite, present, answer] at hb ⊢
  rw [hb]; rfl

/-- The block's own step when idle. -/
theorem step_of_idle {s : State} {rest : List Event} (h : OwnNext rest s) (he : s.eng = .idle) :
    step s = .next (quiet (withAgenda rest s)) := by
  rw [step, turn_of_ownNext h, ownTurn_of_idle (by simpa using he)]

/-- The block's own step when a command runs: its completion. -/
theorem step_of_running {s : State} {rest : List Event} {i : Instr} (h : OwnNext rest s) (he : s.eng = .busy)
    (ho : s.curOp = i.opcode) : step s = .next (retire (effectOf i (quiet (withAgenda rest s)))) := by
  rw [step, turn_of_ownNext h, ownTurn_of_running (by simpa using he) (by simpa using ho)]
  exact exec_of_running (by simp) (by simpa using he) (by simpa using ho)

/-- A step stops only in a state whose engine is busy with no command of the table (R187). -/
theorem step_stops {s : State} (h : ∀ t, step s ≠ .next t) : s.eng = .busy ∧ decodeOpcode s.curOp = none := by
  by_contra hc
  have hgo : s.eng = .idle ∨ ∃ i : Instr, s.eng = .busy ∧ s.curOp = i.opcode := by
    cases he : s.eng with
    | idle => exact .inl rfl
    | busy =>
      cases hd : decodeOpcode s.curOp with
      | none => exact absurd ⟨he, hd⟩ hc
      | some i => exact .inr ⟨i, rfl, eq_opcode_of_decodeOpcode hd⟩
  have own : ∀ rest, OwnNext rest s → False := fun rest hn => by
    rcases hgo with he | ⟨i, he, ho⟩
    · refine h (quiet (withAgenda rest s)) ?_
      rw [step, turn_of_ownNext hn, ownTurn_of_idle (by simpa using he)]
    · refine h (retire (effectOf i (quiet (withAgenda rest s)))) ?_
      rw [step, turn_of_ownNext hn, ownTurn_of_running (by simpa using he) (by simpa using ho)]
      exact exec_of_running (by simp) (by simpa using he) (by simpa using ho)
  cases hag : s.agenda with
  | nil => exact own [] (.inr ⟨hag, rfl⟩)
  | cons e rest =>
    cases e with
    | complete => exact own rest (.inl hag)
    | reset => exact h (resetBlock (withAgenda rest s)) (by rw [step, turn_of_reset hag])
    | access a =>
      rw [step, turn_of_access hag] at h
      cases hw : a.commandWord with
      | none => rw [accessTurn_plain _ hw] at h; exact h _ rfl
      | some w =>
        have ha := commandWord_eq_some hw
        subst ha
        cases hd : decode w with
        | ok i => rw [accessTurn_legal _ hd] at h; exact h _ (exec_of_port (present_port _ _))
        | error e => rw [accessTurn_illegal _ hd] at h; exact h _ rfl

end Sys2Proof.Machine
end

