-- ==== Sys2Proof/Tests/Slice0.lean ====
section
/-! SUPPORT. The model's own tests. Every expected value is written out from spec/ (the vector or rule is named); the witnesses
at the end show states and operands that meet the hypotheses of the statements in Certificates/Slice0/Obligations.lean. -/

namespace Sys2Proof.Tests

-- Declarations whose proofs take seconds are checked in their turn, so that those after them do not wait in threads of their own.
set_option Elab.async false

open Sys2Proof.Machine

/-! ### Helpers -/

/-- The reset state with events to come. -/
def idleWith (events : List Event) : State := withAgenda events State.reset

/-- A state in which a command runs that was accepted in the reset state, over a memory. -/
def running (i : Instr) (m : Memory) : State :=
  let s : State := { State.reset with
    eng := .busy, curOp := i.opcode, curSchk := if i = .verify then 2 else 0, mem := m
    status := ⟨false, false, false, false, 0, i.opcode⟩ }
  { s with hidden := intermediatesOf i s }

/-- The state after a step that goes on. -/
def after (s : State) : State :=
  match step s with
  | .next t => t
  | .fault _ => s
  | .refused _ => s

/-- The state after a step that takes one event. -/
def afterEvent (e : Event) (s : State) : State := after (withAgenda [e] s)

/-- A memory in which `KEY` is 0 but for `KEY[31]` = 0x40: the smallest clamped key. -/
def clampedKey : Memory := [(0x11F, 0x40)]

/-- The key K1 of spec/95_test_vectors.md 2.1. -/
def keyK1 : List Byte := (List.range 31).map (BitVec.ofNat 8) ++ [0x5F]

/-! ### Well-formed words and parameters -/

theorem test_wf_reserved_bits : (CmdWord.mk 1 0x01).wf = false ∧ (CmdWord.mk 1 0x01).opcodeKnown = true := by decide

theorem test_wf_opcode : (CmdWord.mk 0 0x05).wf = false ∧ (CmdWord.mk 0 0x05).reservedZero = true := by decide

theorem test_wf_commands : ∀ i : Instr, i.wf = true := by intro i; cases i <;> decide

theorem test_legal_msg_cap :
    legalMsgCap 6 = false ∧ legalMsgCap 0 = false ∧ legalMsgCap 61444 = false ∧ legalMsgCap 4 = true ∧
      legalMsgCap 61440 = true := by decide

/-! ### Decoding, from the table of R73: RES (bits 31:8) then OPC (bits 7:0) -/

theorem test_decode_sign : decode 0b000000000000000000000000_00000001#32 = .ok .sign := by decide

theorem test_decode_map : decode 0b000000000000000000000000_00000010#32 = .ok .map := by decide

theorem test_decode_verify : decode 0b000000000000000000000000_00000011#32 = .ok .verify := by decide

theorem test_decode_clear : decode 0b000000000000000000000000_00000100#32 = .ok .clear := by decide

/-- R74: OPC 0x00 and 0xFF, and SIGN's opcode under the lowest and the highest bit of RES. -/
theorem test_decode_illegal :
    decode 0b000000000000000000000000_00000000#32 = .error .unknownOpcode ∧
      decode 0b000000000000000000000000_11111111#32 = .error .unknownOpcode ∧
      decode 0b000000000000000000000001_00000001#32 = .error .reservedBits ∧
      decode 0b100000000000000000000000_00000001#32 = .error .reservedBits := by decide

theorem test_decode_bytes :
    decodeBytes [0x03, 0x00, 0x00, 0x00] = .ok .verify ∧ decodeBytes [0x00, 0x00, 0x00, 0x03] = .error .reservedBits ∧
      decodeBytes [0x03] = .error .notOneWord := by decide

theorem test_decode_table_word : decodeTableWord 32 4 = some .clear ∧ decodeTableWord 8 2 = some .map := by decide

/-- The very next step runs the word placed: `LASTOP` is its opcode and the engine is busy. -/
theorem test_fetch_word :
    (after (State.reset.withFetchWord 32 1)).statusWord = 0x00010001 ∧
      (after (State.reset.withFetchWord 32 2)).statusWord = 0x00020001 ∧
      (after (State.reset.withFetchWord 32 3)).statusWord = 0x00030001 ∧
      (after (State.reset.withFetchWord 32 4)).statusWord = 0x00040001 := by decide

/-! ### Primitives -/

/-- R103: the digest of "abc" begins dd af 35 a1 93 61 7a ba. -/
theorem test_hash512_abc :
    (hash512 [0x61, 0x62, 0x63]).take 8 = [0xDD, 0xAF, 0x35, 0xA1, 0x93, 0x61, 0x7A, 0xBA] := by decide +kernel

/-- R105: `LE(DIVERSIFIER)` is 2^256 - 2. -/
theorem test_diversifier : leNat diversifier = 2 ^ 256 - 2 ∧ diversifier.length = 32 := by decide +kernel

/-- R94: d is -121665/121666. -/
theorem test_curveD : feMul curveD 121666 = feSub 0 121665 := by decide +kernel

/-- R91: L in hexadecimal. -/
theorem test_groupOrder :
    groupOrder = 0x1000000000000000000000000000000014DEF9DEA2F79CD65812631A5CF5D3ED := by decide +kernel

/-- R100: the encoding of O is 01 00 .. 00. -/
theorem test_pointEncode_neutral : pointEncode neutral = 0x01 :: zeros 31 := by decide +kernel

/-! ### SIGN -/

/-- S-1, `KEY` = K1, "abc" and a zero seed: r, h and s from the vector's Renc and Aenc; and W4: 0x03 and 0xa7 give 0x83. The whole
signature takes the kernel too long. -/
theorem test_sign_s1 :
    let m : List Byte := [0x61, 0x62, 0x63]
    let aenc := beBytes 32 0x1ac105ea144728da5ebea01e5ee75d70584f1f3cd448b1ec7c2bddda3fbd1f0e
    let renc := beBytes 32 0x1a0c65a2f30f36339296fa914a700cdc2434a701d0f51991020c801bbe17075a
    let r := leNat (beBytes 32 0xee70d0a166c75d62957c0442d3967de4d3a4f62cc10fb0b7ada8e04b6bcc9004)
    let h := leNat (beBytes 32 0x0ef0f6cd5c6a760d3e2c18264994ab02d21ca4b2193b50aac27986732d65de0b)
    signNonce keyK1 m (zeros 64) = r ∧ challenge renc aenc m = h ∧
      leBytes 32 (scMulAdd h (leNat keyK1) r) = beBytes 32 0x4bae27b8b3d7bd0f744a5e5855468bbeddf56ec79dcbb8b50ddf7598cb538e0f ∧
      byteAt (embedSign (zeros 63 ++ [0x03]) (zeros 31 ++ [0xA7])) 63 = 0x83 := by
  decide +kernel

/-- S-6: an unclamped key; SEED is zeroed and STATUS is 0x0001_0002. -/
theorem test_sign_unclamped :
    ∃ t, step (running .sign [(0x120, 7)]) = .next t ∧ t.statusWord = 0x00010002 ∧ t.seed = zeros 64 :=
  ⟨_, step_of_running (i := .sign) (rest := []) (.inr ⟨rfl, rfl⟩) rfl rfl, by decide,
    seed_signEffect (s := quiet (withAgenda [] (running .sign [(0x120, 7)]))) rfl⟩

/-! ### MAP -/

/-- M-2: u = 9 with sign bit 1 gives 58 66 .. 66 e6, and STATUS is 0x0002_0002. -/
theorem test_map_m2 :
    (after (running .map [(0x160, 9), (0x1BF, 0x80)])).aed = 0x58 :: (List.replicate 30 0x66 ++ [0xE6]) ∧
      (after (running .map [(0x160, 9), (0x1BF, 0x80)])).statusWord = 0x00020002 := by decide +kernel

/-- M-8: p - 1 is excluded, and STATUS is 0x0002_000A. -/
theorem test_map_m8 :
    (after (running .map (writeBytes [] pkBase (0xEC :: (List.replicate 30 0xFF ++ [0x7F]))))).statusWord = 0x0002000A := by
  decide +kernel

/-! ### VERIFY -/

/-- R149: with u = 0 the public point is (0, p - 1), of order 2, so S = 0 verifies against R = O when the challenge is
even; the message 01 makes it so. Every policy accepts S = 0. -/
theorem test_verify_order_two :
    equationHolds (0x01 :: zeros 31) (0xEC :: (List.replicate 30 0xFF ++ [0x7F])) [0x01] 0 ⟨0, p - 1⟩ = true := by decide +kernel

/-- V-18: p - 1 as PK gives RESULT = 0 and EXCL = 0: STATUS is 0x0003_0002. -/
theorem test_verify_v18 :
    (after (running .verify (writeBytes [] pkBase (0xEC :: (List.replicate 30 0xFF ++ [0x7F]))))).statusWord = 0x00030002 := by
  decide +kernel

/-! ### CLEAR -/

/-- X-2: every buffer 0, ERR and ERRCODE kept: STATUS is 0x0004_0112. -/
theorem test_clear_x2 :
    (after { running .clear clampedKey with status := ⟨false, false, false, true, 1, 4⟩ }).statusWord = 0x00040112 ∧
      readByte (after (running .clear clampedKey)).mem 0x11F = 0 := by decide +kernel

/-! ### Registers and errors -/

/-- E-2 and E-3. -/
theorem test_ctrl_e2_e3 :
    (afterEvent (.access (wordWrite 0x000 0x6)) State.reset).ctrl.word = 0x4 ∧
      (afterEvent (.access (wordWrite 0x000 0xFFFFFFF3)) State.reset).ctrl.word = 0x3 := by decide

/-- E-4, E-5 and E-6. -/
theorem test_illegal_e4_e5_e6 :
    (afterEvent (.access (cmdWrite 0x000)) State.reset).statusWord = 0x110 ∧
      (afterEvent (.access (cmdWrite 0x105)) State.reset).statusWord = 0x110 ∧
      (afterEvent (.access (cmdWrite 0x101)) State.reset).statusWord = 0x110 := by decide

/-- E-9: a write of 0x12 to STATUS after E-8. -/
theorem test_status_e9 :
    (afterEvent (.access (wordWrite 0x004 0x12)) { State.reset with status := ⟨true, false, false, true, 3, 2⟩ }).statusWord =
      0x00020000 := by decide

/-- E-10, E-11 and E-12, with CLEAR running. -/
theorem test_busy_e10_e11_e12 :
    (afterEvent (.access (cmdWrite 1)) (running .clear [])).statusWord = 0x00040211 ∧
      (afterEvent (.access (wordWrite 0x160 0x12345678)) (running .clear [])).mem = [] ∧
      (afterEvent (.access (wordWrite 0x004 0x10)) { running .clear [] with status := ⟨false, false, false, true, 2, 4⟩ }).statusWord =
        0x00040001 := by decide

/-- E-13 and E-14. -/
theorem test_write_only_e13_e14 :
    (afterEvent (.access (wordRead 0x11C)) { State.reset with mem := clampedKey }).response = some (.value 0) ∧
      (afterEvent (.access (wordRead 0x008)) State.reset).response = some (.value 0) := by decide

/-- R53: a word's bytes, the least significant at the lowest offset. -/
theorem test_lanes :
    (afterEvent (.access (wordWrite 0x160 0x12345678)) State.reset).mem =
      [(0x160, 0x78), (0x161, 0x56), (0x162, 0x34), (0x163, 0x12)] := by decide

/-- B-1 to B-5, B-7 and B-8. -/
theorem test_bus_errors :
    (afterEvent (.access (wordRead 0x014)) State.reset).response = some (.busError 0x014) ∧
      (afterEvent (.access (wordWrite 0x1C0 0)) State.reset).response = some (.busError 0x1C0) ∧
      (afterEvent (.access (wordWrite 0x010 0)) State.reset).response = some (.busError 0x010) ∧
      (afterEvent (.access (wordWrite 0x102 0)) State.reset).response = some (.busError 0x102) ∧
      (afterEvent (.access (.write 0x160 .w8 0xF 0)) State.reset).response = some (.busError 0x160) ∧
      (afterEvent (.access (wordWrite 0x1E0 0)) State.reset).response = some (.busError 0x1E0) ∧
      (afterEvent (.access (wordWrite 0x1C0 0)) (running .clear [])).status.err = false := by decide

/-- B-6: `RD MSG+MSG_CAP` is a bus error for every capacity, the largest too, for which the offset lies past the window. -/
theorem test_read_past_msg_b6 :
    ((HostRun.start State.reset).move [.rd (.named .msg Config.msgCap) ⟨"t", none⟩] .host).status = .busErrored := by
  have hc := msgCap_legal
  show ((HostRun.start State.reset).accessAt (0x1000 + Config.msgCap) (fun o => .read o .w32) _).status = _
  unfold HostRun.accessAt windowSize
  split
  · next hw =>
    have hb : (wordRead (BitVec.ofNat 16 (0x1000 + Config.msgCap))).isBusError = true := by
      refine (isBusError_iff _).2 (.inr (.inr ?_))
      rw [BitVec.toNat_ofNat, Nat.mod_eq_of_lt hw]
      unfold Mapped; omega
    have hs : busStep (wordRead (BitVec.ofNat 16 (0x1000 + Config.msgCap))) State.reset = _ := step_of_plain rfl rfl
    have ha (s : State) : answer s (wordRead (BitVec.ofNat 16 (0x1000 + Config.msgCap))) = .busError _ := if_pos hb
    show (HostRun.afterAccess _ (busStep (wordRead _) State.reset) _).status = _
    rw [hs]
    simp only [HostRun.afterAccess, accessEffect, wordRead, present_response] at ha ⊢
    rw [ha]
  · rfl

/-- R187: a busy engine with no command of the table in CUR_OP stops. -/
theorem test_stops_without_command : step { State.reset with eng := .busy } = .fault .noPendingCommand := rfl

/-- R77: the words `LOAD MSG, 616263` writes, and what `CLRST` writes. -/
theorem test_expansions :
    (HostLine.load (.named .msg 0) [0x61, 0x62, 0x63]).expand 0 = [.wr (.named .msg 0) 0x00636261] ∧
      HostLine.clrst.expand 0 = [.wr (.named .status 0) 0x12] := by decide

end Sys2Proof.Tests
end

