-- ==== Sys2Proof/Tests/Witnesses.lean ====
section
/-! SUPPORT. For each statement of Certificates/Slice0/Obligations.lean that has hypotheses, states and operands that meet all of
them together, named after the statement; where a statement has clauses, a witness for each at a boundary of its range. -/

namespace Sys2Proof.Tests

-- Declarations whose proofs take seconds are checked in their turn, so that those after them do not wait in threads of their own.
set_option Elab.async false

open Sys2Proof.Machine

/-- SIGN running on a clamped key. -/
def signing : State := running .sign clampedKey

/-- The memory whose PK is the excluded element p - 1, with bit 255 clear or set. -/
def excludedPk (top : Byte) : Memory := writeBytes [] pkBase (0xEC :: (List.replicate 30 0xFF ++ [top]))

/-! ### Reset and the invariant -/

theorem witness_ResetLeavesTheListedValues : (withAgenda [.reset] signing).agenda = .reset :: [] ∧ signing.eng = .busy := by decide

/-- A running command over a sound memory meets the invariant when its latched policy is that of CTRL. -/
theorem inv_running (i : Instr) {m : Memory} (hw : m.wf = true) (hb : m.inBuffers = true) : (running i m).Inv := by
  have h2 : (2 : BitVec 2) ≠ 3 := by decide
  have h0 : (0 : BitVec 2) ≠ 3 := by decide
  refine ⟨⟨hw, hb⟩, ⟨h2, ?_⟩, (fun h => nomatch h), fun _ => ?_, ⟨⟨(fun h => nomatch h), fun h => absurd rfl h⟩, Nat.zero_le _⟩, ?_⟩
  · cases i <;> first | exact h0 | exact h2
  · refine ⟨i, rfl, rfl, rfl, fun _ => Nat.zero_le _, fun h => ?_, intermediatesOf_congr i rfl rfl rfl, rfl, rfl, rfl⟩
    subst h; rfl
  · exact ⟨.inr ⟨i, rfl⟩, fun h => (nomatch h), fun h => (nomatch h), fun h => (nomatch h)⟩

/-- A busy state over a memory that lists bytes meets the invariant. -/
theorem inv_signing : signing.Inv := inv_running .sign (by decide) (by decide)

theorem witness_EveryStepKeepsTheInvariant : signing.Inv ∧ ∃ t, step signing = .next t :=
  ⟨inv_signing, _, step_of_running (i := .sign) (rest := []) (.inr ⟨rfl, rfl⟩) rfl rfl⟩

theorem witness_InvariantStatesNeverStop : signing.Inv := inv_signing

/-! ### Command words -/

theorem witness_IllegalWordRaisesErrorOneOnly :
    State.reset.eng = .idle ∧ NextAccess (cmdWrite 0x105) [] (idleWith [.access (cmdWrite 0x105)]) ∧
      (∀ i, (0x105 : Word) ≠ encode i) ∧ ∀ i, (0 : Word) ≠ encode i :=
  ⟨rfl, rfl, by intro i; cases i <;> decide, by intro i; cases i <;> decide⟩

/-- The length one above the capacity, and the capacity itself, as words. -/
theorem capacity_words :
    (BitVec.ofNat 32 (Config.msgCap + 1)).toNat = Config.msgCap + 1 ∧ (BitVec.ofNat 32 Config.msgCap).toNat = Config.msgCap := by
  have := msgCap_legal
  constructor <;> rw [BitVec.toNat_ofNat, Nat.mod_eq_of_lt (by omega)]

/-- The four clauses: busy; idle and illegal; SIGN one byte over the capacity; SIGN at the capacity, and MAP over it. -/
theorem witness_CommandWriteChecksInOrder :
    NextAccess (cmdWrite 1) [] (withAgenda [.access (cmdWrite 1)] signing) ∧ signing.eng = .busy ∧ State.reset.eng = .idle ∧
      decode 0x101 = .error .reservedBits ∧ decode 1 = .ok .sign ∧ decode 2 = .ok .map ∧
      Config.msgCap < (BitVec.ofNat 32 (Config.msgCap + 1)).toNat ∧
      ¬ ((Instr.sign = .sign ∨ Instr.sign = .verify) ∧ Config.msgCap < (BitVec.ofNat 32 Config.msgCap).toNat) ∧
      ¬ ((Instr.map = .sign ∨ Instr.map = .verify) ∧ Config.msgCap < (0xFFFFFFFF : Word).toNat) := by
  refine ⟨rfl, rfl, rfl, by decide, by decide, by decide, ?_, ?_, by decide⟩
  · rw [capacity_words.1]; omega
  · rw [capacity_words.2]; omega

theorem witness_StepRunsTheDecodedCommand :
    (NextAccess (cmdWrite 4) [] (idleWith [.access (cmdWrite 4)]) ∧ decode 4 = .ok .clear) ∧
      (OwnNext [] signing ∧ signing.eng = .busy ∧ signing.curOp = Instr.sign.opcode) ∧
      (OwnNext [] (idleWith [.complete]) ∧ State.reset.eng = .idle) :=
  ⟨⟨rfl, by decide⟩, ⟨.inr ⟨rfl, rfl⟩, rfl, rfl⟩, .inl rfl, rfl⟩

/-! ### Accept -/

theorem witness_AcceptStartsTheCommand :
    (Presented .sign { State.reset with port := some (cmdWrite 1), msgLen := BitVec.ofNat 32 Config.msgCap } ∧
        State.reset.eng = .idle ∧
        ((Instr.sign = .sign ∨ Instr.sign = .verify) → (BitVec.ofNat 32 Config.msgCap).toNat ≤ Config.msgCap)) ∧
      (Presented .map { State.reset with port := some (cmdWrite 2), msgLen := 0xFFFFFFFF } ∧
        ((Instr.map = .sign ∨ Instr.map = .verify) → (0xFFFFFFFF : Word).toNat ≤ Config.msgCap)) ∧
      signing.eng = .busy ∧ NextAccess (wordWrite 0x100 0) [] (withAgenda [.access (wordWrite 0x100 0)] signing) := by
  refine ⟨⟨rfl, rfl, fun _ => ?_⟩, ⟨rfl, by decide⟩, rfl, rfl⟩
  rw [capacity_words.2]

/-! ### SIGN -/

theorem witness_SignCompletesWithTheSignature : Running .sign signing ∧ signing.mem.wf = true ∧ clamped signing.key = true :=
  ⟨⟨rfl, rfl, rfl⟩, by decide, by decide⟩

theorem witness_SignOfUnclampedKeyCompletesWithADraw :
    Running .sign (running .sign []) ∧ (running .sign []).mem.wf = true ∧ clamped (running .sign []).key = false :=
  ⟨⟨rfl, rfl, rfl⟩, by decide, by decide⟩

theorem witness_SignConsumesTheSeed :
    Running .sign (running .sign [(0x120, 7)]) ∧ (running .sign [(0x120, 7)]).mem.wf = true := ⟨⟨rfl, rfl, rfl⟩, by decide⟩

theorem witness_SignLeavesTheRestUnchanged : Running .sign signing := ⟨rfl, rfl, rfl⟩

/-- Two states that differ in PK, SIG, AED, CTRL and MSG past the message. -/
theorem witness_SignDependsOnItsOperandsOnly :
    let s := signing
    let s' := { running .sign [(0x11F, 0x40), (0x160, 1), (0x180, 2), (0x1C0, 3), (0x1000, 4)] with ctrl := ⟨true, 0⟩ }
    Running .sign s ∧ Running .sign s' ∧ s.mem.wf = true ∧ s'.mem.wf = true ∧ clamped s.key = true ∧ s'.curLen = s.curLen ∧
      ∀ a, (keyBase ≤ a ∧ a < keyBase + 32) ∨ (seedBase ≤ a ∧ a < seedBase + 64) ∨
        (msgBase ≤ a ∧ a < msgBase + s.curLen.toNat) → readByte s'.mem a = readByte s.mem a := by
  refine ⟨⟨rfl, rfl, rfl⟩, ⟨rfl, rfl, rfl⟩, by decide, by decide, by decide, rfl, fun a ha => ?_⟩
  have h0 : (signing.curLen).toNat = 0 := rfl
  rw [h0] at ha
  unfold keyBase seedBase msgBase at ha
  simp only [signing, running, clampedKey, readByte]
  split
  · rfl
  · rw [if_neg (by omega), if_neg (by omega), if_neg (by omega), if_neg (by omega)]

/-! ### MAP -/

theorem witness_MapCompletesWithTheMappedKey :
    Running .map (running .map []) ∧ (running .map []).mem.wf = true ∧ leNat (running .map []).pk % 2 ^ 255 % p ≠ p - 1 :=
  ⟨⟨rfl, rfl, rfl⟩, by decide, by decide +kernel⟩

/-- The excluded element's two encodings. -/
theorem witness_MapOfExcludedInputCompletes :
    (Running .map (running .map (excludedPk 0x7F)) ∧ (running .map (excludedPk 0x7F)).mem.wf = true ∧
        leNat (running .map (excludedPk 0x7F)).pk % 2 ^ 255 % p = p - 1) ∧
      Running .map (running .map (excludedPk 0xFF)) ∧ (running .map (excludedPk 0xFF)).mem.wf = true ∧
        leNat (running .map (excludedPk 0xFF)).pk % 2 ^ 255 % p = p - 1 :=
  ⟨⟨⟨rfl, rfl, rfl⟩, by decide +kernel, by decide +kernel⟩, ⟨rfl, rfl, rfl⟩, by decide +kernel, by decide +kernel⟩

theorem witness_MapLeavesTheRestUnchanged : Running .map (running .map clampedKey) := ⟨rfl, rfl, rfl⟩

theorem witness_MapIgnoresTheTopBitOfPk :
    (zeros 32).length = 32 ∧ (0x80 : Byte) &&& 0x7F = byteAt (zeros 32) 31 &&& 0x7F ∧ Running .map (running .map []) :=
  ⟨by decide, by decide, rfl, rfl, rfl⟩

/-- The lowest value that is reduced, the highest with bit 255 set, and the two strings of the excluded element. -/
theorem witness_MapReducesNonCanonicalInputs :
    (∀ v ∈ [p, 2 ^ 256 - 1], (leBytes 32 v).length = 32 ∧ p ≤ leNat (leBytes 32 v) % 2 ^ 255) ∧
      (leBytes 32 (p - 1)).length = 32 ∧ (leBytes 32 (p - 1 + 2 ^ 255)).length = 32 := by decide +kernel

theorem witness_MapIsInjective :
    0 < p ∧ p - 2 < p ∧ (mapCore (feEncode 0) (if true then 0x80 else 0)).isSome = true ∧
      (mapCore (feEncode (p - 2)) (if false then 0x80 else 0)).isSome = true := by decide +kernel

/-! ### VERIFY -/

theorem witness_VerifyCompletesWithItsVerdict : Running .verify (running .verify clampedKey) := ⟨rfl, rfl, rfl⟩

theorem witness_VerifyHasNoSideEffect : Running .verify (running .verify clampedKey) := ⟨rfl, rfl, rfl⟩

theorem witness_VerifyOfExcludedInputIsFalse :
    (Running .verify (running .verify (excludedPk 0x7F)) ∧
        leNat (running .verify (excludedPk 0x7F)).pk % 2 ^ 255 % p = p - 1) ∧
      Running .verify (running .verify (excludedPk 0xFF)) ∧
        leNat (running .verify (excludedPk 0xFF)).pk % 2 ^ 255 % p = p - 1 :=
  ⟨⟨⟨rfl, rfl, rfl⟩, by decide +kernel⟩, ⟨rfl, rfl, rfl⟩, by decide +kernel⟩

/-- The scalars on either side of both bounds, all with the sign bit set; each meets one clause of each pair. -/
theorem witness_CanonicalPolicyTable :
    ∀ s ∈ [2 ^ 253 - 1, 2 ^ 253, groupOrder - 1, groupOrder],
      (zeros 32 ++ leBytes 32 (s + 2 ^ 255)).length = 64 ∧
        leNat ((zeros 32 ++ leBytes 32 (s + 2 ^ 255)).drop 32) % 2 ^ 255 = s := by decide +kernel

theorem witness_VerifyIgnoresTheTopBitOfPk :
    (zeros 32).length = 32 ∧ (0x80 : Byte) &&& 0x7F = byteAt (zeros 32) 31 &&& 0x7F := by decide

/-- A signature that verifies under every policy: the one of `test_verify_order_two`. -/
theorem verifies_order_two (schk : BitVec 2) : verifies schk (zeros 32) [0x01] (0x01 :: zeros 63) = true := by
  have h1 : mapCore (andByte (zeros 32) 31 0x7F) (sigSignBit (0x01 :: zeros 63)) =
      some (0xEC :: (List.replicate 30 0xFF ++ [0x7F])) := by decide +kernel
  have h2 : pointDecode (0xEC :: (List.replicate 30 0xFF ++ [0x7F])) = some ⟨0, p - 1⟩ := by decide +kernel
  have h3 : strippedS (0x01 :: zeros 63) = 0 := by decide +kernel
  have h4 : sigR (0x01 :: zeros 63) = 0x01 :: zeros 31 := by decide +kernel
  have h5 : schkAccepts schk 0 = true := by revert schk; decide +kernel
  unfold verifies
  rw [h1]
  simp only [h2, h3, h4, h5, test_verify_order_two, Bool.and_self]

/-- S = 0 and S' = L, the rest the same; then S' = S, for the clauses under 1 and 2. -/
theorem witness_MalleabilityByPolicy :
    let sig := 0x01 :: zeros 63
    let sig' := 0x01 :: (zeros 31 ++ leBytes 32 groupOrder)
    sig.length = 64 ∧ sig'.length = 64 ∧ sig'.take 32 = sig.take 32 ∧ byteAt sig' 63 &&& 0x80 = byteAt sig 63 &&& 0x80 ∧
      leNat (sig'.drop 32) % 2 ^ 255 % groupOrder = leNat (sig.drop 32) % 2 ^ 255 % groupOrder ∧
      leNat (sig'.drop 32) % 2 ^ 255 = groupOrder ∧ groupOrder < 2 ^ 253 ∧ verifies 0 (zeros 32) [0x01] sig = true ∧
      verifies 1 (zeros 32) [0x01] sig = true ∧ verifies 2 (zeros 32) [0x01] sig = true :=
  ⟨by decide +kernel, by decide +kernel, by decide +kernel, by decide +kernel, by decide +kernel, by decide +kernel,
    by decide +kernel, verifies_order_two 0, verifies_order_two 1, verifies_order_two 2⟩

/-- The verifying state of a round trip: SIG and PK as SIGN and R107 give them. -/
theorem witness_SignThenVerifyIsTrue :
    ∃ s t s' : State, Running .sign s ∧ s.mem.wf = true ∧ clamped s.key = true ∧ exec .sign s = .next t ∧ Running .verify s' ∧
      s'.sig = t.sig ∧ s'.message = s.message ∧ s'.pk = montgomeryPublicKey s.key := by
  obtain ⟨pk, hpk⟩ : ∃ pk, pk = montgomeryPublicKey signing.key := ⟨_, rfl⟩
  have hl : pk.length = 32 := by rw [hpk, montgomeryPublicKey, length_feEncode]
  have hs := sig_signEffect (s := signing) (by decide)
  have hsl := length_signResult signing
  generalize signResult signing = sig at hs hsl
  refine ⟨signing, retire (signEffect signing), running .verify (writeBytes (writeBytes [] pkBase pk) sigBase sig),
    ⟨rfl, rfl, rfl⟩, by decide, by decide, exec_of_running rfl rfl rfl, ⟨rfl, rfl, rfl⟩, ?_, rfl, ?_⟩
  · rw [show (retire (signEffect signing)).sig = (signEffect signing).sig from rfl, hs]
    exact readBytes_writeBytes_of_length _ _ (wf_writeBytes _ _ rfl) hsl
  · rw [← hpk]
    refine Eq.trans (readBytes_congr fun i hi => ?_) (readBytes_writeBytes_of_length (m := []) pkBase 32 rfl hl)
    exact readByte_writeBytes_other _ _ (by unfold pkBase sigBase; omega)

/-! ### CLEAR -/

theorem witness_ClearCompletesWithZeroBuffers : Running .clear (running .clear clampedKey) := ⟨rfl, rfl, rfl⟩

theorem witness_ClearLeavesTheResetMemory :
    Running .clear (running .clear clampedKey) ∧ MemorySound (running .clear clampedKey) ∧ clampedKey ≠ [] :=
  ⟨⟨rfl, rfl, rfl⟩, ⟨by decide, by decide⟩, by decide⟩

/-! ### The bus -/

/-- The message buffer holds at least one word, and ends inside the window. -/
theorem msg_edges : Mapped 0x1000 ∧ Mapped (0x1000 + Config.msgCap - 4) ∧ HostBuffer 0x1000 ∧
    HostBuffer (0x1000 + Config.msgCap - 4) ∧ (0x1000 + Config.msgCap - 4) % 4 = 0 ∧
    (BitVec.ofNat 16 (0x1000 + Config.msgCap - 4)).toNat = 0x1000 + Config.msgCap - 4 := by
  have := msgCap_legal
  refine ⟨?_, ?_, ?_, ?_, by omega, ?_⟩
  iterate 2 (unfold Mapped; omega)
  iterate 2 (unfold HostBuffer; omega)
  rw [BitVec.toNat_ofNat, Nat.mod_eq_of_lt (by omega)]

/-- Each row of the table at the ends of its range. -/
theorem witness_ReadsReturnTheirTable :
    (∀ off : Offset, NextAccess (wordRead off) [] (idleWith [.access (wordRead off)])) ∧
      (∀ off ∈ [0x000, 0x004, 0x008, 0x00C, 0x010, 0x100, 0x15C, 0x160, 0x1DC, 0x1000], off % 4 = 0 ∧ Mapped off) ∧
      (∀ off ∈ [0x100, 0x15C], 0x100 ≤ off ∧ off < 0x160) ∧
      (∀ off ∈ [0x160, 0x1DC, 0x1000], (0x160 ≤ off ∧ off < 0x1E0) ∨ 0x1000 ≤ off) ∧ (0 < 4 ∧ 3 < 4) := by
  have := msgCap_legal
  refine ⟨fun _ => rfl, fun off ho => ?_, by decide, by decide, by decide⟩
  simp only [List.mem_cons, List.not_mem_nil, or_false] at ho
  rcases ho with rfl | rfl | rfl | rfl | rfl | rfl | rfl | rfl | rfl | rfl <;>
  · refine ⟨rfl, ?_⟩
    unfold Mapped
    omega

theorem witness_SecretBuffersReadAsZero :
    (∀ off : Offset, NextAccess (wordRead off) [] (idleWith [.access (wordRead off)])) ∧
      ∀ off ∈ [(0x100 : Offset), 0x11C, 0x120, 0x15C], off.toNat % 4 = 0 ∧ keyBase ≤ off.toNat ∧ off.toNat < seedBase + 64 := by
  refine ⟨fun _ => rfl, fun off ho => ?_⟩
  simp only [List.mem_cons, List.not_mem_nil, or_false] at ho
  rcases ho with rfl | rfl | rfl | rfl <;> decide

/-- Each kind of access R54 lists, and accesses it does not list, next to them. -/
theorem witness_BusErrorsChangeNothing :
    (∀ a : Access, NextAccess a [] (idleWith [.access a])) ∧ BreaksBusRules (.read 0x160 .w8) ∧
      BreaksBusRules (.write 0x160 .w32 0x7 0) ∧ BreaksBusRules (wordWrite 0x102 0) ∧ BreaksBusRules (wordRead 0x014) ∧
      BreaksBusRules (wordWrite 0x1C0 0) ∧ BreaksBusRules (wordWrite 0x1DC 0) ∧ BreaksBusRules (wordWrite 0x010 0) ∧
      ¬ BreaksBusRules (wordRead 0x010) ∧ ¬ BreaksBusRules (wordRead 0x1DC) ∧ ¬ BreaksBusRules (wordWrite 0x1BC 0) := by
  refine ⟨fun _ => rfl, ?_⟩
  simp [BreaksBusRules, wordWrite, wordRead, Mapped]

theorem witness_BufferWritesAreLittleEndian :
    State.reset.eng = .idle ∧ State.reset.mem.wf = true ∧
      (∀ off : Offset, NextAccess (wordWrite off 1) [] (idleWith [.access (wordWrite off 1)])) ∧
      (∀ off ∈ [0x100, 0x1BC, 0x1000], off % 4 = 0 ∧ HostBuffer off) := by
  have := msgCap_legal
  refine ⟨rfl, by decide, fun _ => rfl, fun off ho => ?_⟩
  simp only [List.mem_cons, List.not_mem_nil, or_false] at ho
  rcases ho with rfl | rfl | rfl <;>
  · refine ⟨rfl, ?_⟩
    unfold HostBuffer
    omega

/-- SCHK as 3 and as 2, in either engine state. -/
theorem witness_ControlWriteStoresLegalPolicy :
    NextAccess (wordWrite 0x000 6) [] (idleWith [.access (wordWrite 0x000 6)]) ∧ State.reset.eng = .idle ∧
      (6 : Word).extractLsb' 1 2 = 3 ∧ (5 : Word).extractLsb' 1 2 ≠ 3 ∧
      NextAccess (wordWrite 0x000 6) [] (withAgenda [.access (wordWrite 0x000 6)] signing) ∧ signing.eng = .busy ∧
      NextAccess (wordRead 0x000) [] (withAgenda [.access (wordRead 0x000)] signing) := by
  refine ⟨rfl, rfl, by decide, by decide, rfl, rfl, rfl⟩

theorem witness_StatusWriteClearsItsBits :
    NextAccess (wordWrite 0x004 0x12) [] (withAgenda [.access (wordWrite 0x004 0x12)] signing) ∧
      (0x12 : Word).getLsbD 1 = true ∧ (0x12 : Word).getLsbD 4 = true ∧ (0xFFFFFFED : Word).getLsbD 1 = false ∧
      (0xFFFFFFED : Word).getLsbD 4 = false := ⟨rfl, by decide, by decide, by decide, by decide⟩

theorem witness_MessageLengthHoldsAnyValue :
    State.reset.eng = .idle ∧
      NextAccess (wordWrite 0x00C 0xFFFFFFFF) (.access (wordRead 0x00C) :: [])
        (idleWith [.access (wordWrite 0x00C 0xFFFFFFFF), .access (wordRead 0x00C)]) := ⟨rfl, rfl⟩

theorem witness_CapacityIsReadOnly :
    NextAccess (wordRead 0x010) [] (idleWith [.access (wordRead 0x010)]) ∧
      NextAccess (wordWrite 0x010 0) [] (idleWith [.access (wordWrite 0x010 0)]) := ⟨rfl, rfl⟩

/-- The two registers, and the first and last word of the buffers. -/
theorem witness_BusyWritesAreDropped :
    signing.eng = .busy ∧ (∀ off : Offset, NextAccess (wordWrite off 1) [] (withAgenda [.access (wordWrite off 1)] signing)) ∧
      (∀ off ∈ [(0x000 : Offset), 0x00C, 0x100, 0x1BC, 0x1000, BitVec.ofNat 16 (0x1000 + Config.msgCap - 4)],
        off.toNat % 4 = 0 ∧ (off = 0x000 ∨ off = 0x00C ∨ HostBuffer off.toNat)) := by
  have := msgCap_legal
  refine ⟨rfl, fun _ => rfl, fun off ho => ?_⟩
  simp only [List.mem_cons, List.not_mem_nil, or_false] at ho
  rcases ho with rfl | rfl | rfl | rfl | rfl | rfl
  · exact ⟨rfl, .inl rfl⟩
  · exact ⟨rfl, .inr (.inl rfl)⟩
  · exact ⟨rfl, .inr (.inr (.inl (by decide)))⟩
  · exact ⟨rfl, .inr (.inr (.inl (by decide)))⟩
  · exact ⟨rfl, .inr (.inr msg_edges.2.2.1)⟩
  · rw [msg_edges.2.2.2.2.2]
    exact ⟨msg_edges.2.2.2.2.1, .inr (.inr msg_edges.2.2.2.1)⟩

theorem witness_RepeatedWriteIsOneWrite :
    State.reset.eng = .idle ∧ State.reset.mem.wf = true ∧
      (∀ off : Offset, NextAccess (wordWrite off 1) (.access (wordWrite off 1) :: [])
        (idleWith [.access (wordWrite off 1), .access (wordWrite off 1)])) ∧
      ((0x000 : Offset).toNat % 4 = 0 ∧ ((0x100 : Offset).toNat % 4 = 0 ∧ HostBuffer (0x100 : Offset).toNat)) := by
  refine ⟨rfl, by decide, fun _ => rfl, by decide, by decide, ?_⟩
  exact .inl (by decide)

/-! ### Rules of the whole machine -/

/-- A completion, an error and a write of IE each raise `irq`; a STATUS write, an IE write, an accept and reset each drop it. -/
theorem witness_InterruptMovesOnlyOnItsCauses :
    let enabled : State := { State.reset with ctrl := ⟨true, 2⟩ }
    let ready : State := { enabled with status := ⟨true, false, false, false, 0, 4⟩ }
    ((({ running .clear [] with ctrl := ⟨true, 2⟩ }).irq = false ∧ (after { running .clear [] with ctrl := ⟨true, 2⟩ }).irq = true) ∧
      (enabled.irq = false ∧ (afterEvent (.access (cmdWrite 0)) enabled).irq = true) ∧
      (({ ready with ctrl := ⟨false, 2⟩ }).irq = false ∧
        (afterEvent (.access (wordWrite 0x000 1)) { ready with ctrl := ⟨false, 2⟩ }).irq = true)) ∧
    (ready.irq = true ∧ (afterEvent (.access (wordWrite 0x004 2)) ready).irq = false ∧
      (afterEvent (.access (wordWrite 0x000 4)) ready).irq = false ∧ (afterEvent (.access (cmdWrite 4)) ready).irq = false ∧
      (afterEvent .reset ready).irq = false) := by decide

/-- An error that stays, one that is raised, one that is cleared, an accept and an own step. -/
theorem witness_ErrorIsSticky :
    let failed : State := { State.reset with status := ⟨false, false, false, true, 1, 0⟩ }
    (afterEvent (.access (cmdWrite 4)) failed).status.errCode = 1 ∧ (afterEvent (.access (cmdWrite 4)) failed).eng = .busy ∧
      (afterEvent (.access (cmdWrite 0)) State.reset).status.errCode = 1 ∧
      (afterEvent (.access (wordWrite 0x004 0x10)) failed).status.err = false ∧ (after failed).status.err = true := by decide

theorem witness_EngineMovesOnlyAtAcceptAndCompletion :
    (State.reset.eng = .idle ∧ (afterEvent (.access (cmdWrite 4)) State.reset).eng = .busy) ∧
      ((running .clear []).eng = .busy ∧ (after (running .clear [])).eng = .idle ∧
        (afterEvent .reset (running .clear [])).eng = .idle) := by decide

/-- MAP of u = 9 (M-2) and CLEAR change AED, and so does reset; the writes are at both ends of AED. -/
theorem witness_OnlyMapClearAndResetWriteAed :
    ((after (running .map [(0x160, 9), (0x1BF, 0x80)])).aed = 0x58 :: (List.replicate 30 0x66 ++ [0xE6]) ∧
        (running .map [(0x160, 9), (0x1BF, 0x80)]).aed = zeros 32) ∧
      (readByte (running .clear [(0x1C0, 9)]).mem 0x1C0 = 9 ∧
        ∃ t, step (running .clear [(0x1C0, 9)]) = .next t ∧ readByte t.mem 0x1C0 = 0) ∧
      (∃ t, step { State.reset with agenda := [.reset], mem := [(0x1DF, 9)] } = .next t ∧ t.mem = []) ∧
      (aedBase ≤ (0x1C0 : Offset).toNat ∧ (0x1DF : Offset).toNat < aedBase + 32) := by
  refine ⟨⟨test_map_m2.1, by decide +kernel⟩, ⟨by decide, _, step_of_running (i := .clear) (rest := []) (.inr ⟨rfl, rfl⟩) rfl rfl, ?_⟩,
    ⟨_, rfl, rfl⟩, by decide⟩
  rw [retire_mem, effectOf, readByte_clearEffect, if_pos (by decide)]

theorem witness_HiddenStateIsUnobservable : ∃ t, step signing = .next t :=
  ⟨_, step_of_running (i := .sign) (rest := []) (.inr ⟨rfl, rfl⟩) rfl rfl⟩

/-- Two blocks that hold different keys, whose host reads KEY and runs CLEAR. -/
theorem witness_SecretsNeverReachTheBus :
    let events : List Event := [.access (wordRead 0x11C), .access (cmdWrite 4)]
    let s := { idleWith events with mem := clampedKey }
    let s' := { idleWith events with mem := [(0x100, 8), (0x15F, 9)] }
    MemorySound s ∧ MemorySound s' ∧ EqualButSecrets s s' ∧ s.key ≠ s'.key ∧ NoSignToCome s ∧
      ¬ (s.eng = .busy ∧ s.curOp = Instr.sign.opcode) ∧ ∃ t, Host.Core.run Sys2Proof.core 3 s = .next t := by
  refine ⟨⟨by decide, by decide⟩, ⟨by decide, by decide⟩, ?_, by decide, ?_, by decide, ⟨_, rfl⟩⟩
  · refine ⟨⟨rfl, rfl, rfl, rfl, rfl⟩, ⟨rfl, rfl, rfl⟩, rfl, rfl, rfl, rfl, fun a ha => ?_⟩
    unfold keyBase seedBase at ha
    simp only [clampedKey, readByte]
    rw [if_neg (by omega), if_neg (by omega), if_neg (by omega)]
  · intro w hw
    simp only [idleWith, withAgenda, List.mem_cons, Event.access.injEq, List.not_mem_nil, or_false] at hw
    rcases hw with hw | hw
    · cases hw
    · simp only [cmdWrite, Access.write.injEq] at hw
      rw [hw.2.2.2]; decide

theorem witness_EveryCommandCompletes : (withAgenda [.access (wordRead 0x004)] signing).Inv :=
  ⟨inv_signing.memory, inv_signing.schk, inv_signing.idle,
    fun _ => ⟨.sign, rfl, rfl, rfl, fun _ => Nat.zero_le _, by decide, intermediatesOf_congr .sign rfl rfl rfl, rfl, rfl, rfl⟩,
    inv_signing.errors, inv_signing.flags⟩

/-! ### Host programs -/

theorem witness_WaitIdleEnds : signing.Inv ∧ signing.agenda = [] ∧ signing.eng = .busy := ⟨inv_signing, rfl, rfl⟩

/-- One byte at the end of SIG, a whole buffer's worth at KEY, and one byte at the start of MSG. -/
theorem witness_LoadStoresItsBytes :
    State.reset.eng = .idle ∧ State.reset.mem.wf = true ∧ State.reset.agenda = [] ∧
      (0x1BC % 4 = 0 ∧ ∀ a, 0x1BC ≤ a → a < 0x1BC + [(1 : Byte)].length → HostBuffer a) ∧
      (0x100 % 4 = 0 ∧ ∀ a, 0x100 ≤ a → a < 0x100 + (zeros 32).length → HostBuffer a) ∧
      (0x1000 % 4 = 0 ∧ ∀ a, 0x1000 ≤ a → a < 0x1000 + [(1 : Byte)].length → HostBuffer a) := by
  have := msgCap_legal
  refine ⟨rfl, by decide, rfl, ⟨rfl, fun a h1 h2 => ?_⟩, ⟨rfl, fun a h1 h2 => ?_⟩, ⟨rfl, fun a h1 h2 => ?_⟩⟩ <;>
  · simp at h2
    unfold HostBuffer
    omega

/-- The last word of the window and the first offset past it, for each statement. -/
theorem witness_HostAccessesReachTheirOffset :
    (HostRun.start State.reset).status = .running ∧
      ((OffsetExpr.number 0xFFFC).value < 0x10000 ∧ 0x10000 ≤ (OffsetExpr.named .msg 61440).value) ∧
      (afterEvent (.access (wordWrite 0x100 1)) State.reset).response = some .written ∧
      (afterEvent (.access (wordRead 0x000)) State.reset).response = some (.value 4) ∧
      (afterEvent (.access (wordWrite 0x014 0)) State.reset).response = some (.busError 0x014) ∧
      (afterEvent (.access (wordRead 0x014)) State.reset).response = some (.busError 0x014) ∧
      (∃ imm, [HostStmt.wr (.number 0x10008) 1][(HostRun.start State.reset).line]? = some (.wr (.number 0x10008) imm)) ∧
      (∃ name, [HostStmt.rd (.number 0x10000) ⟨"t", none⟩][(HostRun.start State.reset).line]? = some (.rd (.number 0x10000) name)) ∧
      (∃ bit val l, [HostStmt.brbit (.number 0x10004) 0 true (.fresh 0)][(HostRun.start State.reset).line]? =
        some (.brbit (.number 0x10004) bit val l)) :=
  ⟨rfl, by decide, by decide, by decide, by decide, by decide, ⟨_, rfl⟩, ⟨_, rfl⟩, ⟨_, _, _, rfl⟩⟩

/-! ### Primitives -/

theorem witness_FieldInverseIsUnique : (1 < p ∧ 1 ≠ 0) ∧ (p - 1 < p ∧ p - 1 ≠ 0) := by decide +kernel

theorem witness_FieldEncodingRoundTrips : 0 < p ∧ p - 1 < p := by decide +kernel

theorem witness_PointAdditionIsComplete : onCurve basePoint = true ∧ onCurve ⟨0, p - 1⟩ = true ∧ onCurve neutral = true := by
  decide +kernel

theorem witness_PointNegationInverts : onCurve basePoint = true ∧ onCurve ⟨0, p - 1⟩ = true := by decide +kernel

theorem witness_ScalarMultIsRepeatedAddition : onCurve basePoint = true := by decide +kernel

theorem witness_BasePointHasOrderL : 0 < 1 ∧ 1 < groupOrder ∧ 0 < groupOrder - 1 ∧ groupOrder - 1 < groupOrder := by decide +kernel

/-- The base point's encoding decodes, with either sign bit. -/
theorem witness_PointDecodingInvertsEncoding :
    (0x58 :: List.replicate 31 (0x66 : Byte)).length = 32 ∧ (pointDecode (0x58 :: List.replicate 31 0x66)).isSome = true ∧
      (pointDecode (0x58 :: (List.replicate 30 0x66 ++ [0xE6]))).isSome = true ∧ onCurve basePoint = true := by decide +kernel

/-! ### The hidden store -/

/-- Each command running; MAP and VERIFY of an input that maps and of the excluded one; and a VERIFY that reaches its challenge, and one
that does not, its S being 2^254. -/
theorem witness_RunningCommandHoldsItsIntermediates :
    (signing.Inv ∧ signing.eng = .busy ∧ signing.curOp = Instr.sign.opcode) ∧
      ((running .clear []).Inv ∧ (running .clear []).curOp = Instr.clear.opcode) ∧
      ((running .map []).Inv ∧ (running .map []).curOp = Instr.map.opcode ∧ leNat (running .map []).pk % 2 ^ 255 % p ≠ p - 1) ∧
      ((running .verify (excludedPk 0xFF)).Inv ∧ (running .verify (excludedPk 0xFF)).curOp = Instr.verify.opcode ∧
        leNat (running .verify (excludedPk 0xFF)).pk % 2 ^ 255 % p = p - 1) ∧
      ((running .verify []).Inv ∧ schkAccepts (running .verify []).curSchk 0 = true ∧
        (pointDecode (leBytes 32 (p - 1))).isSome = true) ∧
      ((running .verify [(0x1BF, 0x40)]).Inv ∧ schkAccepts (running .verify [(0x1BF, 0x40)]).curSchk
        (leNat ((running .verify [(0x1BF, 0x40)]).sig.drop 32) % 2 ^ 255) = false) :=
  ⟨⟨inv_signing, rfl, rfl⟩, ⟨inv_running .clear rfl rfl, rfl⟩, ⟨inv_running .map rfl rfl, rfl, by decide +kernel⟩,
    ⟨inv_running .verify (by decide +kernel) (by decide +kernel), rfl, by decide +kernel⟩,
    ⟨inv_running .verify rfl rfl, by decide +kernel, by decide +kernel⟩,
    ⟨inv_running .verify (by decide) (by decide), by decide +kernel⟩⟩

end Sys2Proof.Tests
end

section
/-! PROOFS. The invariant of the block: it holds after reset, and every step keeps it (spec/10_state.md R24 to R40). One lemma for each
update a step is made of. -/

namespace Sys2Proof.Machine

/-! ### Reset and the port -/

/-- The step of a cycle of reset (R185). -/
theorem step_of_reset {s : State} {rest : List Event} (h : s.agenda = .reset :: rest) :
    step s = .next (resetBlock (withAgenda rest s)) := by
  rw [step, turn_of_reset h]

/-- Reset gives every piece of the block's state its value of R40. -/
theorem holdsResetValues_resetBlock (s : State) : HoldsResetValues (resetBlock s) :=
  ⟨⟨rfl, rfl, rfl, rfl, rfl⟩, (by decide : Ctrl.word ⟨false, 2⟩ = 4), (by decide : State.reset.statusWord = 0), rfl,
    fun _ => rfl, rfl⟩

/-- Settles O1: the step is `resetBlock`, which leaves R40's values whatever the state before it. -/
theorem resetLeavesTheListedValues : Obligations.ResetLeavesTheListedValues := by
  refine ⟨holdsResetValues_resetBlock State.reset, fun s rest h => ?_⟩
  exact ⟨_, step_of_reset h, holdsResetValues_resetBlock _, rfl, rfl⟩

/-- The port and the agenda are not the block's: a change of them leaves it as it was. -/
theorem sameBlock_outside (s : State) (port : Option Access) (response : Option Response) (rest : List Event) :
    SameBlock s { s with agenda := rest, port := port, response := response } :=
  ⟨⟨rfl, rfl, rfl, rfl, rfl⟩, rfl, rfl, rfl, rfl, rfl⟩

theorem sameBlock_quiet (s : State) (rest : List Event) : SameBlock s (quiet (withAgenda rest s)) :=
  sameBlock_outside s none none rest

theorem sameBlock_present (s : State) (a : Access) (rest : List Event) : SameBlock s (present a (withAgenda rest s)) :=
  sameBlock_outside s _ _ rest

/-! ### What the invariant speaks of -/

/-- The invariant is about what the block holds, not about the port or the agenda. -/
theorem inv_of_sameBlock {s t : State} (h : s.Inv) (hb : SameBlock s t) : t.Inv := by
  obtain ⟨hlatches, hctrl, hstatus, hlen, hmem, -⟩ := hb
  have ⟨heng, hop, hschk, hcur, hhid⟩ := hlatches
  constructor
  · rw [MemorySound, hmem]; exact h.memory
  · rw [SchkLegal, hctrl, hschk]; exact h.schk
  · rw [IdleClean, heng, hop, hschk, hcur, hhid]; exact h.idle
  · exact busyAccepted_congr h.busy hlatches hctrl hlen hmem (by rw [hstatus]; exact id) (by rw [hstatus]) (by rw [hstatus])
      (by rw [hstatus])
  · rw [ErrorCoded, hstatus]; exact h.errors
  · rw [FlagsOfLastOp, hstatus]; exact h.flags

/-- The invariant after reset. -/
theorem inv_resetBlock (s : State) : (resetBlock s).Inv where
  memory := ⟨rfl, rfl⟩
  schk := (by decide : (2 : BitVec 2) ≠ 3 ∧ (0 : BitVec 2) ≠ 3)
  idle _ := ⟨rfl, rfl, rfl, rfl⟩
  busy h := nomatch h
  errors := (by decide : (false = true ↔ (0 : BitVec 4) ≠ 0) ∧ (0 : BitVec 4) ≤ 3)
  flags := ⟨.inl rfl, nofun, nofun, nofun⟩

/-- Settles O2: `State.reset` is what a cycle of reset leaves of itself. -/
theorem resetMeetsTheInvariant : Obligations.ResetMeetsTheInvariant := inv_resetBlock State.reset

/-! ### Each update keeps the invariant -/

/-- A command error with a code of R169 keeps the invariant: it touches ERR and ERRCODE alone. -/
theorem inv_raiseCmdError {s : State} (h : s.Inv) {code : BitVec 4} (h0 : code ≠ 0) (h3 : code ≤ 3) :
    (raiseCmdError code s).Inv where
  memory := h.memory
  schk := h.schk
  idle := h.idle
  busy := busyAccepted_congr h.busy ⟨rfl, rfl, rfl, rfl, rfl⟩ rfl rfl rfl id rfl rfl rfl
  errors := ⟨iff_of_true rfl h0, h3⟩
  flags := h.flags

/-- A write of STATUS keeps the invariant: ERR and ERRCODE are cleared together (R27). -/
theorem inv_clearBits {s : State} (h : s.Inv) (v : Word) : ({ s with status := s.status.clearBits v } : State).Inv where
  memory := h.memory
  schk := h.schk
  idle := h.idle
  busy := by
    refine busyAccepted_congr h.busy ⟨rfl, rfl, rfl, rfl, rfl⟩ rfl rfl rfl (fun hd => ?_) (Status.clearBits_result _ v)
      (Status.clearBits_excl _ v) (Status.clearBits_lastOp _ v)
    rw [Status.clearBits_done, hd, Bool.false_and]
  errors := by
    obtain ⟨hcode, hle⟩ := h.errors
    rw [ErrorCoded, Status.clearBits_err, Status.clearBits_errCode]
    cases v.getLsbD 4 with
    | true => simp
    | false => simpa using And.intro hcode hle
  flags := by
    obtain ⟨hop, hdone, hresult, hexcl⟩ := h.flags
    rw [FlagsOfLastOp, Status.clearBits_done, Status.clearBits_result, Status.clearBits_excl, Status.clearBits_lastOp]
    exact ⟨hop, fun hd => hdone (Bool.and_eq_true_iff.1 hd).1, hresult, hexcl⟩

/-- A write while idle keeps the invariant, if it leaves the engine and STATUS as they were, the memory sound and SCHK legal. -/
theorem inv_of_idleWrite {s t : State} (h : s.Inv) (he : s.eng = .idle) (hl : SameLatches s t) (hs : t.status = s.status)
    (hm : MemorySound t) (hc : t.ctrl.schk ≠ 3) : t.Inv := by
  obtain ⟨heng, hop, hschk, hcur, hhid⟩ := hl
  refine ⟨hm, ⟨hc, hschk ▸ h.schk.2⟩, ?_, fun hb => ?_, ?_, ?_⟩
  · rw [IdleClean, heng, hop, hschk, hcur, hhid]; exact h.idle
  · rw [heng, he] at hb; cases hb
  · rw [ErrorCoded, hs]; exact h.errors
  · rw [FlagsOfLastOp, hs]; exact h.flags

/-- The accept of a command keeps the invariant: it is what makes a busy engine that of an accepted command (R35). -/
theorem inv_acceptCommand {s : State} (h : s.Inv) {i : Instr}
    (hlen : checksLength i = true → s.msgLen.toNat ≤ Config.msgCap) :
    (acceptCommand i (intermediatesOf i) s).Inv where
  memory := h.memory
  schk := by
    refine ⟨h.schk.1, ?_⟩
    rw [acceptCommand_curSchk]
    split
    · exact h.schk.1
    · exact h.schk.2
  idle hb := nomatch hb
  busy _ := ⟨i, rfl, rfl, rfl, hlen, fun hv => if_pos hv, acceptCommand_holds i s, rfl, rfl, rfl⟩
  errors := h.errors
  flags := ⟨.inr ⟨i, rfl⟩, nofun, nofun, nofun⟩

/-- The completion of the running command keeps the invariant: RESULT can only be VERIFY's and EXCL only MAP's, since the accept cleared
both (R35, R36). -/
theorem inv_completion {s : State} (h : s.Inv) {i : Instr} (hb : s.eng = .busy) (ho : s.curOp = i.opcode) :
    (retire (effectOf i s)).Inv := by
  obtain ⟨j, hop, hlast, -, -, -, -, -, hresult, hexcl⟩ := h.busy hb
  obtain rfl : j = i := opcode_injective (hop.symm.trans ho)
  obtain ⟨-, herr, hcode, hlast'⟩ := effectOf_status j s
  have hlastOp : (effectOf j s).status.lastOp = j.opcode := hlast'.trans hlast
  refine ⟨effectOf_memorySound j h.memory, ⟨?_, (by decide : (0 : BitVec 2) ≠ 3)⟩,
    fun _ => ⟨rfl, rfl, rfl, rfl⟩, nofun, ?_, ?_⟩
  · rw [retire_ctrl, (effectOf_frame j s).2.1]; exact h.schk.1
  · rw [ErrorCoded, retire_status, herr, hcode]; exact h.errors
  · rw [FlagsOfLastOp, retire_status]
    dsimp only
    rw [hlastOp]
    refine ⟨.inr ⟨j, rfl⟩, fun _ => opcode_ne_zero j, fun hr => ?_, fun hx => ?_⟩
    · by_contra hne
      have hj : j ≠ .verify := fun e => hne (congrArg Instr.opcode e)
      rw [effectOf_result hj, hresult] at hr; cases hr
    · by_contra hne
      have hj : j ≠ .map := fun e => hne (congrArg Instr.opcode e)
      rw [effectOf_excl hj, hexcl] at hx; cases hx

theorem inv_issueCommand {s : State} (h : s.Inv) (i : Instr) :
    (issueCommand i (intermediatesOf i) s).Inv := by
  rcases issueCommand_cases i s with ⟨_, he⟩ | ⟨_, _, _, he⟩ | ⟨_, hlen, he⟩ <;> rw [he]
  · exact inv_raiseCmdError h (by decide) (by decide)
  · exact inv_raiseCmdError h (by decide) (by decide)
  · exact inv_acceptCommand h hlen

theorem inv_issueIllegal {s : State} (h : s.Inv) : (issueIllegal s).Inv := by
  rcases issueIllegal_cases s with ⟨_, he⟩ | ⟨_, he⟩ <;> rw [he] <;> exact inv_raiseCmdError h (by decide) (by decide)

/-- An access keeps the memory sound: the host writes inside the buffers, whole words at multiples of 4. -/
theorem accessEffect_memorySound {s : State} (h : MemorySound s) (a : Access) : MemorySound (accessEffect s a) := by
  rcases accessEffect_effects s a with
    he | ⟨v, _, he⟩ | ⟨off, v, _, _, he⟩ | ⟨v, _, _, he⟩ | ⟨v, _, _, he⟩ | ⟨off, v, _, _, h4, hr, he⟩ <;> rw [he]
  case inr.inr.inr.inr.inr => exact writeWord_memorySound v h h4 ((hostBuffer_iff _).1 hr)
  all_goals exact h

theorem inv_accessEffect {s : State} (h : s.Inv) (a : Access) : (accessEffect s a).Inv := by
  have hmem := accessEffect_memorySound h.memory a
  rcases accessEffect_effects s a with
    he | ⟨v, _, he⟩ | ⟨off, v, _, _, he⟩ | ⟨v, _, hidle, he⟩ | ⟨v, _, hidle, he⟩ | ⟨off, v, _, hidle, _, _, he⟩ <;>
    rw [he] at hmem ⊢
  · exact h
  · exact inv_clearBits h v
  · exact inv_raiseCmdError h (by decide) (by decide)
  · exact inv_of_idleWrite h hidle ⟨rfl, rfl, rfl, rfl, rfl⟩ rfl hmem (ofWord_schk_ne_three v)
  · exact inv_of_idleWrite h hidle ⟨rfl, rfl, rfl, rfl, rfl⟩ rfl hmem h.schk.1
  · exact inv_of_idleWrite h hidle ⟨rfl, rfl, rfl, rfl, rfl⟩ rfl hmem h.schk.1

/-- Settles O3: every update that a step can be keeps the invariant. -/
theorem everyStepKeepsTheInvariant : Obligations.EveryStepKeepsTheInvariant := by
  intro s t h hstep
  rcases step_next_cases hstep with
    ⟨rest, _, _, rfl⟩ | ⟨i, rest, _, hbusy, hop, rfl⟩ | ⟨rest, _, rfl⟩ |
      ⟨w, rest, _, ⟨i, _, rfl⟩ | ⟨e, _, rfl⟩⟩ | ⟨a, rest, _, _, rfl⟩
  · exact inv_of_sameBlock h (sameBlock_quiet s rest)
  · exact inv_completion (inv_of_sameBlock h (sameBlock_quiet s rest)) hbusy hop
  · exact inv_resetBlock _
  · exact inv_issueCommand (inv_of_sameBlock h (sameBlock_present s (cmdWrite w) rest)) i
  · exact inv_issueIllegal (inv_of_sameBlock h (sameBlock_present s (cmdWrite w) rest))
  · exact inv_accessEffect (inv_of_sameBlock h (sameBlock_present s a rest)) a

end Sys2Proof.Machine
end

section
/-! PROOFS. What a step does to the engine, to AED and to the agenda, and how it runs a command (spec/10_state.md R21, R33, R35, R36). -/

namespace Sys2Proof.Machine

/-! ### Command words -/

/-- A word is its two fields (R70). -/
theorem toWord_splitWord (w : Word) : (splitWord w).toWord = w := by
  apply BitVec.eq_of_getLsbD_eq
  intro j hj
  simp only [CmdWord.toWord, splitWord, BitVec.getLsbD_append, BitVec.getLsbD_extractLsb']
  split
  · next h => simp [h]
  · next h => simp [show j - 8 < 24 by omega, show 8 + (j - 8) = j by omega]

/-- A word that decodes is the command's own word (R70, R73). -/
theorem eq_encode_of_decode {w : Word} {i : Instr} (h : decode w = .ok i) : w = encode i := by
  unfold decode at h
  split at h
  · cases h
  · next hres =>
    split at h
    · next j hj =>
      injection h with h
      subst h
      rw [← toWord_splitWord w, CmdWord.toWord, not_not.1 hres, eq_opcode_of_decodeOpcode hj]
      cases j <;> rfl
    · cases h

/-! ### Accesses -/

/-- An access leaves the engine and its latches as they were. -/
theorem accessEffect_latches (s : State) (a : Access) : SameLatches s (accessEffect s a) := by
  rcases accessEffect_effects s a with
    he | ⟨v, _, he⟩ | ⟨off, v, _, _, he⟩ | ⟨v, _, _, he⟩ | ⟨v, _, _, he⟩ | ⟨off, v, _, _, _, _, he⟩ <;>
  · rw [he]
    exact ⟨rfl, rfl, rfl, rfl, rfl⟩

/-- An access leaves what is still to come as it was. -/
theorem accessEffect_agenda (s : State) (a : Access) : (accessEffect s a).agenda = s.agenda := by
  rcases accessEffect_effects s a with
    he | ⟨v, _, he⟩ | ⟨off, v, _, _, he⟩ | ⟨v, _, _, he⟩ | ⟨v, _, _, he⟩ | ⟨off, v, _, _, _, _, he⟩ <;>
  exact (congrArg State.agenda he :)

/-- No access writes AED (R33): the host's buffers do not hold its bytes. -/
theorem accessEffect_aed (s : State) (a : Access) {x : Nat} (h1 : aedBase ≤ x) (h2 : x < aedBase + 32) :
    readByte (accessEffect s a).mem x = readByte s.mem x := by
  rcases accessEffect_effects s a with
    he | ⟨v, _, he⟩ | ⟨off, v, _, _, he⟩ | ⟨v, _, _, he⟩ | ⟨v, _, _, he⟩ | ⟨off, v, _, _, h4, hbuf, he⟩
  case inr.inr.inr.inr.inr =>
    unfold aedBase at h1 h2
    unfold HostBuffer at hbuf
    rw [he]
    exact readByte_writeBytes_other _ _ (by rw [length_wordBytes]; omega)
  all_goals exact congrArg (readByte ·.mem x) he

/-- While a command runs, an access changes STATUS alone (R27, R168). -/
theorem accessEffect_of_busy {s : State} (h : s.eng = .busy) (a : Access) :
    ∃ st, accessEffect s a = { s with status := st } := by
  rcases accessEffect_effects s a with
    he | ⟨v, _, he⟩ | ⟨off, v, _, _, he⟩ | ⟨v, _, hi, _⟩ | ⟨v, _, hi, _⟩ | ⟨off, v, _, hi, _⟩
  · exact ⟨s.status, he⟩
  · exact ⟨_, he⟩
  · exact ⟨_, he⟩
  all_goals rw [h] at hi; cases hi

theorem issueCommand_of_busy (i : Instr) {s : State} (hb : s.eng = .busy) :
    issueCommand i (intermediatesOf i) s = raiseCmdError errBusy s := if_pos hb

theorem issueIllegal_of_busy {s : State} (hb : s.eng = .busy) : issueIllegal s = raiseCmdError errBusy s := if_pos hb

/-- Whatever an access is, while a command runs its step changes STATUS alone, beside the port and the agenda (R27, R167, R168). -/
theorem step_of_access_busy {s : State} {a : Access} {rest : List Event} (hb : s.eng = .busy) (h : NextAccess a rest s) :
    ∃ st, step s = .next { present a (withAgenda rest s) with status := st } := by
  cases hw : a.commandWord with
  | none =>
    obtain ⟨st, he⟩ := accessEffect_of_busy (s := present a (withAgenda rest s)) hb a
    exact ⟨st, by rw [step_of_plain h hw, he]⟩
  | some w =>
    obtain rfl := commandWord_eq_some hw
    refine ⟨s.status.raise errBusy, ?_⟩
    cases hd : decode w with
    | ok i => rw [step_of_legal h hd, issueCommand_of_busy i (by exact hb)]; rfl
    | error e => rw [step_of_illegal h hd, issueIllegal_of_busy (by exact hb)]; rfl

/-! ### The engine -/

/-- A write of a command's word leaves what is still to come as it was. -/
theorem issueCommand_agenda (i : Instr) (s : State) : (issueCommand i (intermediatesOf i) s).agenda = s.agenda := by
  rcases issueCommand_cases i s with ⟨_, he⟩ | ⟨_, _, _, he⟩ | ⟨_, _, he⟩ <;> rw [he] <;> rfl

/-- A write of an illegal word changes STATUS alone. -/
theorem issueIllegal_eq_raise (s : State) : ∃ code, issueIllegal s = raiseCmdError code s := by
  rcases issueIllegal_cases s with ⟨_, he⟩ | ⟨_, he⟩ <;> exact ⟨_, he⟩

/-- A write of a command's word leaves the memory as it was. -/
theorem issueCommand_mem (i : Instr) (s : State) : (issueCommand i (intermediatesOf i) s).mem = s.mem := by
  rcases issueCommand_cases i s with ⟨_, he⟩ | ⟨_, _, _, he⟩ | ⟨_, _, he⟩ <;> rw [he] <;> rfl

theorem tail_of_ownNext {s : State} {rest : List Event} (h : OwnNext rest s) : rest = s.agenda.tail := by
  rcases h with h | ⟨h, rfl⟩ <;> rw [h] <;> rfl

/-- A step takes one event off the agenda. -/
theorem step_agenda {s t : State} (h : step s = .next t) : t.agenda = s.agenda.tail := by
  rcases step_next_cases h with
    ⟨rest, hn, _, rfl⟩ | ⟨i, rest, hn, _, _, rfl⟩ | ⟨rest, ha, rfl⟩ |
      ⟨w, rest, ha, ⟨i, _, rfl⟩ | ⟨e, _, rfl⟩⟩ | ⟨a, rest, ha, _, rfl⟩
  · exact tail_of_ownNext hn
  · obtain ⟨-, -, -, -, hag⟩ := effectOf_frame i (quiet (withAgenda rest s))
    exact hag.trans (tail_of_ownNext hn)
  · rw [ha]; rfl
  · rw [issueCommand_agenda, ha]; rfl
  · obtain ⟨code, he⟩ := issueIllegal_eq_raise (present (cmdWrite w) (withAgenda rest s))
    rw [he, ha]; rfl
  · rw [accessEffect_agenda, ha]; rfl

/-- Everything a step can do to the engine: leave it, accept the command written to `CMD`, complete the one that runs, or reset. -/
theorem step_engine_cases {s t : State} (h : step s = .next t) :
    (t.eng = s.eng ∧ t.curOp = s.curOp) ∨
      (s.eng = .idle ∧ t.eng = .busy ∧ ∃ i w rest, NextAccess (cmdWrite w) rest s ∧ decode w = .ok i ∧ t.curOp = i.opcode) ∨
      (s.eng = .busy ∧ t.eng = .idle ∧ t.status.done = true ∧ ∃ rest, OwnNext rest s) ∨
      (t.eng = .idle ∧ ∃ rest, s.agenda = .reset :: rest) := by
  rcases step_next_cases h with
    ⟨rest, _, _, rfl⟩ | ⟨i, rest, hn, hbusy, _, rfl⟩ | ⟨rest, ha, rfl⟩ |
      ⟨w, rest, ha, ⟨i, hd, rfl⟩ | ⟨e, _, rfl⟩⟩ | ⟨a, rest, _, _, rfl⟩
  · exact .inl ⟨rfl, rfl⟩
  · exact .inr (.inr (.inl ⟨hbusy, rfl, rfl, rest, hn⟩))
  · exact .inr (.inr (.inr ⟨rfl, rest, ha⟩))
  · rcases issueCommand_cases i (present (cmdWrite w) (withAgenda rest s)) with
      ⟨_, he⟩ | ⟨_, _, _, he⟩ | ⟨hidle, _, he⟩ <;> rw [he]
    · exact .inl ⟨rfl, rfl⟩
    · exact .inl ⟨rfl, rfl⟩
    · exact .inr (.inl ⟨hidle, rfl, i, w, rest, ha, hd, rfl⟩)
  · obtain ⟨code, he⟩ := issueIllegal_eq_raise (present (cmdWrite w) (withAgenda rest s))
    rw [he]
    exact .inl ⟨rfl, rfl⟩
  · obtain ⟨heng, hop, -⟩ := accessEffect_latches (present a (withAgenda rest s)) a
    exact .inl ⟨heng, hop⟩

/-- Settles O45: from `step_engine_cases`, the word that was accepted being the command's own. -/
theorem engineMovesOnlyAtAcceptAndCompletion : Obligations.EngineMovesOnlyAtAcceptAndCompletion := by
  intro s t h
  rcases step_engine_cases h with ⟨heng, _⟩ | ⟨hs, ht, i, w, rest, hn, hd, hop⟩ | ⟨hs, ht, hdone, rest, hn⟩ | ⟨ht, hreset⟩
  · rw [heng]
    exact ⟨fun hi hb => (nomatch hi.symm.trans hb), fun hb hi => (nomatch hi.symm.trans hb)⟩
  · rw [hs, ht]
    exact ⟨fun _ _ => ⟨i, rest, eq_encode_of_decode hd ▸ hn, hop⟩, nofun⟩
  · rw [hs, ht]
    exact ⟨nofun, fun _ _ => .inl ⟨rest, hn, hdone⟩⟩
  · rw [ht]
    exact ⟨nofun, fun _ _ => .inr hreset⟩

/-! ### AED -/

/-- AED depends on its own bytes. -/
theorem aed_congr {s t : State} (h : ∀ x, aedBase ≤ x → x < aedBase + 32 → readByte t.mem x = readByte s.mem x) : t.aed = s.aed :=
  readBytes_congr fun i hi => h (aedBase + i) (by omega) (by omega)

/-- The effects of SIGN and VERIFY leave AED as it was (R128, R151). -/
theorem effectOf_aed {i : Instr} (hi : i = .sign ∨ i = .verify) (s : State) : (effectOf i s).aed = s.aed := by
  rcases hi with rfl | rfl
  · refine aed_congr fun x h1 h2 => readByte_signEffect_other s ?_ ?_ <;> unfold aedBase at h1 h2
    · unfold seedBase; omega
    · unfold sigBase; omega
  · rfl

/-- The step of an access that is a bus error: the answer is the error, and the block is as it was (R54). -/
theorem step_of_busError {s : State} {a : Access} {rest : List Event} (h : NextAccess a rest s) (hb : a.isBusError = true) :
    ∃ t, step s = .next t ∧ t.response = some (.busError a.offset) ∧ SameBlock s t := by
  have hc : a.commandWord = none := by
    cases hw : a.commandWord with
    | none => rfl
    | some w => rw [commandWord_eq_some hw, isBusError_cmdWrite] at hb; cases hb
  have he : accessEffect (present a (withAgenda rest s)) a = present a (withAgenda rest s) := by
    cases a with
    | read off w => rfl
    | write off w st v => exact if_pos hb
  have hr : answer (withAgenda rest s) a = .busError a.offset := by cases a <;> exact if_pos hb
  refine ⟨present a (withAgenda rest s), by rw [step_of_plain h hc, he], ?_, sameBlock_present s a rest⟩
  rw [present_response, hr]

/-- Settles O46: of the updates a step can be, only the completions of MAP and CLEAR and reset reach AED; and AED is no region a write
may reach. -/
theorem onlyMapClearAndResetWriteAed : Obligations.OnlyMapClearAndResetWriteAed := by
  refine ⟨fun s t h hne => ?_, fun s off w st v rest h h1 h2 => ?_⟩
  · rcases step_next_cases h with
      ⟨rest, _, _, rfl⟩ | ⟨i, rest, hn, hbusy, hop, rfl⟩ | ⟨rest, ha, rfl⟩ |
        ⟨w, rest, _, ⟨i, _, rfl⟩ | ⟨e, _, rfl⟩⟩ | ⟨a, rest, _, _, rfl⟩
    · exact absurd rfl hne
    · refine .inl ⟨hbusy, ?_, rest, hn⟩
      cases i with
      | map => exact .inl hop
      | clear => exact .inr hop
      | sign => exact absurd (effectOf_aed (.inl rfl) (quiet (withAgenda rest s))) hne
      | verify => exact absurd (effectOf_aed (.inr rfl) (quiet (withAgenda rest s))) hne
    · exact .inr ⟨rest, ha⟩
    · exact absurd (aed_congr fun x _ _ => by rw [issueCommand_mem]; rfl) hne
    · obtain ⟨code, he⟩ := issueIllegal_eq_raise (present (cmdWrite w) (withAgenda rest s))
      exact absurd (by rw [he]; rfl) hne
    · exact absurd (aed_congr fun x h1 h2 => accessEffect_aed (present a (withAgenda rest s)) a h1 h2) hne
  · exact step_of_busError h ((isBusError_iff _).2 (.inr (.inr (.inr (.inr (.inl ⟨h1, h2⟩))))))

/-! ### A command's accept and completion -/

/-- The commands whose accept checks the length (R167). -/
theorem checksLength_iff (i : Instr) : checksLength i = true ↔ i = .sign ∨ i = .verify := by cases i <;> decide

/-- With its engine idle and a length within the capacity the block accepts the command (R35, R167). -/
theorem issueCommand_of_accepted {s : State} {i : Instr} (hi : s.eng = .idle)
    (hl : (i = .sign ∨ i = .verify) → s.msgLen.toNat ≤ Config.msgCap) :
    issueCommand i (intermediatesOf i) s = acceptCommand i (intermediatesOf i) s := by
  rcases issueCommand_cases i s with ⟨hb, _⟩ | ⟨_, hc, hover, _⟩ | ⟨_, _, he⟩
  · rw [hi] at hb; cases hb
  · have := hl ((checksLength_iff i).1 hc); omega
  · exact he

/-- With its engine idle and a length over the capacity SIGN and VERIFY raise command error 3 (R167). -/
theorem issueCommand_of_tooLong {s : State} {i : Instr} (hi : s.eng = .idle) (hc : checksLength i = true)
    (hl : Config.msgCap < s.msgLen.toNat) : issueCommand i (intermediatesOf i) s = raiseCmdError errMsgLen s := by
  rcases issueCommand_cases i s with ⟨hb, _⟩ | ⟨_, _, _, he⟩ | ⟨_, hle, _⟩
  · rw [hi] at hb; cases hb
  · exact he
  · have := hle hc; omega

/-- Settles O10: `issueCommand` accepts, and a busy engine lets an access change STATUS alone. -/
theorem acceptStartsTheCommand : Obligations.AcceptStartsTheCommand := by
  refine ⟨fun i s hp hi hl => ?_, fun s a rest hb h => ?_⟩
  · rw [exec_of_port hp, issueCommand_of_accepted hi hl]
    rfl
  · obtain ⟨st, hstep⟩ := step_of_access_busy hb h
    exact ⟨_, hstep, rfl, rfl, rfl, rfl, rfl, rfl, rfl, rfl⟩

/-- Settles O9: `exec` at the accept, with the write on the port, at the completion, with nothing on it, and not at all when idle. -/
theorem stepRunsTheDecodedCommand : Obligations.StepRunsTheDecodedCommand := by
  refine ⟨fun s w rest i h hd => ?_, fun s rest i h hb ho => ?_, fun s rest h hi => step_of_idle h hi⟩
  · exact (step_of_legal h hd).trans (exec_of_port (s := present (cmdWrite w) (withAgenda rest s)) rfl).symm
  · exact (step_of_running h hb ho).trans (exec_of_running (s := quiet (withAgenda rest s)) rfl hb ho).symm

end Sys2Proof.Machine
end

section
/-! PROOFS. Noninterference: what the block does depends neither on the hidden store nor, without a SIGN, on KEY and SEED
(spec/10_state.md R32, R37; spec/60_exceptions.md R178). Two such states differ in one field, and each update is shown to commute with
the change of that field. -/

namespace Sys2Proof.Machine

/-! ### The hidden store (R37) -/

/-- The state with other hidden intermediates. -/
def withHidden (h : Intermediates) (s : State) : State := { s with hidden := h }

@[simp] theorem withHidden_eng (h : Intermediates) (s : State) : (withHidden h s).eng = s.eng := rfl
@[simp] theorem withHidden_msgLen (h : Intermediates) (s : State) : (withHidden h s).msgLen = s.msgLen := rfl

theorem effectOf_withHidden (i : Instr) (h : Intermediates) (s : State) :
    effectOf i (withHidden h s) = withHidden h (effectOf i s) := by
  cases i with
  | sign => rfl
  | verify => rfl
  | clear => rfl
  | map =>
    change mapEffect (withHidden h s) = withHidden h (mapEffect s)
    unfold mapEffect withHidden
    dsimp only [State.pk, State.sig]
    split <;> rfl

theorem storeValue_withHidden (h : Intermediates) (off : Nat) (v : Word) (s : State) :
    storeValue off v (withHidden h s) = withHidden h (storeValue off v s) := by
  unfold storeValue
  cases region off <;> rfl

theorem writeValue_withHidden (h : Intermediates) (off : Nat) (v : Word) (s : State) :
    writeValue off v (withHidden h s) = withHidden h (writeValue off v s) := by
  simp only [writeValue, storeValue_withHidden, withHidden_eng]
  split
  · rfl
  · split <;> rfl

theorem accessEffect_withHidden (h : Intermediates) (s : State) (a : Access) :
    accessEffect (withHidden h s) a = withHidden h (accessEffect s a) := by
  cases a with
  | read off w => rfl
  | write off w st v =>
    simp only [accessEffect, writeValue_withHidden]
    split <;> rfl

/-- The write of a command's word: an accept fills the hidden store anew, from the operands. -/
theorem issueCommand_withHidden (i : Instr) (h : Intermediates) (s : State) :
    ∃ h', issueCommand i (intermediatesOf i) (withHidden h s) = withHidden h' (issueCommand i (intermediatesOf i) s) := by
  rcases issueCommand_cases i s with ⟨hb, he⟩ | ⟨hi, hc, hlen, he⟩ | ⟨hi, hlen, he⟩ <;> rw [he]
  · exact ⟨h, issueCommand_of_busy i (s := withHidden h s) hb⟩
  · exact ⟨h, issueCommand_of_tooLong (s := withHidden h s) hi hc hlen⟩
  · exact ⟨_, issueCommand_of_accepted (s := withHidden h s) hi fun hc => hlen ((checksLength_iff i).2 hc)⟩

theorem issueIllegal_withHidden (h : Intermediates) (s : State) :
    issueIllegal (withHidden h s) = withHidden h (issueIllegal s) :=
  (apply_ite (withHidden h) (s.eng = .busy) (raiseCmdError errBusy s) (raiseCmdError errIllegal s)).symm

/-- Settles O47: each update a step can be commutes with a change of the hidden store, or overwrites it. -/
theorem hiddenStateIsUnobservable : Obligations.HiddenStateIsUnobservable := by
  intro s t h hstep
  rcases step_next_cases hstep with
    ⟨rest, hn, hidle, rfl⟩ | ⟨i, rest, hn, hbusy, hop, rfl⟩ | ⟨rest, ha, rfl⟩ |
      ⟨w, rest, ha, ⟨i, hd, rfl⟩ | ⟨e, hd, rfl⟩⟩ | ⟨a, rest, ha, hc, rfl⟩
  · exact ⟨h, step_of_idle (s := withHidden h s) hn hidle⟩
  · have he : effectOf i (quiet (withAgenda rest (withHidden h s))) = _ := effectOf_withHidden i h (quiet (withAgenda rest s))
    refine ⟨.zero, (step_of_running (s := withHidden h s) hn hbusy hop).trans ?_⟩
    rw [he]
    rfl
  · exact ⟨.zero, step_of_reset (s := withHidden h s) ha⟩
  · obtain ⟨h', he⟩ := issueCommand_withHidden i h (present (cmdWrite w) (withAgenda rest s))
    exact ⟨h', (step_of_legal (s := withHidden h s) ha hd).trans (congrArg Host.Outcome.next he)⟩
  · have he := issueIllegal_withHidden h (present (cmdWrite w) (withAgenda rest s))
    exact ⟨h, (step_of_illegal (s := withHidden h s) ha hd).trans (congrArg Host.Outcome.next he)⟩
  · have he := accessEffect_withHidden h (present a (withAgenda rest s)) a
    exact ⟨h, (step_of_plain (s := withHidden h s) ha hc).trans (congrArg Host.Outcome.next he)⟩

/-! ### Memories that differ in KEY and SEED only (R32) -/

/-- Two memories agree on every byte outside KEY and SEED. -/
def PublicEq (m m' : Memory) : Prop := ∀ a, ¬ (keyBase ≤ a ∧ a < seedBase + 64) → readByte m' a = readByte m a

/-- The state with another memory. -/
def withMem (m : Memory) (s : State) : State := { s with mem := m }

@[simp] theorem withMem_eng (m : Memory) (s : State) : (withMem m s).eng = s.eng := rfl
@[simp] theorem withMem_msgLen (m : Memory) (s : State) : (withMem m s).msgLen = s.msgLen := rfl

/-- States that agree but for KEY and SEED are one state with two memories. -/
theorem equalButSecrets_iff {s t : State} : EqualButSecrets s t ↔ ∃ m, PublicEq s.mem m ∧ t = withMem m s := by
  constructor
  · rintro ⟨⟨heng, hop, hschk, hlen, hhid⟩, ⟨hport, hresp, hag⟩, hctrl, hstatus, hmsg, hdraws, hmem⟩
    refine ⟨t.mem, hmem, ?_⟩
    cases t
    dsimp only at *
    subst heng hop hschk hlen hhid hport hresp hag hctrl hstatus hmsg hdraws
    rfl
  · rintro ⟨m, hm, rfl⟩
    exact ⟨⟨rfl, rfl, rfl, rfl, rfl⟩, ⟨rfl, rfl, rfl⟩, rfl, rfl, rfl, rfl, hm⟩

section
variable {m m' : Memory} (h : PublicEq m m')
include h

theorem publicEq_writeBytes (hm : m.wf = true) (hm' : m'.wf = true) (a : Nat) (bs : List Byte) :
    PublicEq (writeBytes m a bs) (writeBytes m' a bs) := by
  intro x hx
  rw [readByte_writeBytes a bs x hm, readByte_writeBytes a bs x hm', h x hx]

theorem publicEq_zeroBytes (a n : Nat) : PublicEq (zeroBytes m a n) (zeroBytes m' a n) := by
  intro x hx
  rw [readByte_zeroBytes, readByte_zeroBytes, h x hx]

/-- Past SEED the two memories read alike. -/
theorem publicEq_readByte {x : Nat} (hx : pkBase ≤ x) : readByte m' x = readByte m x :=
  h x (by unfold pkBase at hx; unfold seedBase; omega)

theorem publicEq_readBytes {a : Nat} (n : Nat) (ha : pkBase ≤ a) : readBytes m' a n = readBytes m a n :=
  readBytes_congr fun i _ => publicEq_readByte h (by omega)

theorem publicEq_readWord {o : Nat} (ho : pkBase ≤ o) : readWord m' o = readWord m o := by
  simp only [readWord, publicEq_readByte h ho, publicEq_readByte h (show pkBase ≤ o + 1 by omega),
    publicEq_readByte h (show pkBase ≤ o + 2 by omega), publicEq_readByte h (show pkBase ≤ o + 3 by omega)]

end

/-! ### Each update, over two such memories -/

theorem issueIllegal_withMem (m : Memory) (s : State) : issueIllegal (withMem m s) = withMem m (issueIllegal s) :=
  (apply_ite (withMem m) (s.eng = .busy) (raiseCmdError errBusy s) (raiseCmdError errIllegal s)).symm

section
variable {s : State} {m : Memory} (h : PublicEq s.mem m)
include h

/-- The operands of every command but SIGN are the same. -/
theorem publicEq_operands : (withMem m s).pk = s.pk ∧ (withMem m s).sig = s.sig ∧ (withMem m s).message = s.message :=
  ⟨publicEq_readBytes h 32 (by decide), publicEq_readBytes h 64 (by decide), publicEq_readBytes h _ (by decide)⟩

/-- A read answers alike: KEY and SEED read as 0, and every other word lies past them (R32, R55). -/
theorem publicEq_readValue (o : Nat) : readValue (withMem m s) o = readValue s o := by
  have hword (ho : pkBase ≤ o) : readWord (withMem m s).mem o = readWord s.mem o := publicEq_readWord h ho
  unfold pkBase at hword
  unfold readValue
  cases hr : region o with
  | pk => exact hword ((region_pk_iff o).1 hr).1
  | sig => exact hword (by have := ((region_sig_iff o).1 hr).1; omega)
  | aed => exact hword (by have := ((region_aed_iff o).1 hr).1; omega)
  | msg => exact hword (by have := ((region_msg_iff o).1 hr).1; omega)
  | _ => rfl

theorem publicEq_present (a : Access) (rest : List Event) :
    present a (withAgenda rest (withMem m s)) = withMem m (present a (withAgenda rest s)) := by
  have hans : answer (withAgenda rest (withMem m s)) a = answer (withAgenda rest s) a := by
    cases a with
    | read off w =>
      have hv : readValue (withAgenda rest (withMem m s)) off.toNat = _ := publicEq_readValue (s := withAgenda rest s) h off.toNat
      rw [answer, answer, hv]
    | write off w st v => rfl
  rw [present, hans]
  rfl

/-- The write of a command's word other than SIGN's: its intermediates depend on no secret. -/
theorem publicEq_issueCommand {i : Instr} (hi : i ≠ .sign) :
    issueCommand i (intermediatesOf i) (withMem m s) = withMem m (issueCommand i (intermediatesOf i) s) := by
  obtain ⟨hpk, hsig, hmsg⟩ := publicEq_operands (s := latchCommand i s) (m := m) h
  have hheld : intermediatesOf i (latchCommand i (withMem m s)) = intermediatesOf i (latchCommand i s) :=
    intermediatesOf_public (t := latchCommand i (withMem m s)) hi hpk hsig hmsg rfl
  have haccept : acceptCommand i (intermediatesOf i) (withMem m s) = withMem m (acceptCommand i (intermediatesOf i) s) := by
    rw [acceptCommand, hheld]
    rfl
  simp only [issueCommand, haccept, apply_ite (withMem m)]
  rfl

/-- Every command but SIGN has the same effect but for what the memories hold, and those still differ in KEY and SEED only. -/
theorem publicEq_effectOf (hs : s.mem.wf = true) (hm : m.wf = true) {i : Instr} (hi : i ≠ .sign) :
    ∃ m', PublicEq (effectOf i s).mem m' ∧ effectOf i (withMem m s) = withMem m' (effectOf i s) := by
  obtain ⟨hpk, hsig, hmsg⟩ := publicEq_operands h
  cases i with
  | sign => exact absurd rfl hi
  | map =>
    change ∃ m', PublicEq (mapEffect s).mem m' ∧ mapEffect (withMem m s) = withMem m' (mapEffect s)
    rcases mapEffect_cases s with ⟨aed, hmap, he⟩ | ⟨hmap, he⟩ <;> rw [he]
    · refine ⟨_, publicEq_writeBytes h hs hm aedBase aed, ?_⟩
      rw [mapEffect, hpk, hsig, hmap]; rfl
    · refine ⟨_, publicEq_writeBytes h hs hm aedBase (drawBytes s.draws 32), ?_⟩
      rw [mapEffect, hpk, hsig, hmap]; rfl
  | verify =>
    refine ⟨m, h, ?_⟩
    change verifyEffect (withMem m s) = withMem m (verifyEffect s)
    rw [verifyEffect, hpk, hsig, hmsg]; rfl
  | clear => exact ⟨zeroBuffers m, publicEq_zeroBytes (publicEq_zeroBytes h _ _) _ _, rfl⟩

theorem publicEq_storeValue (hs : s.mem.wf = true) (hm : m.wf = true) (off : Nat) (v : Word) :
    ∃ m', PublicEq (storeValue off v s).mem m' ∧ storeValue off v (withMem m s) = withMem m' (storeValue off v s) := by
  have hword : PublicEq (writeWord s.mem off v) (writeWord m off v) := publicEq_writeBytes h hs hm _ _
  unfold storeValue
  cases region off with
  | key | seed | pk | sig | msg => exact ⟨_, hword, rfl⟩
  | ctrl | status | cmd | msgLen | msgCap | aed | unmapped => exact ⟨m, h, rfl⟩

/-- An access has the same effect but for what the memories hold: a stored word is the host's. -/
theorem publicEq_accessEffect (hs : s.mem.wf = true) (hm : m.wf = true) (a : Access) :
    ∃ m', PublicEq (accessEffect s a).mem m' ∧ accessEffect (withMem m s) a = withMem m' (accessEffect s a) := by
  cases a with
  | read off w => exact ⟨m, h, rfl⟩
  | write off w st v =>
    obtain ⟨m', hm', he⟩ := publicEq_storeValue h hs hm off.toNat v
    simp only [accessEffect, writeValue, withMem_eng, he]
    split
    · exact ⟨m, h, rfl⟩
    · split
      · exact ⟨m, h, rfl⟩
      · split
        · exact ⟨m, h, rfl⟩
        · exact ⟨m', hm', rfl⟩

end

/-! ### Steps and runs -/

/-- No SIGN is running, and none is to come. -/
def NoSign (s : State) : Prop := NoSignToCome s ∧ ¬ (s.eng = .busy ∧ s.curOp = Instr.sign.opcode)

theorem NoSign.step {s t : State} (h : NoSign s) (hstep : step s = .next t) : NoSign t := by
  obtain ⟨hcome, hrun⟩ := h
  refine ⟨fun w hw => hcome w ?_, ?_⟩
  · rw [step_agenda hstep] at hw
    exact List.mem_of_mem_tail hw
  · rintro ⟨hbusy, hop⟩
    rcases step_engine_cases hstep with ⟨heng, hop'⟩ | ⟨_, _, i, w, rest, hn, hd, hi⟩ | ⟨_, hidle, _⟩ | ⟨hidle, _⟩
    · exact hrun ⟨heng ▸ hbusy, hop' ▸ hop⟩
    · obtain rfl := opcode_injective (hi.symm.trans hop)
      exact hcome w (hn ▸ List.mem_cons_self) hd
    all_goals rw [hbusy] at hidle; cases hidle

theorem step_memorySound {s t : State} (h : MemorySound s) (hstep : step s = .next t) : MemorySound t := by
  rcases step_next_cases hstep with
    ⟨rest, _, _, rfl⟩ | ⟨i, rest, _, _, _, rfl⟩ | ⟨rest, _, rfl⟩ |
      ⟨w, rest, _, ⟨i, _, rfl⟩ | ⟨e, _, rfl⟩⟩ | ⟨a, rest, _, _, rfl⟩
  · exact h
  · exact effectOf_memorySound (s := quiet (withAgenda rest s)) i h
  · exact ⟨rfl, rfl⟩
  · rw [MemorySound, issueCommand_mem]; exact h
  · obtain ⟨code, he⟩ := issueIllegal_eq_raise (present (cmdWrite w) (withAgenda rest s))
    rw [he]; exact h
  · exact accessEffect_memorySound (s := present a (withAgenda rest s)) h a

/-- A step that is no SIGN's, from one state over two memories that differ in KEY and SEED only, ends so again. -/
theorem publicEq_step {s t : State} {m : Memory} (h : PublicEq s.mem m) (hs : s.mem.wf = true) (hm : m.wf = true) (hsign : NoSign s)
    (hstep : step s = .next t) :
    ∃ m', PublicEq t.mem m' ∧ step (withMem m s) = .next (withMem m' t) := by
  obtain ⟨hcome, hrun⟩ := hsign
  rcases step_next_cases hstep with
    ⟨rest, hn, hidle, rfl⟩ | ⟨i, rest, hn, hbusy, hop, rfl⟩ | ⟨rest, ha, rfl⟩ |
      ⟨w, rest, ha, ⟨i, hd, rfl⟩ | ⟨e, hd, rfl⟩⟩ | ⟨a, rest, ha, hc, rfl⟩
  · exact ⟨m, h, step_of_idle (s := withMem m s) hn hidle⟩
  · have hi : i ≠ .sign := by rintro rfl; exact hrun ⟨hbusy, hop⟩
    obtain ⟨m', hm', he⟩ := publicEq_effectOf (s := quiet (withAgenda rest s)) h hs hm hi
    have he' : effectOf i (quiet (withAgenda rest (withMem m s))) = _ := he
    refine ⟨m', hm', (step_of_running (s := withMem m s) hn hbusy hop).trans ?_⟩
    rw [he']
    rfl
  · exact ⟨[], fun _ _ => rfl, step_of_reset (s := withMem m s) ha⟩
  · have hi : i ≠ .sign := by rintro rfl; exact hcome w (ha ▸ List.mem_cons_self) hd
    refine ⟨m, by rw [issueCommand_mem]; exact h, ?_⟩
    rw [step_of_legal (s := withMem m s) ha hd, publicEq_present h,
      publicEq_issueCommand (s := present (cmdWrite w) (withAgenda rest s)) h hi]
  · obtain ⟨code, he⟩ := issueIllegal_eq_raise (present (cmdWrite w) (withAgenda rest s))
    refine ⟨m, he ▸ h, ?_⟩
    rw [step_of_illegal (s := withMem m s) ha hd, publicEq_present h, issueIllegal_withMem]
  · obtain ⟨m', hm', he⟩ := publicEq_accessEffect (s := present a (withAgenda rest s)) h hs hm a
    refine ⟨m', hm', ?_⟩
    rw [step_of_plain (s := withMem m s) ha hc, publicEq_present h, he]

/-- A run of one step more: a step that goes on, and the rest of the run. -/
theorem run_succ_eq_next (M : Host.Core) {n : Nat} {s t : M.State} :
    M.run (n + 1) s = .next t ↔ ∃ u, M.step s = .next u ∧ M.run n u = .next t := by
  rw [Host.Core.run]
  cases M.step s <;> simp

/-- Settles O48, by induction on the number of steps: two states that agree but for KEY and SEED are one state over two memories. -/
theorem secretsNeverReachTheBus : Obligations.SecretsNeverReachTheBus := by
  intro n
  induction n with
  | zero =>
    intro s s' t _ _ heq _ _ hrun
    injection hrun with hrun
    exact ⟨s', rfl, hrun ▸ heq⟩
  | succ n ih =>
    intro s s' t hs hs' heq hcome hsign hrun
    obtain ⟨u, hstep, hrun⟩ := (run_succ_eq_next Sys2Proof.core).1 hrun
    obtain ⟨m, hm, rfl⟩ := equalButSecrets_iff.1 heq
    obtain ⟨m', hm', hstep'⟩ := publicEq_step hm hs.1 hs'.1 ⟨hcome, hsign⟩ hstep
    obtain ⟨hcome', hsign'⟩ := NoSign.step ⟨hcome, hsign⟩ hstep
    obtain ⟨t', hrun', heq'⟩ := ih u (withMem m' u) t (step_memorySound hs hstep) (step_memorySound hs' hstep')
      (equalButSecrets_iff.2 ⟨m', hm', rfl⟩) hcome' hsign' hrun
    exact ⟨t', (run_succ_eq_next Sys2Proof.core).2 ⟨_, hstep', hrun'⟩, heq'⟩

end Sys2Proof.Machine
end

section
/-! PROOFS. The registers and the secret buffers on the bus: CTRL, STATUS, MSG_LEN, MSG_CAP, KEY and SEED (spec/10_state.md R24, R27, R29,
R30, R32). -/

namespace Sys2Proof.Machine

/-! ### Reads -/

/-- KEY and SEED read as 0 (R32). -/
theorem readValue_secret (s : State) {o : Nat} (h1 : keyBase ≤ o) (h2 : o < seedBase + 64) : readValue s o = 0 := by
  unfold keyBase at h1
  unfold seedBase at h2
  unfold readValue
  by_cases hk : o < 0x120
  · rw [(region_key_iff o).2 ⟨h1, hk⟩]
  · rw [(region_seed_iff o).2 ⟨by omega, by omega⟩]

/-- Settles O34: KEY and SEED are mapped, and `readValue_secret`. -/
theorem secretBuffersReadAsZero : Obligations.SecretBuffersReadAsZero := by
  intro s off rest h h4 h1 h2
  have hmapped : Mapped off.toNat := .inr (.inl ⟨h1, Nat.lt_trans h2 (by decide)⟩)
  refine ⟨_, step_of_wordRead h h4 hmapped, ?_, sameBlock_outside s _ _ rest⟩
  rw [readValue_secret s h1 h2]

/-! ### CTRL -/

/-- What a write stores in SCHK (R24): the value written, but 2 for 3. -/
theorem ofWord_schk (v : Word) : (Ctrl.ofWord v).schk = if v.extractLsb' 1 2 = 3 then 2 else v.extractLsb' 1 2 := rfl

/-- Settles O37: the write is dropped while busy and stores `Ctrl.ofWord` while idle; a read answers `Ctrl.word`. -/
theorem controlWriteStoresLegalPolicy : Obligations.ControlWriteStoresLegalPolicy := by
  refine ⟨fun s v rest h => ?_, fun s rest h => ?_⟩
  · rw [step_of_wordWrite h rfl rfl]
    refine ⟨_, rfl, ?_⟩
    rcases writeValue_cases (0x000 : Offset).toNat v
        { s with agenda := rest, port := some (wordWrite 0x000 v), response := some .written } with
      ⟨hr, _⟩ | ⟨_, hb, he⟩ | ⟨_, hi, he⟩
    · exact nomatch (show Region.ctrl = Region.status from hr)
    · rw [he]
      exact ⟨rfl, rfl, ⟨rfl, rfl, rfl, rfl, rfl⟩, fun hi => (nomatch hi.symm.trans hb), fun _ => rfl⟩
    · rw [he]
      refine ⟨rfl, rfl, ⟨rfl, rfl, rfl, rfl, rfl⟩, fun _ => ?_, fun hb => (nomatch hi.symm.trans hb)⟩
      refine ⟨rfl, rfl, ofWord_schk_ne_three v, fun h3 => ?_, fun h3 => ?_⟩
      · exact (ofWord_schk v).trans (if_pos h3)
      · exact (ofWord_schk v).trans (if_neg h3)
  · obtain ⟨-, hschk, -⟩ := ctrlWord_fields s.ctrl
    exact ⟨_, _, step_of_wordRead h rfl (.inl (by decide)), rfl, hschk⟩

/-! ### STATUS -/

/-- Settles O38: the region is STATUS, whose write is taken in either engine state; the rest is what `clearBits` does to each flag. -/
theorem statusWriteClearsItsBits : Obligations.StatusWriteClearsItsBits := by
  intro s v rest h
  refine ⟨_, step_of_wordWrite h rfl rfl, rfl, ⟨rfl, rfl, rfl, rfl, rfl⟩, rfl, rfl, rfl, rfl, ?_⟩
  change (s.status.clearBits v).result = _ ∧ (s.status.clearBits v).excl = _ ∧ (s.status.clearBits v).lastOp = _ ∧
    (s.status.clearBits v).done = _ ∧ (s.status.clearBits v).err = _ ∧ (s.status.clearBits v).errCode = _
  refine ⟨Status.clearBits_result _ v, Status.clearBits_excl _ v, Status.clearBits_lastOp _ v, ?_, ?_, Status.clearBits_errCode _ v⟩
  · rw [Status.clearBits_done]; cases v.getLsbD 1 <;> simp
  · rw [Status.clearBits_err]; cases v.getLsbD 4 <;> simp

/-! ### MSG_LEN and MSG_CAP -/

/-- The step of a write to MSG_LEN while idle (R29). -/
theorem step_of_lengthWrite {s : State} {v : Word} {rest : List Event} (hi : s.eng = .idle) (h : NextAccess (wordWrite 0x00C v) rest s) :
    step s = .next { s with agenda := rest, port := some (wordWrite 0x00C v), response := some .written, msgLen := v } := by
  rw [step_of_wordWrite h rfl rfl, writeValue, if_neg (by decide), if_neg (by simp [hi])]
  rfl

/-- Settles O39: the write stores any word, and the read that follows answers it. -/
theorem messageLengthHoldsAnyValue : Obligations.MessageLengthHoldsAnyValue := by
  intro s v rest hi h
  exact ⟨_, _, step_of_lengthWrite hi h, rfl, rfl, rfl, rfl, ⟨rfl, rfl, rfl, rfl, rfl⟩,
    step_of_wordRead (rest := rest) rfl rfl (.inl (by decide)), rfl⟩

/-- Settles O40: MSG_CAP is legal and fits the word it reads as, and its region is not one a write may reach. -/
theorem capacityIsReadOnly : Obligations.CapacityIsReadOnly := by
  obtain ⟨hmod, hlow, hhigh⟩ := msgCap_legal
  refine ⟨by simp [legalMsgCap, hmod, hlow, hhigh], fun s rest h => ?_, fun s v rest h => ?_⟩
  · refine ⟨_, _, step_of_wordRead h rfl (.inl (by decide)), rfl, ?_⟩
    change (BitVec.ofNat 32 Config.msgCap).toNat = Config.msgCap
    rw [BitVec.toNat_ofNat, Nat.mod_eq_of_lt (by omega)]
  · exact step_of_busError h rfl

end Sys2Proof.Machine
end

section
/-! PROOFS. What the hidden store holds while a command runs (spec/10_state.md R37), command by command: every value fits its store of
256 bits, so the store's integer is the value. -/

namespace Sys2Proof.Machine

/-! ### Values and their stores -/

/-- A store holds a value below `2^256`. -/
theorem toNat_store {n : Nat} (h : n < 2 ^ 256) : (BitVec.ofNat 256 n).toNat = n := by
  rw [BitVec.toNat_ofNat, Nat.mod_eq_of_lt h]

/-- A store holds a string of 32 bytes. -/
theorem toNat_bytesWord {b : List Byte} (hb : b.length = 32) : (bytesWord b).toNat = leNat b :=
  toNat_store (by have := leNat_lt b; rw [hb] at this; exact Nat.lt_of_lt_of_eq this (by norm_num))

/-- A store holds a scalar reduced modulo L. -/
theorem toNat_store_scalar (n : Nat) : (BitVec.ofNat 256 (n % groupOrder)).toNat = n % groupOrder :=
  toNat_store (Nat.lt_trans (Nat.mod_lt n (by decide +kernel)) (by decide +kernel))

theorem toNat_store_field {x : Nat} (h : x < p) : (BitVec.ofNat 256 x).toNat = x :=
  toNat_store (by have := p_lt_pow255; omega)

/-- A running command's store is that of its intermediates. -/
theorem hidden_of_running {s : State} (h : s.Inv) (hb : s.eng = .busy) {i : Instr} (ho : s.curOp = i.opcode) :
    s.hidden = intermediatesOf i s := by
  obtain ⟨j, hop, -, -, -, -, hheld, -⟩ := h.busy hb
  obtain rfl := opcode_injective (hop.symm.trans ho)
  exact hheld

/-! ### SIGN -/

/-- The stores of a signing (R116 to R121): A, rReduced, EncodedR, hReduced and S, and 0 in the others. -/
theorem signatureIntermediates_holds (k m seed : List Byte) :
    let x := signatureIntermediates k m seed
    let r := signNonce k m seed
    let h := challenge (signNoncePoint r) (signPublic k) m
    x.signA.toNat = leNat (signPublic k) ∧ x.signR.toNat = r ∧ x.signEncodedR.toNat = leNat (signNoncePoint r) ∧
      x.signH.toNat = h ∧ x.signS.toNat = scMulAdd h (leNat k) r ∧ x.montX = 0 ∧ x.edY = 0 ∧ x.aEd = 0 ∧ x.strippedS = 0 ∧
      x.challenge = 0 := by
  unfold signatureIntermediates
  exact ⟨toNat_bytesWord (length_signPublic k), toNat_store_scalar _, toNat_bytesWord (length_signNoncePoint _),
    toNat_store_scalar _, toNat_store_scalar _, rfl, rfl, rfl, rfl, rfl⟩

/-! ### MAP -/

theorem edwardsY_lt (u : Nat) : edwardsY u < p := feMul_lt _ _

/-- What `MapCore` answers, as one integer: y, and the sign bit in bit 255 (R132). -/
theorem mapCore_eq_leBytes {pk : List Byte} {sb : Byte} (hu : feDecode pk ≠ p - 1) (hs : sb &&& 0x7F = 0) :
    mapCore pk sb = some (leBytes 32 (edwardsY (feDecode pk) + 2 ^ 255 * (sb.toNat / 128))) := by
  rw [mapCore_eq_some sb hu, ← leNat_mapCore (edwardsY_lt _) hs]
  have hbytes := leBytes_leNat (orByte (feEncode (edwardsY (feDecode pk))) 31 sb)
  rw [length_orByte, length_feEncode] at hbytes
  exact congrArg some hbytes.symm

/-- The stores of a map: montX, and on an input that maps edY and A_ed (R132); those of SIGN are 0. -/
def HoldsMap (x : Intermediates) (u sb : Nat) : Prop :=
  x.montX.toNat = u ∧ (u ≠ p - 1 → x.edY.toNat = edwardsY u ∧ x.aEd.toNat = edwardsY u + 2 ^ 255 * sb) ∧
    (u = p - 1 → x.edY = 0 ∧ x.aEd = 0) ∧ x.signA = 0 ∧ x.signR = 0 ∧ x.signEncodedR = 0 ∧ x.signH = 0 ∧ x.signS = 0

theorem mapCoreIntermediates_holds (pk : List Byte) {sb : Byte} (hs : sb &&& 0x7F = 0) :
    HoldsMap (mapCoreIntermediates pk sb) (feDecode pk) (sb.toNat / 128) := by
  have hmont := toNat_store_field (feDecode_lt pk)
  by_cases hu : feDecode pk = p - 1
  · rw [mapCoreIntermediates_of_none ((mapCore_eq_none_iff pk sb).2 hu)]
    exact ⟨hmont, fun hne => absurd hu hne, fun _ => ⟨rfl, rfl⟩, rfl, rfl, rfl, rfl, rfl⟩
  · rw [mapCoreIntermediates_of_some (mapCore_eq_leBytes hu hs)]
    refine ⟨hmont, fun _ => ⟨toNat_store_field (edwardsY_lt _), ?_⟩, fun h => absurd h hu, rfl, rfl, rfl, rfl, rfl⟩
    have hy := edwardsY_lt (feDecode pk)
    have hp := p_lt_pow255
    have hb := sb.isLt
    dsimp only
    rw [toNat_bytesWord (length_leBytes 32 _), leNat_leBytes, Nat.mod_eq_of_lt]
    norm_num at hp ⊢
    omega

/-- A map holds nothing in the stores of VERIFY alone. -/
theorem mapCoreIntermediates_verify (pk : List Byte) (sb : Byte) :
    (mapCoreIntermediates pk sb).strippedS = 0 ∧ (mapCoreIntermediates pk sb).challenge = 0 := by
  cases hm : mapCore pk sb with
  | none => rw [mapCoreIntermediates_of_none hm]; exact ⟨rfl, rfl⟩
  | some aed => rw [mapCoreIntermediates_of_some hm]; exact ⟨rfl, rfl⟩

/-! ### VERIFY -/

/-- VERIFY maps PK without its bit 255 (R141), which is the same input. -/
theorem feDecode_andByte31 {pk : List Byte} (hpk : pk.length = 32) : feDecode (andByte pk 31 0x7F) = feDecode pk := by
  rw [feDecode, feDecode, low255_andByte31 hpk]

/-- The stripped S of R144 as an integer. -/
theorem strippedS_eq {sig : List Byte} (hsig : sig.length = 64) : strippedS sig = leNat (sig.drop 32) % 2 ^ 255 :=
  leNat_andByte31 (by simp [sigS, hsig])

theorem sigSignBit_mask (sig : List Byte) : sigSignBit sig &&& 0x7F = 0 ∧ (sigSignBit sig).toNat / 128 = (byteAt sig 63).toNat / 128 :=
  sign_mask _

/-- The stores of a verification whose input is excluded are its map's (R140). -/
theorem verificationIntermediates_of_excluded {schk : BitVec 2} {pk m sig : List Byte} (hpk : pk.length = 32)
    (hu : feDecode pk = p - 1) :
    verificationIntermediates schk pk m sig = mapCoreIntermediates (andByte pk 31 0x7F) (sigSignBit sig) := by
  unfold verificationIntermediates
  rw [(mapCore_eq_none_iff _ _).2 ((feDecode_andByte31 hpk).trans hu)]

/-- The stores of a verification of an input that maps: its map's, the stripped S, and the challenge where it is reached (R140). -/
theorem verificationIntermediates_of_mapped {schk : BitVec 2} {pk m sig : List Byte} (hpk : pk.length = 32)
    (hu : feDecode pk ≠ p - 1) :
    let aed := leBytes 32 (edwardsY (feDecode pk) + 2 ^ 255 * ((byteAt sig 63).toNat / 128))
    verificationIntermediates schk pk m sig = { mapCoreIntermediates (andByte pk 31 0x7F) (sigSignBit sig) with
      strippedS := BitVec.ofNat 256 (strippedS sig)
      challenge := if schkAccepts schk (strippedS sig) && (pointDecode aed).isSome then
        BitVec.ofNat 256 (challenge (sigR sig) aed m) else 0 } := by
  have hu' : feDecode (andByte pk 31 0x7F) ≠ p - 1 := by rwa [feDecode_andByte31 hpk]
  obtain ⟨hmask, hbit⟩ := sigSignBit_mask sig
  have hmap := mapCore_eq_leBytes hu' hmask
  rw [feDecode_andByte31 hpk, hbit] at hmap
  unfold verificationIntermediates
  rw [hmap]

/-- A verification holds its map. -/
theorem verificationIntermediates_holdsMap (schk : BitVec 2) {pk : List Byte} (m sig : List Byte) (hpk : pk.length = 32) :
    HoldsMap (verificationIntermediates schk pk m sig) (feDecode pk) ((byteAt sig 63).toNat / 128) := by
  obtain ⟨hmask, hbit⟩ := sigSignBit_mask sig
  have hmap := mapCoreIntermediates_holds (andByte pk 31 0x7F) hmask
  rw [feDecode_andByte31 hpk, hbit] at hmap
  by_cases hu : feDecode pk = p - 1
  · rw [verificationIntermediates_of_excluded hpk hu]; exact hmap
  · rw [verificationIntermediates_of_mapped hpk hu]; exact hmap

/-- The stores of VERIFY alone (R140, R144, R148). -/
theorem verificationIntermediates_holds (schk : BitVec 2) {pk m sig : List Byte} (hpk : pk.length = 32) (hsig : sig.length = 64) :
    let x := verificationIntermediates schk pk m sig
    let u := feDecode pk
    let sc := leNat (sig.drop 32) % 2 ^ 255
    let aed := leBytes 32 (edwardsY u + 2 ^ 255 * ((byteAt sig 63).toNat / 128))
    let reached := schkAccepts schk sc = true ∧ (pointDecode aed).isSome = true
    (u ≠ p - 1 → x.strippedS.toNat = sc) ∧ (u = p - 1 → x.strippedS = 0 ∧ x.challenge = 0) ∧
      (u ≠ p - 1 ∧ reached → x.challenge.toNat = challenge (sigR sig) aed m) ∧ (¬ reached → x.challenge = 0) := by
  intro x u sc aed reached
  by_cases hu : u = p - 1
  · have hx : x = _ := verificationIntermediates_of_excluded hpk hu
    obtain ⟨hS, hC⟩ := mapCoreIntermediates_verify (andByte pk 31 0x7F) (sigSignBit sig)
    rw [hx]
    exact ⟨fun h => absurd hu h, fun _ => ⟨hS, hC⟩, fun h => absurd hu h.1, fun _ => hC⟩
  · have hx : x = _ := verificationIntermediates_of_mapped hpk hu
    rw [strippedS_eq hsig] at hx
    rw [hx]
    refine ⟨fun _ => toNat_store ?_, fun h => absurd h hu, fun ⟨_, haccepts, hdecodes⟩ => ?_, fun hn => ?_⟩
    · exact Nat.lt_trans (Nat.mod_lt _ (by norm_num)) (by norm_num)
    · exact (congrArg BitVec.toNat (if_pos (Bool.and_eq_true_iff.2 ⟨haccepts, hdecodes⟩))).trans (toNat_store_scalar _)
    · exact if_neg fun hb => hn (Bool.and_eq_true_iff.1 hb)

/-! ### The running command -/

/-- Settles O59: the invariant says whose intermediates a busy engine holds, and each command's are given above. -/
theorem runningCommandHoldsItsIntermediates : Obligations.RunningCommandHoldsItsIntermediates := by
  intro s h hb
  have hmap := mapCoreIntermediates_holds s.pk (sigSignBit_mask s.sig).1
  rw [(sigSignBit_mask s.sig).2] at hmap
  refine ⟨fun ho => ?_, fun ho => ?_, fun ho => ?_, fun ho => ?_, fun ho => ?_⟩
  · rw [hidden_of_running h hb ho]
    exact signatureIntermediates_holds s.key s.message s.seed
  · rcases ho with ho | ho <;> rw [hidden_of_running h hb ho]
    · exact hmap
    · exact verificationIntermediates_holdsMap s.curSchk s.message s.sig (length_pk s)
  · rw [hidden_of_running h hb ho]
    exact mapCoreIntermediates_verify s.pk (sigSignBit s.sig)
  · rw [hidden_of_running h hb ho]
    exact verificationIntermediates_holds s.curSchk (length_pk s) (length_sig s)
  · exact hidden_of_running h hb ho

end Sys2Proof.Machine
end

section
/-! PROOFS. The bus: which accesses end in a bus error, what a read returns, and what a write of a buffer's word stores
(spec/20_memory.md R53 to R57). -/

namespace Sys2Proof.Machine

/-! ### The answer to an access -/

/-- What an access that is no command does leaves the block's answer as it was. -/
theorem accessEffect_response (s : State) (a : Access) : (accessEffect s a).response = s.response := by
  rcases accessEffect_effects s a with
    he | ⟨v, _, he⟩ | ⟨off, v, _, _, he⟩ | ⟨v, _, _, he⟩ | ⟨v, _, _, he⟩ | ⟨off, v, _, _, _, _, he⟩ <;>
  exact (congrArg State.response he :)

/-- A write of a command's word leaves the block's answer as it was. -/
theorem issueCommand_response (i : Instr) (s : State) : (issueCommand i (intermediatesOf i) s).response = s.response := by
  rcases issueCommand_cases i s with ⟨_, he⟩ | ⟨_, _, _, he⟩ | ⟨_, _, he⟩ <;> rw [he] <;> rfl

/-- Every access is answered, in either engine state, and the block goes on (R61). -/
theorem step_of_access {s : State} {a : Access} {rest : List Event} (h : NextAccess a rest s) :
    ∃ t, step s = .next t ∧ t.response = some (answer (withAgenda rest s) a) := by
  cases hw : a.commandWord with
  | none => exact ⟨_, step_of_plain h hw, accessEffect_response _ a⟩
  | some w =>
    obtain rfl := commandWord_eq_some hw
    cases hd : decode w with
    | ok i => exact ⟨_, step_of_legal h hd, issueCommand_response i _⟩
    | error e =>
      refine ⟨_, step_of_illegal h hd, ?_⟩
      obtain ⟨code, he⟩ := issueIllegal_eq_raise (present (cmdWrite w) (withAgenda rest s))
      rw [he]
      rfl

/-- The answer is the error response exactly to the accesses that are bus errors (R54). -/
theorem answer_eq_busError_iff (s : State) (a : Access) : answer s a = .busError a.offset ↔ a.isBusError = true := by
  cases a <;> simp [answer, Access.offset]

/-- Settles O35: the answer tells the accesses of R54 from the others, and a bus error leaves the block as it was. -/
theorem busErrorsChangeNothing : Obligations.BusErrorsChangeNothing := by
  intro s a rest h
  obtain ⟨t, hstep, hresponse⟩ := step_of_access h
  refine ⟨t, hstep, ?_, ?_, fun hbreaks => ?_⟩
  · rw [step_agenda hstep, h]
    rfl
  · rw [hresponse, Option.some_inj, answer_eq_busError_iff, isBusError_iff]
  · obtain ⟨t', hstep', -, hsame⟩ := step_of_busError h ((isBusError_iff a).2 hbreaks)
    obtain rfl : t = t' := by simpa using hstep.symm.trans hstep'
    exact hsame

/-! ### Reads -/

/-- The `CTRL` word (R23, R55): SCHK in bits 2:1 and IE in bit 0. -/
theorem ctrlWord_eq (c : Ctrl) : c.word = (c.schk.setWidth 32 <<< 1) ||| (BitVec.ofBool c.ie).setWidth 32 := by
  obtain ⟨ie, schk⟩ := c
  revert ie schk
  decide

/-- The capacity fits the word it reads as (R30). -/
theorem toNat_msgCap : (BitVec.ofNat 32 Config.msgCap).toNat = Config.msgCap := by
  obtain ⟨-, -, hhigh⟩ := msgCap_legal
  rw [BitVec.toNat_ofNat, Nat.mod_eq_of_lt (by omega)]

/-- The buffers whose bytes a read shows are PK, SIG, AED and MSG (R32, R55). -/
theorem readValue_buffer (s : State) {o : Nat} (hm : Mapped o) (h : (0x160 ≤ o ∧ o < 0x1E0) ∨ 0x1000 ≤ o) :
    readValue s o = readWord s.mem o := by
  have hregion : region o = .pk ∨ region o = .sig ∨ region o = .aed ∨ region o = .msg := by
    rw [region_pk_iff, region_sig_iff, region_aed_iff, region_msg_iff]
    unfold Mapped at hm
    omega
  unfold readValue
  rcases hregion with hr | hr | hr | hr <;> rw [hr]

/-- Settles O33: a read answers `readValue`, which each row of the table takes to a register's word, to 0 or to a buffer's four bytes. -/
theorem readsReturnTheirTable : Obligations.ReadsReturnTheirTable := by
  intro s off rest h h4 hm
  refine ⟨_, _, step_of_wordRead h h4 hm, rfl, rfl, sameBlock_outside s _ _ rest, ?_, ?_, ?_, ?_, ?_, ?_, ?_⟩
  · rintro rfl; exact ctrlWord_eq s.ctrl
  · rintro rfl
    obtain ⟨hbusy, hdone, hresult, hexcl, herr⟩ := statusWord_bits s
    exact ⟨hbusy, hdone, hresult, hexcl, herr, statusWord_reserved5 s, statusWord_errCode s, statusWord_reserved12 s,
      statusWord_lastOp s, statusWord_reserved24 s⟩
  · rintro rfl; rfl
  · rintro rfl; rfl
  · rintro rfl; exact toNat_msgCap
  · exact readValue_secret s
  · intro hbuf j hj
    rw [readValue_buffer s hm hbuf, byte_of_readWord s.mem _ j hj]

/-! ### Writes while idle -/

/-- A full-word write at a multiple of 4 in a buffer the host may write is no bus error (R54). -/
theorem isBusError_bufferWrite {off : Offset} (v : Word) (h4 : off.toNat % 4 = 0) (hb : HostBuffer off.toNat) :
    (wordWrite off v).isBusError = false := by
  rw [Bool.eq_false_iff, ne_eq, isBusError_iff]
  unfold HostBuffer at hb
  rintro (hwidth | hstrobes | halign | hmap | haed | hcap)
  · exact hwidth rfl
  · exact hstrobes rfl
  · exact halign h4
  · unfold Mapped at hmap; omega
  · omega
  · omega

/-- A write in a buffer is no command (R28). -/
theorem commandWord_bufferWrite {off : Offset} (v : Word) (hb : HostBuffer off.toNat) : (wordWrite off v).commandWord = none := by
  cases hw : (wordWrite off v).commandWord with
  | none => rfl
  | some w =>
    obtain rfl : off = 0x008 := congrArg Access.offset (commandWord_eq_some hw)
    exact absurd hb (by unfold HostBuffer; decide)

/-- A write in a buffer while idle stores its word there (R56). -/
theorem writeValue_buffer {s : State} {o : Nat} (v : Word) (hi : s.eng = .idle) (hb : HostBuffer o) :
    writeValue o v s = { s with mem := writeWord s.mem o v } := by
  unfold writeValue storeValue
  rcases (hostBuffer_iff o).1 hb with hr | hr | hr | hr | hr <;> rw [hr, hi] <;> rfl

/-- The step of a write of a buffer's word while idle (R56). -/
theorem step_of_bufferWrite {s : State} {off : Offset} {v : Word} {rest : List Event} (hi : s.eng = .idle)
    (h : NextAccess (wordWrite off v) rest s) (h4 : off.toNat % 4 = 0) (hb : HostBuffer off.toNat) :
    step s = .next { s with
      agenda := rest, port := some (wordWrite off v), response := some .written, mem := writeWord s.mem off.toNat v } := by
  rw [step_of_wordWrite h (isBusError_bufferWrite v h4 hb) (commandWord_bufferWrite v hb), writeValue_buffer v (by exact hi) hb]

/-- Settles O36: the step stores the word's four lanes, and a read of a byte after them is `readByte_writeWord`. -/
theorem bufferWritesAreLittleEndian : Obligations.BufferWritesAreLittleEndian := by
  intro s off v rest hi hw h h4 hb
  refine ⟨_, step_of_bufferWrite hi h h4 hb, fun j hj => ?_, fun a ha => ?_, ⟨rfl, rfl, rfl, rfl, rfl⟩, rfl, rfl, rfl, rfl, rfl⟩
  · rw [readByte_writeWord _ _ v hw, if_pos (by omega), Nat.add_sub_cancel_left]
  · rw [readByte_writeWord _ _ v hw, if_neg ha]

/-- The step of a write to CTRL while idle (R24). -/
theorem step_of_ctrlWrite {s : State} {v : Word} {rest : List Event} (hi : s.eng = .idle) (h : NextAccess (wordWrite 0x000 v) rest s) :
    step s = .next
      { s with agenda := rest, port := some (wordWrite 0x000 v), response := some .written, ctrl := Ctrl.ofWord v } := by
  rw [step_of_wordWrite h rfl rfl, writeValue, if_neg (by decide), if_neg (by simp [hi])]
  rfl

/-- A word stored twice at one offset is stored once. -/
theorem writeWord_writeWord {m : Memory} (off : Nat) (v : Word) (h : m.wf = true) :
    writeWord (writeWord m off v) off v = writeWord m off v := by
  have hw : (writeWord m off v).wf = true := wf_writeBytes _ _ h
  refine Memory.ext_readByte (wf_writeBytes _ _ hw) hw fun x => ?_
  rw [readByte_writeWord off x v hw, readByte_writeWord off x v h]
  split <;> rfl

/-- Settles O42: the two registers hold the word written, whatever they held before, and a buffer's word is `writeWord_writeWord`. -/
theorem repeatedWriteIsOneWrite : Obligations.RepeatedWriteIsOneWrite := by
  intro s off v rest hi hw h h4 hoff
  rcases hoff with rfl | rfl | hb
  · exact ⟨_, _, step_of_ctrlWrite hi h, step_of_ctrlWrite (rest := rest) hi rfl,
      ⟨rfl, rfl, rfl, rfl, rfl⟩, rfl, rfl, rfl, rfl, rfl⟩
  · exact ⟨_, _, step_of_lengthWrite hi h, step_of_lengthWrite (rest := rest) hi rfl,
      ⟨rfl, rfl, rfl, rfl, rfl⟩, rfl, rfl, rfl, rfl, rfl⟩
  · exact ⟨_, _, step_of_bufferWrite hi h h4 hb, step_of_bufferWrite (rest := rest) hi rfl h4 hb,
      ⟨rfl, rfl, rfl, rfl, rfl⟩, rfl, rfl, rfl, writeWord_writeWord _ v hw, rfl⟩

end Sys2Proof.Machine
end

section
/-! PROOFS. Command words: decoding and encoding agree, and a word that is no command's is command error 1 (spec/30_encoding.md R70 to
R74). -/

namespace Sys2Proof.Machine

/-- A command's own word decodes to it (R73). -/
@[simp] theorem decode_encode (i : Instr) : decode (encode i) = .ok i := by cases i <;> rfl

/-- Settles O6: `eq_encode_of_decode` and `decode_encode` are its two directions. -/
theorem decoderTakesExactlyTheEncodedWords : Obligations.DecoderTakesExactlyTheEncodedWords := by
  refine fun w i => ⟨eq_encode_of_decode, ?_⟩
  rintro rfl
  exact decode_encode i

/-- Settles O5: the legal words are the encoder's, and the decoder rejects the other four by their opcode or their reserved bits. -/
theorem tableWordsDecode : Obligations.TableWordsDecode :=
  ⟨decode_encode .sign, decode_encode .map, decode_encode .verify, decode_encode .clear, rfl, rfl, rfl, rfl⟩

/-- A word that no command has is rejected by the decoder (R74). -/
theorem decode_eq_error_of_ne_encode {w : Word} (h : ∀ i, w ≠ encode i) : ∃ e, decode w = .error e := by
  cases hd : decode w with
  | error e => exact ⟨e, rfl⟩
  | ok i => exact absurd (eq_encode_of_decode hd) (h i)

theorem issueIllegal_of_idle {s : State} (hi : s.eng = .idle) : issueIllegal s = raiseCmdError errIllegal s :=
  if_neg (by simp [hi])

/-- Settles O7: the decoder rejects the word, so the idle block raises command error 1, which touches ERR and ERRCODE alone. -/
theorem illegalWordRaisesErrorOneOnly : Obligations.IllegalWordRaisesErrorOneOnly := by
  intro s w rest hi h hw
  obtain ⟨e, hd⟩ := decode_eq_error_of_ne_encode hw
  refine ⟨_, step_of_illegal h hd, ?_⟩
  rw [issueIllegal_of_idle (by exact hi)]
  exact ⟨rfl, ⟨rfl, rfl, rfl, rfl, rfl⟩, rfl, rfl, rfl, rfl, rfl, rfl⟩

/-! ### MAP's operands are implicit (R71) -/

/-- MAP's effect on STATUS is on EXCL alone (R131, R133). -/
theorem mapEffect_status (s : State) : (mapEffect s).status = { s.status with excl := (mapEffect s).status.excl } := by
  rcases mapEffect_cases s with ⟨aed, _, he⟩ | ⟨_, he⟩ <;> rw [he]

/-- A string that does not meet AED reads after MAP's effect as before it. -/
theorem readBytes_mapEffect_other (s : State) {a n : Nat} (h : a + n ≤ aedBase ∨ aedBase + 32 ≤ a) :
    readBytes (mapEffect s).mem a n = readBytes s.mem a n :=
  readBytes_congr fun i hi => readByte_mapEffect_other s (by omega)

/-- Settles O19: MAP's completion is its effect and `retire`; the effect stores in AED, and every other buffer lies off AED. -/
theorem mapLeavesTheRestUnchanged : Obligations.MapLeavesTheRestUnchanged := by
  rintro s ⟨hport, hbusy, hop⟩
  refine ⟨retire (mapEffect s), exec_of_running hport hbusy hop, fun a ha => readByte_mapEffect_other s ha,
    readBytes_mapEffect_other s (by decide), readBytes_mapEffect_other s (by decide), readBytes_mapEffect_other s (by decide),
    readBytes_mapEffect_other s (by decide), mapEffect_msgLen s, mapEffect_ctrl s, ?_,
    mapEffect_port s, mapEffect_response s, mapEffect_agenda s⟩
  rw [retire_status, mapEffect_status]

end Sys2Proof.Machine
end

section
/-! PROOFS. The host of spec/30_encoding.md R75 to R77: what one statement does, the writes of LOAD and the loop of WAIT_IDLE. -/

namespace Sys2Proof.Machine

/-! ### One statement -/

section
variable {prog : List HostStmt} {h : HostRun}

/-- A running host runs the statement of its line. -/
theorem move_host_of_line {st : HostStmt} (hrun : h.status = .running) (hline : prog[h.line]? = some st) :
    h.move prog .host = h.runStmt prog st := by
  rw [HostRun.move, if_pos hrun, hline]

/-- A running host past its last line is finished. -/
theorem move_host_past_end (hrun : h.status = .running) (hline : prog[h.line]? = none) :
    h.move prog .host = { h with status := .finished } := by
  rw [HostRun.move, if_pos hrun, hline]

/-- A host that has stopped stays as it is. -/
theorem move_host_of_stopped (hstop : h.status ≠ .running) : h.move prog .host = h := if_neg hstop

/-- A move of the block is its step. -/
theorem move_block {t : State} (hstep : step h.block = .next t) : h.move prog .block = { h with block := t } := by
  rw [HostRun.move, hstep]

theorem moves_cons (who : Mover) (ms : List Mover) : h.moves prog (who :: ms) = (h.move prog who).moves prog ms := rfl

theorem moves_append (ms ms' : List Mover) : h.moves prog (ms ++ ms') = (h.moves prog ms).moves prog ms' := List.foldl_append

end

section
variable (h : HostRun) (k : HostRun → Word → HostRun)

/-- An access inside the window is the block's (R11). -/
theorem accessAt_inside {off : Nat} (a : Offset → Access) (hoff : off < 0x10000) :
    h.accessAt off a k = h.afterAccess (busStep (a (BitVec.ofNat 16 off)) h.block) k := if_pos hoff

/-- An access past the window does not reach the block (assumption 16). -/
theorem accessAt_past {off : Nat} (a : Offset → Access) (hoff : 0x10000 ≤ off) :
    h.accessAt off a k = { h with status := .busErrored } := if_neg (Nat.not_lt.2 hoff)

theorem afterAccess_written {t : State} (hr : t.response = some .written) :
    h.afterAccess (.next t) k = { h with block := t, line := h.line + 1 } := by
  simp only [HostRun.afterAccess, hr]

theorem afterAccess_value {t : State} {v : Word} (hr : t.response = some (.value v)) :
    h.afterAccess (.next t) k = k { h with block := t, line := h.line + 1 } v := by
  simp only [HostRun.afterAccess, hr]

theorem afterAccess_busError {t : State} {off : Offset} (hr : t.response = some (.busError off)) :
    h.afterAccess (.next t) k = { h with block := t, status := .busErrored } := by
  simp only [HostRun.afterAccess, hr]

end

/-- A host's write of a buffer's word while idle stores it, whatever else is to come (R53). -/
theorem busStep_bufferWrite {s : State} {off : Offset} (v : Word) (hi : s.eng = .idle) (h4 : off.toNat % 4 = 0)
    (hb : HostBuffer off.toNat) :
    busStep (wordWrite off v) s = .next { s with
      port := some (wordWrite off v), response := some .written, mem := writeWord s.mem off.toNat v } :=
  step_of_bufferWrite (s := withAgenda (.access (wordWrite off v) :: s.agenda) s) hi rfl h4 hb

/-- A host's read of a mapped word answers it and leaves the block as it was, whatever else is to come (R55). -/
theorem busStep_wordRead (s : State) {off : Offset} (h4 : off.toNat % 4 = 0) (hm : Mapped off.toNat) :
    busStep (wordRead off) s = .next { s with
      port := some (wordRead off), response := some (.value (readValue s off.toNat)) } :=
  step_of_wordRead (s := withAgenda (.access (wordRead off) :: s.agenda) s) rfl h4 hm

section
variable {prog : List HostStmt} {h : HostRun} {off : OffsetExpr} {t : State}

/-- A `WR` inside the window hands the block's answer to its full-word write to `afterAccess`. -/
theorem move_host_wr {imm : Word} (hrun : h.status = .running) (hline : prog[h.line]? = some (.wr off imm))
    (hin : off.value < 0x10000) (hstep : busStep (wordWrite (BitVec.ofNat 16 off.value) imm) h.block = .next t) :
    h.move prog .host = h.afterAccess (.next t) fun g _ => g := by
  rw [move_host_of_line hrun hline, HostRun.runStmt, accessAt_inside _ _ _ hin, ← hstep, wordWrite]

/-- An `RD` inside the window hands the block's answer to its full-word read to `afterAccess`. -/
theorem move_host_rd {name : ValueName} (hrun : h.status = .running) (hline : prog[h.line]? = some (.rd off name))
    (hin : off.value < 0x10000) (hstep : busStep (wordRead (BitVec.ofNat 16 off.value)) h.block = .next t) :
    h.move prog .host = h.afterAccess (.next t) fun g v => { g with values := (name, v) :: g.values } := by
  rw [move_host_of_line hrun hline, HostRun.runStmt, accessAt_inside _ _ _ hin, ← hstep, wordRead]

section
variable {bit : Fin 32} {val : Bool} {l : Label} {v : Word}

/-- A `BRBIT` whose bit is the wanted one goes to its label (R75). -/
theorem move_host_brbit_taken {n : Nat} (hrun : h.status = .running) (hline : prog[h.line]? = some (.brbit off bit val l))
    (hin : off.value < 0x10000) (hstep : busStep (wordRead (BitVec.ofNat 16 off.value)) h.block = .next t)
    (hr : t.response = some (.value v)) (hbit : v.getLsbD bit.val = val) (hlabel : findLabel l prog 0 = some n) :
    h.move prog .host = { h with block := t, line := n } := by
  rw [wordRead] at hstep
  rw [move_host_of_line hrun hline, HostRun.runStmt, accessAt_inside _ _ _ hin, hstep, afterAccess_value _ _ hr, if_pos hbit, hlabel]

/-- A `BRBIT` whose bit is not the wanted one goes on to the next line (R75). -/
theorem move_host_brbit_passed (hrun : h.status = .running) (hline : prog[h.line]? = some (.brbit off bit val l))
    (hin : off.value < 0x10000) (hstep : busStep (wordRead (BitVec.ofNat 16 off.value)) h.block = .next t)
    (hr : t.response = some (.value v)) (hbit : v.getLsbD bit.val ≠ val) :
    h.move prog .host = { h with block := t, line := h.line + 1 } := by
  rw [wordRead] at hstep
  rw [move_host_of_line hrun hline, HostRun.runStmt, accessAt_inside _ _ _ hin, hstep, afterAccess_value _ _ hr, if_neg hbit]

end
end

/-- Settles O60: inside the window a statement's access is the block's step, whose response decides, and past it a bus error. -/
theorem hostAccessesReachTheirOffset : Obligations.HostAccessesReachTheirOffset := by
  refine fun prog h off hrun => ⟨fun hin a t hstep => ⟨fun imm hline ha => ?_, fun name hline ha => ?_⟩, ?_⟩
  · subst ha
    have hmove := move_host_wr hrun hline hin hstep
    exact ⟨fun hr => hmove.trans (afterAccess_written _ _ hr), fun hr => hmove.trans (afterAccess_busError _ _ hr)⟩
  · subst ha
    have hmove := move_host_rd hrun hline hin hstep
    exact ⟨fun v hr => hmove.trans (afterAccess_value _ _ hr), fun hr => hmove.trans (afterAccess_busError _ _ hr)⟩
  · rintro hpast (⟨imm, hline⟩ | ⟨name, hline⟩ | ⟨bit, val, l, hline⟩) <;>
    rw [move_host_of_line hrun hline, HostRun.runStmt, accessAt_past _ _ _ hpast]

/-! ### LOAD -/

@[simp] theorem value_add (off : OffsetExpr) (k : Nat) : (off.add k).value = off.value + k := by
  cases off with
  | number n => rfl
  | named r j => exact (Nat.add_assoc r.start j k).symm

@[simp] theorem length_storeLanes (off : OffsetExpr) (ws : List Word) : (storeLanes off ws).length = ws.length := by
  induction ws generalizing off with
  | nil => rfl
  | cons w ws ih => simp [storeLanes, ih]

theorem wordBytes_laneWord (b0 b1 b2 b3 : Byte) : wordBytes (laneWord b0 b1 b2 b3) = [b0, b1, b2, b3] := by
  obtain ⟨h0, h1, h2, h3⟩ := laneWord_bytes b0 b1 b2 b3
  rw [wordBytes, h0, h1, h2, h3]

/-- The bytes of a string's words are the string, padded (R77). -/
theorem flatMap_wordBytes_lanesOf (bytes : List Byte) :
    (lanesOf bytes).flatMap wordBytes = bytes ++ zeros ((4 - bytes.length % 4) % 4) := by
  induction bytes using lanesOf.induct with
  | case1 => rfl
  | case2 b0 => exact congrArg (· ++ []) (wordBytes_laneWord b0 0 0 0)
  | case3 b0 b1 => exact congrArg (· ++ []) (wordBytes_laneWord b0 b1 0 0)
  | case4 b0 b1 b2 => exact congrArg (· ++ []) (wordBytes_laneWord b0 b1 b2 0)
  | case5 b0 b1 b2 b3 bs ih =>
    rw [lanesOf, List.flatMap_cons, ih, wordBytes_laneWord]
    simp [Nat.add_assoc]

/-- A string has a word for each of its offsets that is a multiple of 4. -/
theorem length_lanesOf (bytes : List Byte) : (lanesOf bytes).length = (bytes.length + 3) / 4 := by
  induction bytes using lanesOf.induct with
  | case5 b0 b1 b2 b3 bs ih => rw [lanesOf, List.length_cons, ih]; simp only [List.length_cons]; omega
  | _ => simp [lanesOf]

/-- Two strings stored one behind the other are stored as one. -/
theorem writeBytes_append (m : Memory) (a : Nat) (bs cs : List Byte) :
    writeBytes m a (bs ++ cs) = writeBytes (writeBytes m a bs) (a + bs.length) cs := by
  induction bs generalizing m a with
  | nil => rfl
  | cons b bs ih => rw [List.cons_append, writeBytes, writeBytes, ih, List.length_cons, Nat.add_assoc, Nat.add_comm 1]

/-- A `WR` of a buffer's word while idle stores it, and the host goes on (R53, R75). -/
theorem move_host_bufferWrite {prog : List HostStmt} {h : HostRun} {off : OffsetExpr} {v : Word} (hrun : h.status = .running)
    (hline : prog[h.line]? = some (.wr off v)) (hi : h.block.eng = .idle) (h4 : off.value % 4 = 0) (hb : HostBuffer off.value) :
    ∃ port response, h.move prog .host =
      { h with
        block := { h.block with port := port, response := response, mem := writeWord h.block.mem off.value v }
        line := h.line + 1 } := by
  have hin : off.value < 0x10000 := by
    have := msgCap_legal
    unfold HostBuffer at hb
    omega
  have hoff : (BitVec.ofNat 16 off.value).toNat = off.value := Nat.mod_eq_of_lt hin
  have hstep := busStep_bufferWrite v hi (hoff.symm ▸ h4) (hoff.symm ▸ hb)
  rw [hoff] at hstep
  exact ⟨_, _, (move_host_wr hrun hline hin hstep).trans (afterAccess_written _ _ rfl)⟩

/-- The writes of a list of words, run while idle, store the words' bytes and leave everything else of the block as it was. -/
theorem moves_storeLanes {prog rest : List HostStmt} {h : HostRun} {off : OffsetExpr} {ws : List Word} (hrun : h.status = .running)
    (hprog : prog.drop h.line = storeLanes off ws ++ rest) (hi : h.block.eng = .idle) (h4 : off.value % 4 = 0)
    (hb : ∀ k < ws.length, HostBuffer (off.value + 4 * k)) :
    ∃ port response, h.moves prog (List.replicate ws.length .host) =
      { h with
        block := { h.block with
          port := port, response := response, mem := writeBytes h.block.mem off.value (ws.flatMap wordBytes) }
        line := h.line + ws.length } := by
  induction ws generalizing h off with
  | nil => exact ⟨_, _, rfl⟩
  | cons w ws ih =>
    have hline : prog[h.line]? = some (.wr off w) := by rw [← List.head?_drop, hprog]; rfl
    obtain ⟨port, response, hmove⟩ := move_host_bufferWrite hrun hline hi h4 (hb 0 (Nat.succ_pos _))
    have hdrop : prog.drop (h.line + 1) = storeLanes (off.add 4) ws ++ rest := by
      rw [← List.drop_drop, hprog]; rfl
    rw [List.length_cons, List.replicate_succ, moves_cons, hmove]
    obtain ⟨port', response', hmoves⟩ := ih (h := { h with
        block := { h.block with port := port, response := response, mem := writeWord h.block.mem off.value w }
        line := h.line + 1 }) hrun hdrop hi (by rw [value_add]; omega)
      fun k hk => by
        rw [value_add, show off.value + 4 + 4 * k = off.value + 4 * (k + 1) by omega]
        exact hb (k + 1) (Nat.succ_lt_succ hk)
    refine ⟨port', response', hmoves.trans ?_⟩
    rw [List.flatMap_cons, writeBytes_append, value_add, length_wordBytes, Nat.add_assoc h.line, Nat.add_comm 1]
    rfl

/-- Settles O51: `moves_storeLanes` runs the expansion, whose words are the padded string's, and a string stored is read back. -/
theorem loadStoresItsBytes : Obligations.LoadStoresItsBytes := by
  intro s base bytes hi hw _ h4 hb prog h padded
  have hlen : prog.length = (lanesOf bytes).length := by
    rw [← length_storeLanes (.number base), ← List.append_nil (storeLanes _ _)]; rfl
  have hwords : (lanesOf bytes).flatMap wordBytes = padded := flatMap_wordBytes_lanesOf bytes
  obtain ⟨port, response, hmoves⟩ := moves_storeLanes (prog := prog) (rest := []) (h := HostRun.start s) (off := .number base)
    (ws := lanesOf bytes) rfl rfl hi h4 fun k hk => by
      rw [length_lanesOf] at hk
      exact hb _ (Nat.le_add_right _ _) (by simp only [OffsetExpr.value]; omega)
  rw [← hlen, hwords] at hmoves
  have hrun : h = _ := hmoves
  rw [hrun]
  refine ⟨rfl, Nat.zero_add _, readBytes_writeBytes base padded hw, fun a ha => ?_, rfl, rfl, rfl, hi⟩
  exact readByte_writeBytes_other _ _ (by simp only [OffsetExpr.value]; omega)

/-! ### WAIT_IDLE -/

/-- The expansion of WAIT_IDLE, and of nothing else. -/
def waitLoop : List HostStmt := expandLines 0 [.waitIdle]

/-- A host in the loop of WAIT_IDLE, or past it. -/
def InWaitLoop (h : HostRun) : Prop := (h.status = .running ∧ h.line ≤ 2) ∨ (h.status = .finished ∧ h.line = 2)

theorem inWaitLoop_start (s : State) : InWaitLoop (HostRun.start s) := .inl ⟨rfl, Nat.zero_le 2⟩

/-- The loop's `BRBIT` reads STATUS, which leaves the block as it was, and goes back to the label exactly while the engine is busy. -/
theorem move_host_poll {h : HostRun} (hrun : h.status = .running) (hline : h.line = 1) :
    ∃ port response, h.move waitLoop .host =
      { h with block := { h.block with port := port, response := response }, line := if h.block.eng = .busy then 0 else 2 } := by
  have hst : waitLoop[h.line]? = some (.brbit (.named .status 0) 0 true (.fresh 0)) := by rw [hline]; rfl
  have hbit : (readValue h.block 0x004).getLsbD 0 = true ↔ h.block.eng = .busy := by
    obtain ⟨hbusy, -⟩ := statusWord_bits h.block
    exact (Bool.eq_iff_iff.1 hbusy).trans beq_iff_eq
  have hstep := busStep_wordRead h.block (off := 0x004) rfl (.inl (by decide))
  by_cases hb : h.block.eng = .busy
  · rw [if_pos hb]
    exact ⟨_, _, move_host_brbit_taken hrun hst (by decide) hstep rfl (hbit.2 hb) rfl⟩
  · rw [if_neg hb, show 2 = h.line + 1 by rw [hline]]
    exact ⟨_, _, move_host_brbit_passed hrun hst (by decide) hstep rfl (mt hbit.1 hb)⟩

/-- What a move of the host keeps in the loop; with the engine idle each move brings it one line nearer to the loop's end. -/
theorem move_host_waitLoop {h : HostRun} (hl : InWaitLoop h) :
    InWaitLoop (h.move waitLoop .host) ∧
      (∃ port response, (h.move waitLoop .host).block = { h.block with port := port, response := response }) ∧
      (h.block.eng = .idle → (h.move waitLoop .host).line = min (h.line + 1) 2) := by
  rcases hl with ⟨hrun, hle⟩ | ⟨hfin, hline⟩
  · obtain hline | hline | hline : h.line = 0 ∨ h.line = 1 ∨ h.line = 2 := by omega
    · have hst : waitLoop[h.line]? = some (.label (.fresh 0)) := by rw [hline]; rfl
      rw [move_host_of_line hrun hst]
      refine ⟨.inl ⟨hrun, ?_⟩, ⟨_, _, rfl⟩, fun _ => ?_⟩ <;> simp [HostRun.runStmt, hline]
    · obtain ⟨port, response, hmove⟩ := move_host_poll hrun hline
      rw [hmove]
      refine ⟨.inl ⟨hrun, ?_⟩, ⟨port, response, rfl⟩, fun hi => ?_⟩
      · dsimp only; split <;> omega
      · simp [hi, hline]
    · rw [move_host_past_end hrun (by rw [hline]; rfl)]
      exact ⟨.inr ⟨rfl, hline⟩, ⟨_, _, rfl⟩, fun _ => by simp [hline]⟩
  · rw [move_host_of_stopped (by simp [hfin])]
    exact ⟨.inr ⟨hfin, hline⟩, ⟨_, _, rfl⟩, fun _ => by simp [hline]⟩

/-- Polling keeps the host in the loop and everything that the block holds. -/
theorem moves_host_waitLoop {h : HostRun} (n : Nat) (hl : InWaitLoop h) :
    InWaitLoop (h.moves waitLoop (List.replicate n .host)) ∧
      ∃ port response, (h.moves waitLoop (List.replicate n .host)).block = { h.block with port := port, response := response } := by
  induction n generalizing h with
  | zero => exact ⟨hl, _, _, rfl⟩
  | succ n ih =>
    obtain ⟨hl', ⟨port, response, hblock⟩, -⟩ := move_host_waitLoop hl
    obtain ⟨hln, port', response', hblock'⟩ := ih hl'
    exact ⟨hln, port', response', hblock'.trans (by rw [hblock])⟩

/-- With the engine idle three moves take the host past the loop's end (R77). -/
theorem moves_host_waitLoop_idle {h : HostRun} (hl : InWaitLoop h) (hi : h.block.eng = .idle) :
    (h.moves waitLoop (List.replicate 3 .host)).line = 2 := by
  obtain ⟨hl1, ⟨_, _, hb1⟩, hline1⟩ := move_host_waitLoop hl
  obtain ⟨hl2, ⟨_, _, hb2⟩, hline2⟩ := move_host_waitLoop hl1
  obtain ⟨-, -, hline3⟩ := move_host_waitLoop hl2
  have hi1 : (h.move waitLoop .host).block.eng = .idle := by rw [hb1]; exact hi
  have hi2 : ((h.move waitLoop .host).move waitLoop .host).block.eng = .idle := by rw [hb2]; exact hi1
  refine (hline3 hi2).trans ?_
  rw [hline2 hi1, hline1 hi]
  omega

/-- With nothing else to come the block's own step leaves a sound block's engine idle: a running command completes (R36, R196). -/
theorem step_own_idle {s : State} (hinv : s.Inv) (hag : s.agenda = []) : ∃ t, step s = .next t ∧ t.eng = .idle := by
  have hown : OwnNext [] s := .inr ⟨hag, rfl⟩
  cases he : s.eng with
  | idle => exact ⟨_, step_of_idle hown he, he⟩
  | busy =>
    obtain ⟨i, hop, -⟩ := hinv.busy he
    exact ⟨_, step_of_running hown he hop, rfl⟩

/-- Settles O50: polling keeps the block, its move leaves it idle, and an idle block lets the host out of the loop. -/
theorem waitIdleEnds : Obligations.WaitIdleEnds := by
  intro s n hinv hag prog h
  obtain ⟨hl, port, response, hblock⟩ := moves_host_waitLoop n (inWaitLoop_start s)
  let g := (HostRun.start s).moves waitLoop (List.replicate n .host)
  obtain ⟨t, hstep, hidle⟩ : ∃ t, step g.block = .next t ∧ t.eng = .idle := by
    rw [hblock]
    exact step_own_idle (inv_of_sameBlock hinv (sameBlock_outside s port response s.agenda)) hag
  have hmoves : h = HostRun.moves waitLoop { g with block := t } (List.replicate 3 .host) := by
    rw [← move_block hstep, ← moves_cons, ← moves_append, List.append_cons]; rfl
  obtain ⟨hl', port', response', hblock'⟩ := moves_host_waitLoop (h := { g with block := t }) 3 hl
  rw [hmoves]
  refine ⟨by rw [hblock']; exact hidle, moves_host_waitLoop_idle (h := { g with block := t }) hl hidle, ?_⟩
  rcases hl' with ⟨hrun, -⟩ | ⟨hfin, -⟩
  · exact .inl hrun
  · exact .inr hfin

end Sys2Proof.Machine
end

section
/-! PROOFS. The field: its inverse and its encoding (spec/40_primitives.md R88, R90). -/

namespace Sys2Proof.Machine

/-- A field element other than 0 is not 0 in the field. -/
theorem cast_ne_zero_of_lt {x : Nat} (hx : x < p) (h0 : x ≠ 0) : (x : ZMod p) ≠ 0 := fun h =>
  h0 (by rw [← Nat.mod_eq_of_lt hx]; exact (cast_eq_zero_iff x).1 h)

theorem ne_zero_of_cast_ne_zero {x : Nat} (h : (x : ZMod p) ≠ 0) : x ≠ 0 := fun h0 => h (by rw [h0, Nat.cast_zero])

/-- Dividing by `b` and multiplying by it again (R90). -/
theorem feMul_feMul_feInv {a b : Nat} (ha : a < p) (hb : (b : ZMod p) ≠ 0) : feMul (feMul a (feInv b)) b = a := by
  have := fact_prime_p
  refine eq_of_cast_eq (feMul_lt _ _) ha ?_
  rw [cast_feMul, cast_feMul, cast_feInv hb, inv_mul_cancel_right₀ hb]

/-- Settles O52: by Fermat `FeInv` is the inverse of the field, where inverses are unique. -/
theorem fieldInverseIsUnique : Obligations.FieldInverseIsUnique := by
  intro x hx hne
  have := fact_prime_p
  have hx0 := cast_ne_zero_of_lt hx hne
  refine ⟨feInv_lt x, eq_of_cast_eq (feMul_lt _ _) one_lt_p ?_, fun z hz hxz => eq_of_cast_eq hz (feInv_lt x) ?_⟩
  · rw [cast_feMul, cast_feInv hx0, mul_inv_cancel₀ hx0, Nat.cast_one]
  · rw [cast_feInv hx0]
    exact eq_inv_of_mul_eq_one_right (by rw [← cast_feMul, hxz, Nat.cast_one])

/-- Bit 255 of a 32-byte string whose sign bit is 0 is clear. -/
theorem byteAt31_of_signBit_zero {b : List Byte} (h : signBit b = 0) : byteAt b 31 &&& 0x80 = 0 := by
  have masked : ∀ v : Byte, v.toNat / 128 = 0 → v &&& 0x80 = 0 := by decide
  exact masked _ h

/-- `FeDecode` ignores bit 255 (R87). -/
theorem feDecode_orByte31 {b : List Byte} (hb : b.length = 32) (v : Byte) : feDecode (orByte b 31 (v &&& 0x80)) = feDecode b := by
  have low : (byteAt b 31 ||| (v &&& 0x80)) &&& 0x7F = byteAt b 31 &&& 0x7F := by
    rw [BitVec.and_or_distrib_right, (byte_masks v).2.1]
    exact BitVec.or_zero
  rw [feDecode, feDecode, orByte, low255_set31 hb low]

/-- Settles O53: an element is below 2^255, so its encoding's integer is itself and its bit 255 is clear. -/
theorem fieldEncodingRoundTrips : Obligations.FieldEncodingRoundTrips := by
  intro x b hx
  refine ⟨length_feEncode x, leNat_feEncode hx, byteAt31_of_signBit_zero (signBit_feEncode hx), ?_⟩
  calc feDecode (orByte (feEncode x) 31 (b &&& 0x80))
      = feDecode (feEncode x) := feDecode_orByte31 (length_feEncode x) b
    _ = x := by rw [feDecode, low255_feEncode hx, Nat.mod_eq_of_lt hx]

end Sys2Proof.Machine
end

section
/-! PROOFS. Points: the addition, the negation, the multiples and the base point's order (spec/40_primitives.md R95 to R98), carried over
from the curve's group law over the field. -/

namespace Sys2Proof.Edwards

/-- A point other than O with a prime multiple that is O has that prime as its order. -/
theorem smul_ne_zero_of_prime {F : Type} [Field F] {d : F} (hc : Complete d) {q : F × F} (hq : OnE d q) (hne : q ≠ (0, 1)) {n k : Nat}
    (hn : n.Prime) (hnq : smul d n q = (0, 1)) (hk0 : 0 < k) (hkn : k < n) : smul d k q ≠ (0, 1) := by
  intro hkq
  obtain ⟨m, -, hm⟩ := Nat.exists_mul_mod_eq_one_of_coprime (Nat.coprime_of_lt_prime hk0.ne' hkn hn).symm hn.one_lt
  have hdiv : m * k = m * k / n * n + 1 := by rw [Nat.mul_comm m k, ← hm, Nat.div_add_mod']
  apply hne
  calc q = smul d 1 q := (zero_add q).symm
    _ = add d (smul d (m * k / n * n) q) (smul d 1 q) := by rw [smul_mul hc hq, hnq, smul_zero_point, zero_add]
    _ = smul d (m * k) q := by rw [← smul_add hc hq, ← hdiv]
    _ = (0, 1) := by rw [smul_mul hc hq, hkq, smul_zero_point]

end Sys2Proof.Edwards

namespace Sys2Proof.Machine

/-! ### Addition and negation -/

theorem onCurve_neutral : onCurve neutral = true := by decide +kernel

section
variable [Fact p.Prime] {q r : Point}

/-- Points of the curve are equal when their coordinates are equal in the field. -/
theorem eq_of_inField_eq (hq : onCurve q = true) (hr : onCurve r = true) (h : q.inField = r.inField) : q = r :=
  Point.ext_inField ((onCurve_iff q).1 hq).1 ((onCurve_iff r).1 hr).1 h

theorem onE_inField (hq : onCurve q = true) : Edwards.OnE (curveD : ZMod p) q.inField := ((onCurve_iff q).1 hq).2

/-- The sum of two points is a point (R95). -/
theorem onCurve_pointAdd (hq : onCurve q = true) (hr : onCurve r = true) : onCurve (pointAdd q r) = true := by
  refine (onCurve_iff _).2 ⟨pointAdd_lt q r, ?_⟩
  rw [inField_pointAdd hq hr]
  exact Edwards.add_onE curve_complete (onE_inField hq) (onE_inField hr)

theorem onCurve_pointNeg (hq : onCurve q = true) : onCurve (pointNeg q) = true := by
  obtain ⟨⟨-, hy⟩, hE⟩ := (onCurve_iff q).1 hq
  exact (onCurve_iff _).2 ⟨⟨feSub_lt _ _, hy⟩, inField_pointNeg q ▸ Edwards.neg_onE hE⟩

/-- The denominators of R95 are not 0 in the field. -/
theorem cast_denominators_ne_zero (hq : onCurve q = true) (hr : onCurve r = true) :
    ((feAdd 1 (feMul curveD (feMul (feMul q.x r.x) (feMul q.y r.y))) : Nat) : ZMod p) ≠ 0 ∧
      ((feSub 1 (feMul curveD (feMul (feMul q.x r.x) (feMul q.y r.y))) : Nat) : ZMod p) ≠ 0 := by
  have assoc : (curveD : ZMod p) * (q.x * r.x * (q.y * r.y)) = curveD * q.x * r.x * q.y * r.y := by ring
  simp only [cast_feAdd, cast_feSub, cast_feMul, Nat.cast_one, assoc]
  exact ⟨Edwards.den_add_ne curve_complete (onE_inField hq) (onE_inField hr),
    Edwards.den_sub_ne curve_complete (onE_inField hq) (onE_inField hr)⟩

/-- O is neutral on the left. -/
theorem pointAdd_neutral_left (hq : onCurve q = true) : pointAdd neutral q = q := by
  refine eq_of_inField_eq (onCurve_pointAdd onCurve_neutral hq) hq ?_
  rw [inField_pointAdd onCurve_neutral hq, inField_neutral, Edwards.zero_add]

theorem pointAdd_comm (hq : onCurve q = true) (hr : onCurve r = true) : pointAdd q r = pointAdd r q := by
  refine eq_of_inField_eq (onCurve_pointAdd hq hr) (onCurve_pointAdd hr hq) ?_
  rw [inField_pointAdd hq hr, inField_pointAdd hr hq, Edwards.add_comm]

end

/-- Settles O54: d is no square, so the addition of the curve is complete. -/
theorem pointAdditionIsComplete : Obligations.PointAdditionIsComplete := by
  intro q r hq hr t
  have := fact_prime_p
  obtain ⟨hadd, hsub⟩ := cast_denominators_ne_zero hq hr
  have hleft := pointAdd_neutral_left hq
  exact ⟨ne_zero_of_cast_ne_zero hadd, ne_zero_of_cast_ne_zero hsub, onCurve_pointAdd hq hr, onCurve_neutral,
    (pointAdd_comm hq onCurve_neutral).trans hleft, hleft, feMul_feMul_feInv (feAdd_lt _ _) hadd,
    feMul_feMul_feInv (feAdd_lt _ _) hsub⟩

/-- Settles O55: the negation of the block is that of the curve. -/
theorem pointNegationInverts : Obligations.PointNegationInverts := by
  intro q hq
  have := fact_prime_p
  have hn := onCurve_pointNeg hq
  refine ⟨hn, rfl, eq_of_cast_eq (feAdd_lt _ _) p_pos ?_, eq_of_inField_eq (onCurve_pointAdd hq hn) onCurve_neutral ?_⟩
  · rw [pointNeg, cast_feAdd, cast_feSub, Nat.cast_zero, zero_sub, neg_add_cancel]
  · rw [inField_pointAdd hq hn, inField_pointNeg, Edwards.add_neg curve_complete (onE_inField hq), inField_neutral]

/-! ### Multiples -/

section
variable [Fact p.Prime]

/-- `r` is the multiple `[k]q` of the curve over the field. -/
def IsMultiple (k : Nat) (q r : Point) : Prop :=
  onCurve r = true ∧ r.inField = Edwards.smul (curveD : ZMod p) k q.inField

theorem isMultiple_zero (q : Point) : IsMultiple 0 q neutral := ⟨onCurve_neutral, inField_neutral⟩

theorem isMultiple_one {q : Point} (hq : onCurve q = true) : IsMultiple 1 q q := ⟨hq, (Edwards.zero_add _).symm⟩

/-- The sum of two multiples is the multiple of the sum. -/
theorem IsMultiple.pointAdd {j k : Nat} {q r s : Point} (hq : onCurve q = true) (hr : IsMultiple j q r) (hs : IsMultiple k q s) :
    IsMultiple (j + k) q (pointAdd r s) := by
  obtain ⟨hr, hrj⟩ := hr
  obtain ⟨hs, hsk⟩ := hs
  refine ⟨onCurve_pointAdd hr hs, ?_⟩
  rw [inField_pointAdd hr hs, hrj, hsk, Edwards.smul_add curve_complete (onE_inField hq)]

/-- A point has one multiple by each number. -/
theorem IsMultiple.unique {k : Nat} {q r s : Point} (hr : IsMultiple k q r) (hs : IsMultiple k q s) : r = s :=
  eq_of_inField_eq hr.1 hs.1 (hr.2.trans hs.2.symm)

variable {q : Point} (hq : onCurve q = true)
include hq

theorem isMultiple_scalarMultByRule (k : Nat) : IsMultiple k q (scalarMultByRule k q) := by
  induction k with
  | zero => exact isMultiple_zero q
  | succ k ih => exact ih.pointAdd hq (isMultiple_one hq)

/-- Doubling and adding gives the multiple. -/
theorem isMultiple_scalarMultBits {bits k : Nat} (hk : k < 2 ^ bits) : IsMultiple k q (scalarMultBits bits k q) := by
  induction bits generalizing k with
  | zero =>
    obtain rfl : k = 0 := by simpa using hk
    exact isMultiple_zero q
  | succ bits ih =>
    have half := ih (k := k / 2) (by rw [Nat.pow_succ] at hk; omega)
    have double := half.pointAdd hq half
    rw [scalarMultBits]
    split
    · next hodd =>
      have sum := double.pointAdd hq (isMultiple_one hq)
      rwa [show k / 2 + k / 2 + 1 = k by omega] at sum
    · next heven => rwa [show k / 2 + k / 2 = k by omega] at double

theorem isMultiple_scalarMult (k : Nat) : IsMultiple k q (scalarMult k q) := by
  unfold scalarMult
  exact isMultiple_scalarMultBits hq Nat.lt_log2_self

theorem scalarMult_eq_neutral_iff (k : Nat) :
    scalarMult k q = neutral ↔ Edwards.smul (curveD : ZMod p) k q.inField = (0, 1) := by
  obtain ⟨hon, hval⟩ := isMultiple_scalarMult hq k
  rw [← hval, ← inField_neutral]
  exact ⟨congrArg _, eq_of_inField_eq hon onCurve_neutral⟩

end

/-- Settles O56: on the curve doubling and adding, and k additions, both give the multiple of the group law. -/
theorem scalarMultIsRepeatedAddition : Obligations.ScalarMultIsRepeatedAddition := by
  intro k q hq
  have := fact_prime_p
  have mult := isMultiple_scalarMult hq
  exact ⟨(mult 0).unique (isMultiple_zero q), (mult (k + 1)).unique ((mult k).pointAdd hq (isMultiple_one hq)),
    (mult k).unique (isMultiple_scalarMultByRule hq k)⟩

/-! ### The base point -/

/-- `[L]B` is O (R98). -/
theorem scalarMult_groupOrder_basePoint : scalarMult groupOrder basePoint = neutral := by decide +kernel

/-- No smaller multiple of B is O, as L is prime (R98). -/
theorem scalarMult_basePoint_ne_neutral {k : Nat} (h0 : 0 < k) (hk : k < groupOrder) : scalarMult k basePoint ≠ neutral := by
  have := fact_prime_p
  have on := onCurve_basePoint
  have hne : basePoint.inField ≠ (0, 1) := fun h => by
    rw [← inField_neutral] at h
    exact absurd (eq_of_inField_eq on onCurve_neutral h) (by decide)
  rw [Ne, scalarMult_eq_neutral_iff on]
  exact Edwards.smul_ne_zero_of_prime curve_complete (onE_inField on) hne prime_groupOrder
    ((scalarMult_eq_neutral_iff on _).1 scalarMult_groupOrder_basePoint) h0 hk

/-- Settles O57: `[L]B` is computed, and as L is prime no smaller multiple of B is O. -/
theorem basePointHasOrderL : Obligations.BasePointHasOrderL := by
  have coordinates : basePoint.y = feMul 4 (feInv 5) ∧ basePoint.x % 2 = 0 := by decide +kernel
  have encoding : pointEncode basePoint = 0x58 :: List.replicate 31 0x66 := by decide +kernel
  have montgomery : feMul (feAdd 1 basePoint.y) (feInv (feSub 1 basePoint.y)) = 9 := by decide +kernel
  exact ⟨onCurve_basePoint, coordinates.1, rfl, rfl, coordinates.2, scalarMult_groupOrder_basePoint,
    fun _ => scalarMult_basePoint_ne_neutral, encoding, montgomery⟩

end Sys2Proof.Machine
end

section
/-! PROOFS. Decoding points: `PointDecode` answers the point of the curve with the string's y and sign bit (spec/40_primitives.md R100,
R101). -/

namespace Sys2Proof.Machine

/-- R101's `t` of a y-coordinate: the square of x on the curve. -/
def decodeSquare (y : Nat) : Nat := feMul (feSub (feMul y y) 1) (feInv (feAdd (feMul curveD (feMul y y)) 1))

theorem decodeSquare_lt (y : Nat) : decodeSquare y < p := feMul_lt _ _

theorem pointDecode_eq (b : List Byte) :
    pointDecode b =
      if p ≤ low255 b then none
      else if decodeSquare (low255 b) = 0 then
        if signBit b = 1 && !Config.x0Sign1Accept then none else some ⟨0, low255 b⟩
      else (pointX (decodeSquare (low255 b)) (signBit b)).map (⟨·, low255 b⟩) := by
  unfold pointDecode decodeSquare
  dsimp only
  split
  · rfl
  · split
    · rfl
    · cases pointX _ _ <;> rfl

/-- A pair of field elements is a point of the curve exactly when x squares to R101's `t`. -/
theorem onCurve_iff_square (x y : Nat) : onCurve ⟨x, y⟩ = true ↔ (x < p ∧ y < p) ∧ feMul x x = decodeSquare y := by
  have := fact_prime_p
  have hden := decode_denominator y
  have cast_square : (decodeSquare y : ZMod p) = (y * y - 1) / (curveD * (y * y) + 1) := by
    rw [decodeSquare, cast_feMul, cast_feInv hden]
    simp only [cast_feAdd, cast_feSub, cast_feMul, Nat.cast_one, div_eq_mul_inv]
  have cast_iff : feMul x x = decodeSquare y ↔ (x : ZMod p) * x = (y * y - 1) / (curveD * (y * y) + 1) := by
    rw [← cast_square, ← cast_feMul]
    exact ⟨congrArg _, eq_of_cast_eq (feMul_lt _ _) (decodeSquare_lt y)⟩
  simp only [cast_feAdd, cast_feMul, Nat.cast_one] at hden
  rw [onCurve_iff, cast_iff, eq_div_iff hden]
  simp only [Edwards.OnE, Point.inField]
  exact and_congr_right fun _ => ⟨fun h => by linear_combination -h, fun h => by linear_combination -h⟩

/-- The other root is the negated one. -/
theorem feMul_self_sub {r : Nat} (hr : r < p) : feMul (p - r) (p - r) = feMul r r := by
  refine eq_of_cast_eq (feMul_lt _ _) (feMul_lt _ _) ?_
  rw [cast_feMul, cast_feMul, Nat.cast_sub hr.le, ZMod.natCast_self]
  ring

theorem p_odd : p % 2 = 1 := by decide +kernel

theorem feMul_self_eq_zero_iff {x : Nat} (hx : x < p) : feMul x x = 0 ↔ x = 0 := by
  have := fact_prime_p
  rw [feMul, ← cast_eq_zero_iff, Nat.cast_mul, mul_self_eq_zero, cast_eq_zero_iff, Nat.mod_eq_of_lt hx]

/-- A field element has at most one root of each parity, as p is odd. -/
theorem eq_of_square_eq {x r : Nat} (hx : x < p) (hr : r < p) (h : feMul x x = feMul r r) (hpar : x % 2 = r % 2) : x = r := by
  have := fact_prime_p
  have hsq : (x : ZMod p) * x = r * r := by rw [← cast_feMul, h, cast_feMul]
  rcases mul_self_eq_mul_self_iff.1 hsq with heq | hneg
  · exact eq_of_cast_eq hx hr heq
  · by_cases hr0 : r = 0
    · subst hr0
      exact (feMul_self_eq_zero_iff hx).1 h
    · have hother : x = p - r := by
        refine eq_of_cast_eq hx (by omega) ?_
        rw [hneg, Nat.cast_sub hr.le, ZMod.natCast_self, zero_sub]
      have := p_odd
      omega

/-- `pointX` answers a root of the parity asked for. -/
theorem pointX_sound {t sign x : Nat} (ht : t ≠ 0) (hs : sign ≤ 1) (h : pointX t sign = some x) :
    x < p ∧ feMul x x = t ∧ x % 2 = sign := by
  obtain ⟨r, hroot, rfl⟩ := pointX_some h
  obtain ⟨hr, hrr⟩ := feSqrt_sound hroot
  have hr0 : r ≠ 0 := by rintro rfl; exact ht hrr.symm
  have := p_odd
  split
  · next hpar => exact ⟨hr, hrr, hpar⟩
  · next hpar => exact ⟨by omega, (feMul_self_sub hr).trans hrr, by omega⟩

/-- `pointX` answers exactly the root of the parity asked for. -/
theorem pointX_eq_some_iff {t sign x : Nat} (ht : t < p) (h0 : t ≠ 0) (hs : sign ≤ 1) :
    pointX t sign = some x ↔ x < p ∧ feMul x x = t ∧ x % 2 = sign := by
  refine ⟨pointX_sound h0 hs, fun ⟨hx, hxx, hpar⟩ => ?_⟩
  have := fact_prime_p
  obtain ⟨r, hroot⟩ := feSqrt_complete ht hxx
  have hsome : pointX t sign = some (if r % 2 = sign then r else p - r) := by rw [pointX, hroot]
  obtain ⟨hz, hzz, hzpar⟩ := pointX_sound h0 hs hsome
  rw [hsome, eq_of_square_eq hz hx (hzz.trans hxx.symm) (hzpar.trans hpar.symm)]

/-- What `PointDecode` answers (R101): the point of the curve with the string's y whose x has the parity of its sign bit, or x = 0 with
sign bit 1 where that is accepted. -/
theorem pointDecode_eq_some_iff {b : List Byte} {q : Point} :
    pointDecode b = some q ↔ q.y = low255 b ∧ onCurve q = true ∧
      (q.x % 2 = signBit b ∨ (q.x = 0 ∧ signBit b = 1 ∧ Config.x0Sign1Accept = true)) := by
  obtain ⟨x, y⟩ := q
  have hs := signBit_le_one b
  rw [pointDecode_eq, onCurve_iff_square]
  by_cases hle : p ≤ low255 b
  · rw [if_pos hle]
    refine iff_of_false (by simp) ?_
    rintro ⟨rfl, ⟨⟨-, hy⟩, -⟩, -⟩
    exact absurd hle (Nat.not_le.2 hy)
  rw [if_neg hle]
  have hlow : low255 b < p := Nat.not_le.1 hle
  by_cases ht : decodeSquare (low255 b) = 0
  · have sign_iff : ¬ (signBit b = 1 && !Config.x0Sign1Accept) = true ↔
        0 % 2 = signBit b ∨ (signBit b = 1 ∧ Config.x0Sign1Accept = true) := by
      rcases Nat.le_one_iff_eq_zero_or_eq_one.1 hs with h | h <;> simp [h]
    rw [if_pos ht, Option.ite_none_left_eq_some, sign_iff]
    constructor
    · rintro ⟨hsign, hq⟩
      cases hq
      exact ⟨rfl, ⟨⟨p_pos, hlow⟩, ht.symm⟩, hsign.imp_right fun h => ⟨rfl, h⟩⟩
    · rintro ⟨rfl, ⟨⟨hx, -⟩, hxx⟩, hsign⟩
      obtain rfl := (feMul_self_eq_zero_iff hx).1 (hxx.trans ht)
      exact ⟨hsign.imp_right And.right, rfl⟩
  · rw [if_neg ht, Option.map_eq_some_iff]
    constructor
    · rintro ⟨x', hx', hq⟩
      cases hq
      obtain ⟨hx, hxx, hpar⟩ := (pointX_eq_some_iff (decodeSquare_lt _) ht hs).1 hx'
      exact ⟨rfl, ⟨⟨hx, hlow⟩, hxx⟩, .inl hpar⟩
    · rintro ⟨rfl, ⟨⟨hx, -⟩, hxx⟩, hpar | ⟨rfl, -⟩⟩
      · exact ⟨x, (pointX_eq_some_iff (decodeSquare_lt _) ht hs).2 ⟨hx, hxx, hpar⟩, rfl⟩
      · exact absurd hxx.symm ht

/-- Settles O58: a decoded point and its string agree in y, and in the sign bit but for the accepted x = 0. -/
theorem pointDecodingInvertsEncoding : Obligations.PointDecodingInvertsEncoding := by
  have := fact_prime_p
  refine ⟨fun b q hb hdec => ?_, fun q hq => ?_⟩
  · obtain ⟨hlow, hq, hsign⟩ := pointDecode_eq_some_iff.1 hdec
    obtain ⟨⟨-, hy⟩, -⟩ := (onCurve_iff q).1 hq
    refine ⟨hq, ?_⟩
    rcases hsign with hpar | ⟨hx, hbit, haccept⟩
    · exact .inl (eq_of_low255_signBit (length_pointEncode q) hb ((low255_pointEncode hy).trans hlow)
        ((signBit_pointEncode hy).trans hpar))
    · exact .inr ⟨hx, hbit, haccept, byteAt31_of_signBit_zero (by rw [signBit_pointEncode hy, hx])⟩
  · obtain ⟨⟨-, hy⟩, -⟩ := (onCurve_iff q).1 hq
    exact pointDecode_eq_some_iff.2 ⟨(low255_pointEncode hy).symm, hq, .inl (signBit_pointEncode hy).symm⟩

end Sys2Proof.Machine
end

section
/-! PROOFS. SIGN (spec/41_sign.md R115 to R128): the two halves of a signature, and what its completion leaves of the block. -/

namespace Sys2Proof.Machine

/-! ### Byte strings in two parts -/

theorem byteAt_append_right (a b : List Byte) (i : Nat) : byteAt (a ++ b) (a.length + i) = byteAt b i := by
  simp only [byteAt, List.getD_append_right _ _ _ _ (Nat.le_add_right _ _), Nat.add_sub_cancel_left]

/-- Setting bits of a byte of the second part leaves the first. -/
theorem orByte_append_right (a b : List Byte) (i : Nat) (m : Byte) : orByte (a ++ b) (a.length + i) m = a ++ orByte b i m := by
  rw [orByte, byteAt_append_right, List.set_append_right _ _ (Nat.le_add_right _ _), Nat.add_sub_cancel_left, orByte]

/-- Clearing bits of a byte of the second part leaves the first. -/
theorem andByte_append_right (a b : List Byte) (i : Nat) (m : Byte) : andByte (a ++ b) (a.length + i) m = a ++ andByte b i m := by
  rw [andByte, byteAt_append_right, List.set_append_right _ _ (Nat.le_add_right _ _), Nat.add_sub_cancel_left, andByte]

/-! ### The layout of a signature (R121 to R123) -/

/-- S with the sign bit of the encoded public point in bit 255 (R123): `SIG[32..63]`. -/
def signedScalar (s : Nat) (aenc : List Byte) : List Byte :=
  orByte (andByte (leBytes 32 s) 31 0x7F) 31 (byteAt aenc 31 &&& 0x80)

@[simp] theorem length_signedScalar (s : Nat) (aenc : List Byte) : (signedScalar s aenc).length = 32 := by simp [signedScalar]

/-- S of a signature (R121). -/
def signScalar (k m seed : List Byte) : Nat :=
  scMulAdd (challenge (signNoncePoint (signNonce k m seed)) (signPublic k) m) (leNat k) (signNonce k m seed)

/-- A signature is the encoded nonce point, then S with its sign bit (R122, R123). -/
theorem signature_eq_append (k m seed : List Byte) :
    signature k m seed = signNoncePoint (signNonce k m seed) ++ signedScalar (signScalar k m seed) (signPublic k) := by
  have hlen : 63 = (signNoncePoint (signNonce k m seed)).length + 31 := by rw [length_signNoncePoint]
  unfold signature
  simp only [embedSign]
  rw [hlen, andByte_append_right, orByte_append_right]
  rfl

theorem take_signature (k m seed : List Byte) : (signature k m seed).take 32 = signNoncePoint (signNonce k m seed) := by
  rw [signature_eq_append, List.take_left' (length_signNoncePoint _)]

theorem drop_signature (k m seed : List Byte) :
    (signature k m seed).drop 32 = signedScalar (signScalar k m seed) (signPublic k) := by
  rw [signature_eq_append, List.drop_left' (length_signNoncePoint _)]

theorem groupOrder_lt_pow253 : groupOrder < 2 ^ 253 := by decide +kernel

/-- S is below L (R92). -/
theorem signScalar_lt (k m seed : List Byte) : signScalar k m seed < groupOrder := Nat.mod_lt _ (by decide +kernel)

/-- A reduced scalar fits 32 bytes with bit 255 to spare. -/
theorem low255_leBytes_of_lt {s : Nat} (hs : s < groupOrder) : low255 (leBytes 32 s) = s := by
  have hL := groupOrder_lt_pow253
  rw [low255, leNat_leBytes, Nat.mod_eq_of_lt (by norm_num at hL ⊢; omega), Nat.mod_eq_of_lt (by omega)]

theorem signBit_eq_zero_of_leNat_lt {b : List Byte} (hb : b.length = 32) (h : leNat b < 2 ^ 255) : signBit b = 0 := by
  have := leNat_eq_low255 hb
  omega

/-- The integer of `SIG[32..63]`: S, and the sign bit of the public point in bit 255 (R123). -/
theorem leNat_signedScalar {s : Nat} (hs : s < groupOrder) (aenc : List Byte) :
    leNat (signedScalar s aenc) = s + 2 ^ 255 * signBit aenc := by
  have hlen : (leBytes 32 s).length = 32 := length_leBytes 32 s
  have hcleared : leNat (andByte (leBytes 32 s) 31 0x7F) = s := (leNat_andByte31 hlen).trans (low255_leBytes_of_lt hs)
  have hL := groupOrder_lt_pow253
  obtain ⟨hmask, hbit⟩ := sign_mask (byteAt aenc 31)
  have hlen' : (andByte (leBytes 32 s) 31 0x7F).length = 32 := by rw [length_andByte, hlen]
  rw [signedScalar, leNat_orByte31 hlen' (signBit_eq_zero_of_leNat_lt hlen' (by omega)) hmask, hcleared, hbit, signBit]

/-- The second half of a signature as an integer (R121, R123). -/
theorem leNat_drop_signature (k m seed : List Byte) :
    leNat ((signature k m seed).drop 32) = signScalar k m seed + 2 ^ 255 * signBit (signPublic k) := by
  rw [drop_signature, leNat_signedScalar (signScalar_lt k m seed)]

/-- The last byte of `SIG` (R123). -/
theorem byteAt_signedScalar (s : Nat) (aenc : List Byte) :
    byteAt (signedScalar s aenc) 31 = (byteAt (leBytes 32 s) 31 &&& 0x7F) ||| (byteAt aenc 31 &&& 0x80) := by
  rw [signedScalar, byteAt_orByte _ (by simp), if_pos rfl, byteAt_andByte _ (by simp), if_pos rfl]

/-- Bits 253 and 254 of a reduced scalar are 0: they are bits 5 and 6 of its last byte. -/
theorem byteAt_leBytes_mask_of_lt {s : Nat} (hs : s < groupOrder) : byteAt (leBytes 32 s) 31 &&& 0x60 = 0 := by
  have hL := groupOrder_lt_pow253
  have hsplit := leNat_split31 (length_leBytes 32 s)
  rw [leNat_leBytes, Nat.mod_eq_of_lt (by norm_num at hL ⊢; omega)] at hsplit
  have hsmall : (byteAt (leBytes 32 s) 31).toNat < 32 := by omega
  have hmask : ∀ x : Byte, x.toNat < 32 → x &&& 0x60 = 0 := by decide
  exact hmask _ hsmall

/-- The sign bit put into a byte leaves its bits 5 and 6. -/
theorem embedded_mask (x y : Byte) : ((x &&& 0x7F) ||| (y &&& 0x80)) &&& 0x60 = x &&& 0x60 := by
  have hlow : (0x7F : Byte) &&& 0x60 = 0x60 := rfl
  have hhigh : (0x80 : Byte) &&& 0x60 = 0#8 := rfl
  rw [BitVec.and_or_distrib_right, BitVec.and_assoc, BitVec.and_assoc, hlow, hhigh, BitVec.and_zero, BitVec.or_zero]

/-- Settles O16: the signature is its two halves, and the second is S, below L, with the sign bit on top. -/
theorem signatureLayout : Obligations.SignatureLayout := by
  intro k m seed a aenc r renc s sig
  have hs : s < groupOrder := signScalar_lt k m seed
  have hlast : byteAt sig 63 = (byteAt (leBytes 32 s) 31 &&& 0x7F) ||| (byteAt aenc 31 &&& 0x80) := by
    have h63 := byteAt_append_right renc (signedScalar s aenc) 31
    rw [length_signNoncePoint] at h63
    exact (congrArg (byteAt · 63) (signature_eq_append k m seed)).trans (h63.trans (byteAt_signedScalar s aenc))
  have hlow : leNat (sig.drop 32) % 2 ^ 255 = s := by
    have hL := groupOrder_lt_pow253
    rw [leNat_drop_signature, Nat.add_mul_mod_self_left]
    exact Nat.mod_eq_of_lt (by have := signScalar_lt k m seed; omega)
  exact ⟨length_signature k m seed, take_signature k m seed, hlow, hs,
    by rw [hlast, embedded_mask, byteAt_leBytes_mask_of_lt hs], hlast⟩

/-! ### The completion of SIGN -/

/-- A running command's completion is its effect and `retire` (R36). -/
theorem exec_running {i : Instr} {s : State} (h : Running i s) : exec i s = .next (retire (effectOf i s)) := by
  obtain ⟨hport, hbusy, hop⟩ := h
  exact exec_of_running hport hbusy hop

/-- What a completion leaves of the engine (R36, R37). -/
theorem engineRetired_retire (s : State) : EngineRetired (retire s) := ⟨rfl, rfl, rfl, rfl, rfl⟩

theorem signResult_of_clamped {s : State} (h : clamped s.key = true) : signResult s = signature s.key s.message s.seed := if_pos h

theorem signResult_of_unclamped {s : State} (h : clamped s.key = false) : signResult s = drawBytes s.draws 64 :=
  if_neg (by rw [h]; exact Bool.false_ne_true)

/-- A string that meets neither SIG nor SEED reads after SIGN's effect as before it. -/
theorem readBytes_signEffect_other (s : State) {a n : Nat} (h1 : a + n ≤ seedBase ∨ seedBase + 64 ≤ a)
    (h2 : a + n ≤ sigBase ∨ sigBase + 64 ≤ a) : readBytes (signEffect s).mem a n = readBytes s.mem a n :=
  readBytes_congr fun i hi => readByte_signEffect_other s (by omega) (by omega)

/-- Settles O11: SIG holds the signature, whose halves are `take_signature` and `drop_signature`. -/
theorem signCompletesWithTheSignature : Obligations.SignCompletesWithTheSignature := by
  intro s hrun hw hk a aenc r renc h
  have hsig : (retire (signEffect s)).sig = signature s.key s.message s.seed := (sig_signEffect hw).trans (signResult_of_clamped hk)
  refine ⟨_, exec_running hrun, ?_, ?_, seed_signEffect hw, engineRetired_retire _, rfl, if_pos hk⟩
  · rw [effectOf, hsig]
    exact take_signature s.key s.message s.seed
  · rw [effectOf, hsig]
    exact leNat_drop_signature s.key s.message s.seed

/-- Settles O12: SIG holds the draw, and nothing else of the completion depends on the key. -/
theorem signOfUnclampedKeyCompletesWithADraw : Obligations.SignOfUnclampedKeyCompletesWithADraw := by
  intro s hrun hw hk
  have hsig : (retire (signEffect s)).sig = drawBytes s.draws 64 := (sig_signEffect hw).trans (signResult_of_unclamped hk)
  refine ⟨_, exec_running hrun, fun i hi => ?_, seed_signEffect hw, engineRetired_retire _, rfl, ?_⟩
  · rw [effectOf, hsig]
    exact byteAt_drawBytes s.draws hi
  · exact if_neg (by rw [hk]; exact Bool.false_ne_true)

/-- Settles O13: the effect zeroes SEED, and KEY lies off SIG and SEED. -/
theorem signConsumesTheSeed : Obligations.SignConsumesTheSeed :=
  fun s hrun hw => ⟨_, exec_running hrun, seed_signEffect hw, readBytes_signEffect_other s (by decide) (by decide)⟩

/-- Settles O14: the effect stores in SIG and SEED, and every other buffer lies off both. -/
theorem signLeavesTheRestUnchanged : Obligations.SignLeavesTheRestUnchanged :=
  fun s hrun => ⟨_, exec_running hrun, readBytes_signEffect_other s (by decide) (by decide),
    readBytes_signEffect_other s (by decide) (by decide), readBytes_signEffect_other s (by decide) (by decide),
    fun _ hsig hseed => readByte_signEffect_other s hseed hsig, rfl, rfl, rfl, rfl, rfl, rfl⟩

/-- Settles O15: SIG is the signature of KEY, the message and SEED, which are the same strings in both states. -/
theorem signDependsOnItsOperandsOnly : Obligations.SignDependsOnItsOperandsOnly := by
  intro s s' hrun hrun' hw hw' hk hlen hmem
  have hkey : s'.key = s.key := readBytes_congr fun i hi => hmem _ (by omega)
  have hseed : s'.seed = s.seed := readBytes_congr fun i hi => hmem _ (by omega)
  have hmsg : s'.message = s.message := by
    rw [State.message, hlen]
    exact readBytes_congr fun i hi => hmem _ (by omega)
  have hresult : signResult s' = signResult s := by
    rw [signResult_of_clamped hk, signResult_of_clamped (hkey ▸ hk), hkey, hseed, hmsg]
  exact ⟨_, _, exec_running hrun, exec_running hrun', (sig_signEffect hw').trans (hresult.trans (sig_signEffect hw).symm)⟩

end Sys2Proof.Machine
end

section
/-! PROOFS. MAP (spec/42_map.md R130 to R137): what its completion leaves of the block, which inputs `MapCore` takes for the same element,
and that its output determines its input. -/

namespace Sys2Proof.Machine

/-! ### The completion of MAP -/

theorem mapEffect_of_some {s : State} {aed : List Byte} (h : mapCore s.pk (sigSignBit s.sig) = some aed) :
    mapEffect s = { s with mem := writeBytes s.mem aedBase aed } := by
  unfold mapEffect
  rw [h]

theorem mapEffect_of_none {s : State} (h : mapCore s.pk (sigSignBit s.sig) = none) :
    mapEffect s = { s with
      mem := writeBytes s.mem aedBase (drawBytes s.draws 32), status := { s.status with excl := true }, draws := s.draws + 1 } := by
  unfold mapEffect
  rw [h]

/-- Settles O17: AED holds what `MapCore` answers, whose integer is `leNat_mapCore`. -/
theorem mapCompletesWithTheMappedKey : Obligations.MapCompletesWithTheMappedKey := by
  intro s hrun hw hu u
  obtain ⟨hmask, hbit⟩ := sigSignBit_mask s.sig
  have hmap := mapCore_eq_some (pk := s.pk) (sigSignBit s.sig) hu
  have heffect := mapEffect_of_some hmap
  refine ⟨_, exec_running hrun, ?_, engineRetired_retire _, ?_, ?_⟩
  · calc leNat (mapEffect s).aed
        = feMul (feSub u 1) (feInv (feAdd u 1)) + 2 ^ 255 * ((sigSignBit s.sig).toNat / 128) := by
          rw [aed_mapEffect hw hmap]
          exact leNat_mapCore (feMul_lt _ _) hmask
      _ = feMul (feSub u 1) (feInv (feAdd u 1)) + 2 ^ 255 * ((byteAt s.sig 63).toNat / 128) := by rw [hbit]
  · rw [retire_status, effectOf, heffect]
  · rw [retire_draws, effectOf, heffect]

/-- Settles O18: AED holds the draw. -/
theorem mapOfExcludedInputCompletes : Obligations.MapOfExcludedInputCompletes := by
  intro s hrun hw hu
  have hmap := (mapCore_eq_none_iff s.pk (sigSignBit s.sig)).2 hu
  have heffect := mapEffect_of_none hmap
  refine ⟨_, exec_running hrun, fun i hi => ?_, engineRetired_retire _, ?_, ?_⟩
  · have haed : (retire (mapEffect s)).aed = drawBytes s.draws 32 := aed_mapEffect_excluded hw hmap
    rw [effectOf, haed]
    exact byteAt_drawBytes s.draws hi
  · rw [retire_status, effectOf, heffect]
  · rw [retire_draws, effectOf, heffect]

/-! ### The input of MAP -/

/-- Settles O20: `MapCore` sees PK through `FeDecode`, which drops bit 255, and PK lies off AED. -/
theorem mapIgnoresTheTopBitOfPk : Obligations.MapIgnoresTheTopBitOfPk :=
  ⟨fun _ sb _ hpk hb => mapCore_congr sb (congrArg (· % p) (low255_set31 hpk hb)),
    fun s hrun => ⟨_, exec_running hrun, readBytes_mapEffect_other s (by decide)⟩⟩

/-- There are 19 non-canonical values, p to 2^255 - 1. -/
theorem pow255_eq : 2 ^ 255 = p + 19 := by decide +kernel

/-- A non-canonical value lies less than 19 above p, so that reducing it subtracts p once (R87, R135). -/
theorem feDecode_of_noncanonical {b : List Byte} (h : p ≤ low255 b) : low255 b - p < p ∧ feDecode b = low255 b - p := by
  have hlt : low255 b - p < p := by
    have := low255_lt b
    rw [pow255_eq] at this
    unfold p at *
    omega
  exact ⟨hlt, by rw [feDecode, Nat.mod_eq_sub_mod h, Nat.mod_eq_of_lt hlt]⟩

/-- A 32-byte string is the one of its integer. -/
theorem eq_leBytes32_iff {b : List Byte} (hb : b.length = 32) {v : Nat} (hv : v < 256 ^ 32) : b = leBytes 32 v ↔ leNat b = v := by
  constructor
  · rintro rfl
    rw [leNat_leBytes, Nat.mod_eq_of_lt hv]
  · rintro rfl
    rw [← hb, leBytes_leNat]

/-- The values p to 2^255 - 1 reduce to 0 to 18, so p - 1 is the one value below 2^255 that decodes to p - 1 (R135). -/
theorem feDecode_eq_p_sub_one_iff (b : List Byte) : feDecode b = p - 1 ↔ low255 b = p - 1 := by
  have hlt := low255_lt b
  rw [feDecode]
  rw [pow255_eq] at hlt
  unfold p at *
  omega

/-- Settles O21: the value of a non-canonical string decodes as the encoding of that value less p; p - 1 is `MapCore`'s excluded
element, and bit 255 is free beside it. -/
theorem mapReducesNonCanonicalInputs : Obligations.MapReducesNonCanonicalInputs := by
  constructor
  · intro pk sb _ h
    obtain ⟨hlt, hdecode⟩ := feDecode_of_noncanonical h
    exact mapCore_congr sb (hdecode.trans (feDecode_feEncode hlt).symm)
  · intro pk sb hpk
    have hsplit := leNat_eq_low255 hpk
    have hlow := low255_lt pk
    have hsign := signBit_le_one pk
    have hp := p_lt_pow255
    have hclear : p - 1 < 256 ^ 32 := by decide +kernel
    have hset : p - 1 + 2 ^ 255 < 256 ^ 32 := by decide +kernel
    rw [mapCore_eq_none_iff, feDecode_eq_p_sub_one_iff, eq_leBytes32_iff hpk hclear, eq_leBytes32_iff hpk hset]
    omega

/-! ### The output of MAP -/

/-- The y field and the sign bit of what `MapCore` answers (R132). -/
theorem mapCore_output {pk aed : List Byte} {sb : Byte} (hs : sb &&& 0x7F = 0) (h : mapCore pk sb = some aed) :
    feDecode pk ≠ p - 1 ∧ low255 aed = edwardsY (feDecode pk) ∧ signBit aed = sb.toNat / 128 := by
  have hu : feDecode pk ≠ p - 1 := mt (mapCore_eq_none_iff pk sb).2 (by rw [h]; exact Option.some_ne_none aed)
  have hy := edwardsY_lt (feDecode pk)
  have hsplit := leNat_eq_low255 (length_mapCore h)
  have hvalue : leNat aed = edwardsY (feDecode pk) + 2 ^ 255 * (sb.toNat / 128) := by
    rw [← Option.some.inj ((mapCore_eq_some sb hu).symm.trans h)]
    exact leNat_mapCore hy hs
  have hlow := low255_lt aed
  have hp := p_lt_pow255
  exact ⟨hu, by omega, by omega⟩

/-- The denominator of R132 is 0 on the excluded element alone. -/
theorem cast_feAdd_one_ne_zero {u : Nat} (hu : u < p) (hne : u ≠ p - 1) : ((feAdd u 1 : Nat) : ZMod p) ≠ 0 := by
  refine cast_ne_zero_of_lt (feAdd_lt u 1) ?_
  rw [feAdd, Nat.mod_eq_of_lt (by omega)]
  exact Nat.succ_ne_zero u

/-- The map of R132 without its division. -/
theorem cast_edwardsY_mul {u : Nat} (hu : u < p) (hne : u ≠ p - 1) : (edwardsY u : ZMod p) * (u + 1) = u - 1 := by
  have h := feMul_feMul_feInv (feSub_lt u 1) (cast_feAdd_one_ne_zero hu hne)
  have h := congrArg (Nat.cast : Nat → ZMod p) h
  rwa [cast_feMul, cast_feAdd, cast_feSub, Nat.cast_one] at h

/-- No element maps to y = 1: it would make u + 1 = u - 1 (R137). -/
theorem cast_edwardsY_ne_one {u : Nat} (hu : u < p) (hne : u ≠ p - 1) : (edwardsY u : ZMod p) ≠ 1 := fun h => by
  have hmul := cast_edwardsY_mul hu hne
  rw [h] at hmul
  exact two_ne_zero_field (by linear_combination hmul)

/-- Elements with one y are equal: their difference times y - 1 is 0 (R137). -/
theorem edwardsY_injective {u v : Nat} (hu : u < p) (hv : v < p) (hu' : u ≠ p - 1) (hv' : v ≠ p - 1) (h : edwardsY u = edwardsY v) :
    u = v := by
  have := fact_prime_p
  have hmulv := cast_edwardsY_mul hv hv'
  rw [← h] at hmulv
  have hprod : ((edwardsY u : ZMod p) - 1) * (u - v) = 0 := by linear_combination cast_edwardsY_mul hu hu' - hmulv
  have hdiff := (mul_eq_zero.1 hprod).resolve_left (sub_ne_zero.2 (cast_edwardsY_ne_one hu hu'))
  exact eq_of_cast_eq hu hv (sub_eq_zero.1 hdiff)

/-- A sign bit as `MapCore` takes it (R132). -/
theorem signByte_mask : ∀ b : Bool, (if b then (0x80 : Byte) else 0) &&& 0x7F = 0 := by decide

theorem signByte_injective : ∀ b c : Bool,
    (if b then (0x80 : Byte) else 0).toNat / 128 = (if c then (0x80 : Byte) else 0).toNat / 128 → b = c := by decide

/-- Settles O22: the output's two fields are the element's y and the sign bit, and y determines the element. -/
theorem mapIsInjective : Obligations.MapIsInjective := by
  intro u1 u2 b1 b2 e1 e2 hu1 hu2 h1 h2
  obtain ⟨hne1, hy1, hs1⟩ := mapCore_output (signByte_mask b1) h1
  obtain ⟨hne2, hy2, hs2⟩ := mapCore_output (signByte_mask b2) h2
  rw [feDecode_feEncode hu1] at hne1 hy1
  rw [feDecode_feEncode hu2] at hne2 hy2
  have helement : low255 e1 = low255 e2 → u1 = u2 := fun h =>
    edwardsY_injective hu1 hu2 hne1 hne2 (hy1.symm.trans (h.trans hy2))
  refine ⟨fun h => ?_, helement, fun h => ⟨helement (congrArg low255 h), ?_⟩⟩
  · exact cast_edwardsY_ne_one hu1 hne1 (by rw [← hy1, h, Nat.cast_one])
  · exact signByte_injective b1 b2 (hs1.symm.trans ((congrArg signBit h).trans hs2))

end Sys2Proof.Machine
end

section
/-! PROOFS. VERIFY (spec/43_verify.md R140 to R154): its verdict as a conjunction of tests, what its completion leaves of the block, the
policies on S, and the round trip with SIGN. -/

namespace Sys2Proof.Edwards

section
variable {F : Type} [Field F] {d : F} (hc : Complete d) {q : F × F} (hq : OnE d q)
include hc hq

/-- Where `[n]q` is O, a multiple of q depends on its factor modulo n. -/
theorem smul_mod {n : Nat} (hn : smul d n q = (0, 1)) (k : Nat) : smul d (k % n) q = smul d k q :=
  calc smul d (k % n) q
      = add d (smul d (k / n * n) q) (smul d (k % n) q) := by rw [smul_mul hc hq, hn, smul_zero_point, zero_add]
    _ = smul d k q := by rw [← smul_add hc hq, Nat.div_add_mod']

/-- `[ha + r]q + [h](-[a]q)` is `[r]q`: the two products by h cancel. -/
theorem smul_mul_add_smul_neg (h a r : Nat) : add d (smul d (h * a + r) q) (smul d h (neg (smul d a q))) = smul d r q := by
  rw [← neg_smul, ← smul_mul hc hq, Nat.add_comm, smul_add hc hq]
  exact add_add_neg hc (smul_onE hc hq r) (smul_onE hc hq (h * a))

end

end Sys2Proof.Edwards

namespace Sys2Proof.Machine

/-! ### The verdict -/

/-- The tests of R140 beside the policy on S: the key maps, the mapped key decodes to a point A, and `[s]B + [h](-A)` encodes to `rb`. -/
def PassesEquation (pk m rb : List Byte) (sb : Byte) (s : Nat) : Prop :=
  ∃ aed a, mapCore pk sb = some aed ∧ pointDecode aed = some a ∧
    pointEncode (pointAdd (scalarMult s basePoint) (scalarMult (challenge rb aed m) (pointNeg a))) = rb

/-- The verdict is the conjunction of the policy on S and the tests beside it (R140, R152). -/
theorem verifies_iff (schk : BitVec 2) (pk m sig : List Byte) :
    verifies schk pk m sig = true ↔ schkAccepts schk (strippedS sig) = true ∧
      PassesEquation (andByte pk 31 0x7F) m (sigR sig) (sigSignBit sig) (strippedS sig) := by
  unfold verifies PassesEquation
  cases hmap : mapCore (andByte pk 31 0x7F) (sigSignBit sig) with
  | none => simp
  | some aed => cases hdec : pointDecode aed <;> simp [equationHolds, hdec]

/-- Bit 255 of a public key does not reach the tests (R141). -/
theorem passesEquation_andByte31 {pk : List Byte} (hpk : pk.length = 32) (m rb : List Byte) (sb : Byte) (s : Nat) :
    PassesEquation (andByte pk 31 0x7F) m rb sb s ↔ PassesEquation pk m rb sb s := by
  unfold PassesEquation
  rw [mapCore_congr sb (feDecode_andByte31 hpk)]

theorem schkAccepts_one (s : Nat) : schkAccepts 1 s = true ↔ s < 2 ^ 253 := decide_eq_true_iff

theorem schkAccepts_two (s : Nat) : schkAccepts 2 s = true ↔ s < groupOrder := decide_eq_true_iff

/-- Only the policies 1 and 2 bound S (R145). -/
theorem schkAccepts_iff (schk : BitVec 2) (s : Nat) :
    schkAccepts schk s = true ↔ (schk = 1 → s < 2 ^ 253) ∧ (schk = 2 → s < groupOrder) := by
  by_cases h1 : schk = 1
  · subst h1
    rw [schkAccepts_one]
    simp
  by_cases h2 : schk = 2
  · subst h2
    rw [schkAccepts_two]
    simp
  · have haccept : schkAccepts schk s = true := by rw [schkAccepts, if_neg h1, if_neg h2]
    exact iff_of_true haccept ⟨fun h => absurd h h1, fun h => absurd h h2⟩

/-- No string of the excluded element passes (R143). -/
theorem verifies_of_excluded (schk : BitVec 2) {pk : List Byte} (m sig : List Byte) (hpk : pk.length = 32) (hu : feDecode pk = p - 1) :
    verifies schk pk m sig = false := by
  rw [← Bool.not_eq_true, verifies_iff, passesEquation_andByte31 hpk]
  rintro ⟨-, aed, -, hmap, -⟩
  rw [(mapCore_eq_none_iff pk _).2 hu] at hmap
  cases hmap

/-! ### The completion of VERIFY -/

/-- Settles O23: the effect puts the verdict in RESULT, and the verdict is the conjunction of `verifies_iff`. -/
theorem verifyCompletesWithItsVerdict : Obligations.VerifyCompletesWithItsVerdict := by
  intro s hrun sc rb
  refine ⟨_, exec_running hrun, engineRetired_retire _, rfl, ?_⟩
  change verifies s.curSchk s.pk s.message s.sig = true ↔ _
  rw [verifies_iff, schkAccepts_iff, passesEquation_andByte31 (length_pk s), strippedS_eq (length_sig s), and_assoc]
  rfl

/-- Settles O24: the effect writes RESULT alone. -/
theorem verifyHasNoSideEffect : Obligations.VerifyHasNoSideEffect :=
  fun _ hrun => ⟨_, exec_running hrun, rfl, rfl, rfl, rfl, rfl, rfl, rfl, rfl⟩

/-- Settles O25: the map of the excluded element fails, and the effect leaves EXCL. -/
theorem verifyOfExcludedInputIsFalse : Obligations.VerifyOfExcludedInputIsFalse :=
  fun s hrun hu => ⟨_, exec_running hrun, verifies_of_excluded s.curSchk s.message s.sig (length_pk s) hu, rfl⟩

/-- Settles O27: VERIFY sees the key through `FeDecode` of its copy with bit 255 cleared. -/
theorem verifyIgnoresTheTopBitOfPk : Obligations.VerifyIgnoresTheTopBitOfPk := by
  intro schk pk m sig b hpk hb
  have hset : (pk.set 31 b).length = 32 := by rw [List.length_set, hpk]
  have hdecode : feDecode (pk.set 31 b) = feDecode pk := congrArg (· % p) (low255_set31 hpk hb)
  rw [Bool.eq_iff_iff, verifies_iff, verifies_iff, passesEquation_andByte31 hset, passesEquation_andByte31 hpk]
  simp only [PassesEquation, mapCore_congr _ hdecode]

/-! ### The policies on S -/

/-- A policy that accepts S leaves the verdict of policy 0. -/
theorem verifies_of_accepted {schk : BitVec 2} {sig : List Byte} (pk m : List Byte) (h : schkAccepts schk (strippedS sig) = true) :
    verifies schk pk m sig = verifies 0 pk m sig := by
  have h0 : schkAccepts 0 (strippedS sig) = true := rfl
  rw [Bool.eq_iff_iff, verifies_iff, verifies_iff, h, h0]

/-- A policy that rejects S makes the verdict false. -/
theorem verifies_of_rejected {schk : BitVec 2} {sig : List Byte} (pk m : List Byte) (h : ¬ schkAccepts schk (strippedS sig) = true) :
    verifies schk pk m sig = false := by
  rw [← Bool.not_eq_true, verifies_iff]
  exact fun hv => h hv.1

theorem byteAt_drop (b : List Byte) (n i : Nat) : byteAt (b.drop n) i = byteAt b (n + i) := by
  simp only [byteAt, List.getD_eq_getElem?_getD, List.getElem?_drop]

/-- The test of bits 253 and 254, which are bits 5 and 6 of the last byte (R145). -/
theorem low255_lt_pow253_iff {b : List Byte} (hb : b.length = 32) : low255 b < 2 ^ 253 ↔ byteAt b 31 &&& 0x60 = 0 := by
  have hsplit := leNat_split31 hb
  have hrest := leNat_lt (b.take 31)
  rw [List.length_take, hb] at hrest
  have hlast := (byteAt b 31).isLt
  have hmask : ∀ x : Byte, x &&& 0x60 = 0 ↔ x.toNat % 128 < 32 := by decide
  rw [hmask, low255]
  norm_num at hsplit hrest ⊢
  omega

/-- Settles O26: the policies' bounds, and the verdict under a policy that accepts or rejects S. -/
theorem canonicalPolicyTable : Obligations.CanonicalPolicyTable := by
  intro pk m sig hsig s
  have hs : strippedS sig = s := strippedS_eq hsig
  have hbits : s < 2 ^ 253 ↔ byteAt sig 63 &&& 0x60 = 0 := by
    rw [show 63 = 32 + 31 from rfl, ← byteAt_drop]
    exact low255_lt_pow253_iff (by rw [List.length_drop, hsig])
  have hone := schkAccepts_one s
  have htwo := schkAccepts_two s
  exact ⟨rfl, hone, hbits, htwo,
    fun h => verifies_of_accepted pk m (hs ▸ hone.2 h), fun h => verifies_of_rejected pk m (hs ▸ mt hone.1 (Nat.not_lt.2 h)),
    fun h => verifies_of_accepted pk m (hs ▸ htwo.2 h), fun h => verifies_of_rejected pk m (hs ▸ mt htwo.1 (Nat.not_lt.2 h))⟩

/-- `[k]B` depends on k modulo L, the order of B (R98). -/
theorem scalarMult_mod_groupOrder (k : Nat) : scalarMult (k % groupOrder) basePoint = scalarMult k basePoint := by
  have := fact_prime_p
  have on := onCurve_basePoint
  obtain ⟨honMod, hmod⟩ := isMultiple_scalarMult on (k % groupOrder)
  obtain ⟨hon, hval⟩ := isMultiple_scalarMult on k
  refine eq_of_inField_eq honMod hon ?_
  rw [hmod, hval]
  exact Edwards.smul_mod curve_complete (onE_inField on) ((scalarMult_eq_neutral_iff on _).1 scalarMult_groupOrder_basePoint) k

/-- The equation sees S modulo L (R146). -/
theorem passesEquation_congr {pk m rb : List Byte} {sb : Byte} {s s' : Nat} (h : s' % groupOrder = s % groupOrder) :
    PassesEquation pk m rb sb s' ↔ PassesEquation pk m rb sb s := by
  unfold PassesEquation
  rw [← scalarMult_mod_groupOrder s', h, scalarMult_mod_groupOrder]

/-- Settles O28: the equation sees S modulo L, so only the policy tells the two apart; below L they are equal. -/
theorem malleabilityByPolicy : Obligations.MalleabilityByPolicy := by
  intro pk m sig sig' hsig hsig' hrb hsb s s' hmod
  have hs : strippedS sig = s := strippedS_eq hsig
  have hs' : strippedS sig' = s' := strippedS_eq hsig'
  have hequation {schk : BitVec 2} (haccept : schkAccepts schk s' = true) (h : verifies schk pk m sig = true) :
      verifies schk pk m sig' = true := by
    obtain ⟨-, hpass⟩ := (verifies_iff ..).1 h
    rw [verifies_iff, hs', show sigR sig' = sigR sig from hrb, show sigSignBit sig' = sigSignBit sig from hsb]
    exact ⟨haccept, (passesEquation_congr hmod).2 (hs ▸ hpass)⟩
  refine ⟨hequation rfl, fun hlt => hequation ((schkAccepts_one s').2 hlt), fun h h' => ?_⟩
  have hlt : s < groupOrder := (schkAccepts_two s).1 (hs ▸ ((verifies_iff ..).1 h).1)
  have hlt' : s' < groupOrder := (schkAccepts_two s').1 (hs' ▸ ((verifies_iff ..).1 h').1)
  rwa [Nat.mod_eq_of_lt hlt, Nat.mod_eq_of_lt hlt'] at hmod

/-! ### The Montgomery public key of a clamped key (R106, R107) -/

/-- A multiple of B that is O is one by a multiple of L. -/
theorem groupOrder_dvd_of_scalarMult_eq_neutral {k : Nat} (h : scalarMult k basePoint = neutral) : groupOrder ∣ k := by
  by_contra hk
  refine scalarMult_basePoint_ne_neutral (Nat.emod_pos_of_not_dvd hk) (Nat.mod_lt _ (by decide +kernel)) ?_
  rw [scalarMult_mod_groupOrder, h]

/-- A clamped key is a positive multiple of 8 below 2^255 (R106). -/
theorem leNat_of_clamped {k : List Byte} (hk : k.length = 32) (h : clamped k = true) :
    8 ∣ leNat k ∧ 0 < leNat k ∧ leNat k < 2 ^ 255 := by
  simp only [clamped, Bool.and_eq_true, beq_iff_eq] at h
  obtain ⟨⟨hlow, hhigh⟩, hset⟩ := h
  have masks : ∀ x : Byte, (x &&& 0x07 = 0 → x.toNat % 8 = 0) ∧ (x &&& 0x80 = 0 → x.toNat < 128) ∧
      (x &&& 0x40 = 0x40 → 0 < x.toNat) := by decide
  have h0 := (masks _).1 hlow
  have h31 := (masks _).2.1 hhigh
  have hpos := (masks _).2.2 hset
  have hsplit := leNat_split31 hk
  have hrest := leNat_lt (k.take 31)
  rw [List.length_take, hk] at hrest
  have hfirst : leNat k % 8 = (byteAt k 0).toNat % 8 := by
    cases k with
    | nil => simp at hk
    | cons b bs => simp only [leNat, byteAt, List.getD_cons_zero]; omega
  norm_num at hsplit hrest ⊢
  omega

/-- The public point of a clamped key is not O: 8 L is above 2^255. -/
theorem scalarMult_clamped_ne_neutral {k : List Byte} (hk : k.length = 32) (h : clamped k = true) :
    scalarMult (leNat k) basePoint ≠ neutral := by
  intro hO
  obtain ⟨h8, hpos, hlt⟩ := leNat_of_clamped hk h
  have hcoprime : Nat.Coprime 8 groupOrder := by decide +kernel
  have hle := Nat.le_of_dvd hpos (hcoprime.mul_dvd_of_dvd_of_dvd h8 (groupOrder_dvd_of_scalarMult_eq_neutral hO))
  have : 2 ^ 255 < 8 * groupOrder := by decide +kernel
  omega

/-- O is the one point of the curve with y = 1. -/
theorem eq_neutral_of_y_eq_one {q : Point} (hq : onCurve q = true) (hy : q.y = 1) : q = neutral := by
  obtain ⟨x, y⟩ := q
  obtain rfl : y = 1 := hy
  obtain ⟨⟨hx, -⟩, hsq⟩ := (onCurve_iff_square x 1).1 hq
  have hone : decodeSquare 1 = 0 := by decide +kernel
  rw [(feMul_self_eq_zero_iff hx).1 (hsq.trans hone)]
  rfl

/-- The map of R132 undoes R107: from `u = (1 + y)/(1 - y)` it gives back y, for every y but 1. -/
theorem edwardsY_of_montgomery {y u : Nat} (hy : y < p) (hy1 : y ≠ 1) (hu : u = feMul (feAdd 1 y) (feInv (feSub 1 y))) :
    u ≠ p - 1 ∧ edwardsY u = y := by
  have := fact_prime_p
  have hult : u < p := hu ▸ feMul_lt _ _
  have hden : (1 : ZMod p) - y ≠ 0 := fun h => hy1 (eq_of_cast_eq hy one_lt_p (by rw [Nat.cast_one]; exact (sub_eq_zero.1 h).symm))
  have hmont : (u : ZMod p) * (1 - y) = 1 + y := by
    have hsub : ((feSub 1 y : Nat) : ZMod p) ≠ 0 := by rwa [cast_feSub, Nat.cast_one]
    have h := congrArg (Nat.cast : Nat → ZMod p) (feMul_feMul_feInv (feAdd_lt 1 y) hsub)
    rwa [← hu, cast_feMul, cast_feSub, cast_feAdd, Nat.cast_one] at h
  have hne : u ≠ p - 1 := by
    rintro rfl
    rw [Nat.cast_sub one_lt_p.le, ZMod.natCast_self, Nat.cast_one] at hmont
    exact two_ne_zero_field (by linear_combination -hmont)
  refine ⟨hne, eq_of_cast_eq (edwardsY_lt u) hy ?_⟩
  have hplus : (u : ZMod p) + 1 ≠ 0 := fun h => two_ne_zero_field (by linear_combination -hmont + (1 - (y : ZMod p)) * h)
  apply mul_right_cancel₀ hplus
  linear_combination cast_edwardsY_mul hult hne + hmont

theorem length_montgomeryPublicKey (k : List Byte) : (montgomeryPublicKey k).length = 32 := length_feEncode _

/-- Mapped with the sign bit of the public point, the Montgomery public key gives that point's encoding (R107, R132). -/
theorem mapCore_montgomeryPublicKey {k : List Byte} (hk : k.length = 32) (h : clamped k = true) {sb : Byte} (hs : sb &&& 0x7F = 0)
    (hbit : sb.toNat / 128 = signBit (signPublic k)) : mapCore (montgomeryPublicKey k) sb = some (signPublic k) := by
  have := fact_prime_p
  obtain ⟨hon, -⟩ := isMultiple_scalarMult onCurve_basePoint (leNat k)
  obtain ⟨⟨-, hylt⟩, -⟩ := (onCurve_iff _).1 hon
  have hy1 : (scalarMult (leNat k) basePoint).y ≠ 1 := fun hy => scalarMult_clamped_ne_neutral hk h (eq_neutral_of_y_eq_one hon hy)
  have hu : feDecode (montgomeryPublicKey k) = _ := feDecode_feEncode (feMul_lt _ _)
  obtain ⟨hne, hinv⟩ := edwardsY_of_montgomery hylt hy1 hu
  obtain ⟨aed, hmap⟩ := Option.ne_none_iff_exists'.1 (mt (mapCore_eq_none_iff _ sb).1 hne)
  obtain ⟨-, hlow, hsign⟩ := mapCore_output hs hmap
  rw [hmap, Option.some_inj]
  refine eq_of_low255_signBit (length_mapCore hmap) (length_signPublic k) ?_ (hsign.trans hbit)
  rw [hlow, hinv, signPublic, low255_pointEncode hylt]

/-! ### The round trip (R153) -/

/-- With S = ha + r modulo L, the equation gives the nonce point. -/
theorem equation_of_scMulAdd (h a r : Nat) :
    pointAdd (scalarMult (scMulAdd h a r) basePoint) (scalarMult h (pointNeg (scalarMult a basePoint))) = scalarMult r basePoint := by
  have := fact_prime_p
  have on := onCurve_basePoint
  obtain ⟨honS, hS⟩ := isMultiple_scalarMult on (h * a + r)
  obtain ⟨honA, hA⟩ := isMultiple_scalarMult on a
  obtain ⟨honR, hR⟩ := isMultiple_scalarMult on r
  obtain ⟨honH, hH⟩ := isMultiple_scalarMult (onCurve_pointNeg honA) h
  rw [scMulAdd, scalarMult_mod_groupOrder]
  refine eq_of_inField_eq (onCurve_pointAdd honS honH) honR ?_
  rw [inField_pointAdd honS honH, hS, hH, hR, inField_pointNeg, hA]
  exact Edwards.smul_mul_add_smul_neg curve_complete (onE_inField on) h a r

/-- The stripped S of a signature is its S (R121, R144). -/
theorem strippedS_signature (k m seed : List Byte) : strippedS (signature k m seed) = signScalar k m seed := by
  have hS := signScalar_lt k m seed
  have hL := groupOrder_lt_pow253
  rw [strippedS_eq (length_signature k m seed), leNat_drop_signature, Nat.add_mul_mod_self_left, Nat.mod_eq_of_lt (by omega)]

/-- The sign bit stored in a signature is the public point's (R123, R133). -/
theorem sigSignBit_signature (k m seed : List Byte) :
    (sigSignBit (signature k m seed)).toNat / 128 = signBit (signPublic k) := by
  have hlen : ((signature k m seed).drop 32).length = 32 := by rw [List.length_drop, length_signature]
  have hbit : signBit ((signature k m seed).drop 32) = (sigSignBit (signature k m seed)).toNat / 128 := by
    rw [signBit, byteAt_drop, (sigSignBit_mask _).2]
  have hvalue := leNat_eq_low255 hlen
  rw [leNat_drop_signature, hbit] at hvalue
  have hS := signScalar_lt k m seed
  have hL := groupOrder_lt_pow253
  have hlow := low255_lt ((signature k m seed).drop 32)
  omega

/-- A signature of a clamped key verifies under the key's Montgomery public key, whatever the policy (R153). -/
theorem verifies_signature (schk : BitVec 2) {k : List Byte} (m seed : List Byte) (hk : k.length = 32) (h : clamped k = true) :
    verifies schk (montgomeryPublicKey k) m (signature k m seed) = true := by
  have := fact_prime_p
  obtain ⟨hmask, -⟩ := sigSignBit_mask (signature k m seed)
  have hS := signScalar_lt k m seed
  have hL := groupOrder_lt_pow253
  have hmap := mapCore_montgomeryPublicKey hk h hmask (sigSignBit_signature k m seed)
  have hdecode : pointDecode (signPublic k) = some (scalarMult (leNat k) basePoint) :=
    pointDecodingInvertsEncoding.2 _ (isMultiple_scalarMult onCurve_basePoint (leNat k)).1
  rw [verifies_iff, passesEquation_andByte31 (length_montgomeryPublicKey k), strippedS_signature, sigR, take_signature]
  refine ⟨(schkAccepts_iff _ _).2 ⟨fun _ => hS.trans hL, fun _ => hS⟩, _, _, hmap, hdecode, ?_⟩
  exact congrArg pointEncode (equation_of_scMulAdd _ _ _)

/-- Settles O29: SIG holds the signature, and a signature verifies. -/
theorem signThenVerifyIsTrue : Obligations.SignThenVerifyIsTrue := by
  intro s t s' hrun hw hk hexec hrun' hsig hmsg hpk
  obtain rfl : retire (signEffect s) = t := Host.Outcome.next.inj ((exec_running hrun).symm.trans hexec)
  have hsig' : s'.sig = signature s.key s.message s.seed := hsig.trans ((sig_signEffect hw).trans (signResult_of_clamped hk))
  refine ⟨_, exec_running hrun', ?_⟩
  change verifies s'.curSchk s'.pk s'.message s'.sig = true
  rw [hsig', hmsg, hpk]
  exact verifies_signature s'.curSchk s.message s.seed (length_key s) hk

end Sys2Proof.Machine
end

section
/-! PROOFS. CLEAR (spec/44_clear.md R160 to R162): what its completion leaves of the block, and the verdict of a VERIFY of cleared
buffers. -/

namespace Sys2Proof.Machine

/-! ### The completion of CLEAR -/

/-- The buffer bytes lie in two runs: KEY to AED, and MSG (R31). -/
theorem isBufferByte_iff (a : Nat) :
    isBufferByte a = true ↔ (keyBase ≤ a ∧ a < aedBase + 32) ∨ (msgBase ≤ a ∧ a < msgBase + Config.msgCap) := by
  simp [isBufferByte, aedBase]

/-- A string of buffer bytes reads as zeros after CLEAR's effect (R160). -/
theorem readBytes_clearEffect (s : State) {a n : Nat} (h : ∀ i < n, isBufferByte (a + i) = true) :
    readBytes (clearEffect s).mem a n = zeros n :=
  readBytes_eq_zeros fun i hi => by rw [readByte_clearEffect, if_pos (h i hi)]

/-- A string between KEY and the end of AED reads as zeros after CLEAR's effect (R160). -/
theorem readBytes_clearEffect_operand (s : State) {a n : Nat} (h1 : keyBase ≤ a) (h2 : a + n ≤ aedBase + 32) :
    readBytes (clearEffect s).mem a n = zeros n :=
  readBytes_clearEffect s fun i hi => (isBufferByte_iff _).2 (.inl (by omega))

/-- MSG reads as zeros after CLEAR's effect (R160). -/
theorem readBytes_clearEffect_msg (s : State) : readBytes (clearEffect s).mem msgBase Config.msgCap = zeros Config.msgCap :=
  readBytes_clearEffect s fun i hi => (isBufferByte_iff _).2 (.inr (by omega))

/-- A byte off the buffers is as it was after CLEAR's effect. -/
theorem readByte_clearEffect_other (s : State) {a : Nat} (h1 : ¬ (keyBase ≤ a ∧ a < aedBase + 32))
    (h2 : ¬ (msgBase ≤ a ∧ a < msgBase + Config.msgCap)) : readByte (clearEffect s).mem a = readByte s.mem a := by
  rw [readByte_clearEffect, if_neg (mt (isBufferByte_iff a).1 (not_or.2 ⟨h1, h2⟩))]

/-- Settles O30: every buffer lies in one of the two runs that the effect zeroes. -/
theorem clearCompletesWithZeroBuffers : Obligations.ClearCompletesWithZeroBuffers :=
  fun s hrun => ⟨_, exec_running hrun, readBytes_clearEffect_operand s (by decide) (by decide),
    readBytes_clearEffect_operand s (by decide) (by decide), readBytes_clearEffect_operand s (by decide) (by decide),
    readBytes_clearEffect_operand s (by decide) (by decide), readBytes_clearEffect_operand s (by decide) (by decide),
    readBytes_clearEffect_msg s, fun _ => readByte_clearEffect_other s, rfl, engineRetired_retire _, rfl, rfl, rfl, rfl, rfl, rfl⟩

/-- A memory of buffer bytes reads as 0 elsewhere. -/
theorem readByte_of_inBuffers {m : Memory} (h : m.inBuffers = true) {a : Nat} (ha : ¬ isBufferByte a = true) : readByte m a = 0 := by
  induction m with
  | nil => rfl
  | cons c m ih =>
    obtain ⟨k, v⟩ := c
    obtain ⟨hk, hm⟩ := Bool.and_eq_true_iff.1 h
    have hne : k ≠ a := fun he => ha (he ▸ hk)
    rw [readByte, if_neg hne, ih hm]

/-- CLEAR's effect on a sound memory leaves no byte listed (R161). -/
theorem clearEffect_mem_eq_nil {s : State} (h : MemorySound s) : (clearEffect s).mem = [] := by
  obtain ⟨hwf, -⟩ := effectOf_memorySound .clear h
  refine Memory.ext_readByte hwf rfl fun a => ?_
  change readByte (clearEffect s).mem a = 0
  rw [readByte_clearEffect]
  split
  · rfl
  · next ha => exact readByte_of_inBuffers h.2 ha

/-- Settles O31: reset leaves no byte listed either. -/
theorem clearLeavesTheResetMemory : Obligations.ClearLeavesTheResetMemory :=
  fun _ hrun hmem => ⟨_, exec_running hrun, clearEffect_mem_eq_nil hmem, rfl⟩

/-! ### A VERIFY of cleared buffers -/

/-- The point of order 2, to which a zero PK maps (R162). -/
def orderTwoPoint : Point := ⟨0, p - 1⟩

theorem onCurve_orderTwoPoint : onCurve orderTwoPoint = true := by decide +kernel

theorem pointNeg_orderTwoPoint : pointNeg orderTwoPoint = orderTwoPoint := by decide +kernel

theorem pointAdd_orderTwoPoint_self : pointAdd orderTwoPoint orderTwoPoint = neutral := by decide +kernel

/-- A zero PK maps, with sign bit 0, to the encoding of the point of order 2 (R132). -/
theorem mapCore_zeros : mapCore (zeros 32) 0 = some (pointEncode orderTwoPoint) := by decide +kernel

/-- The multiples of the point of order 2 are O and itself. -/
theorem scalarMult_orderTwoPoint (k : Nat) : scalarMult k orderTwoPoint = neutral ∨ scalarMult k orderTwoPoint = orderTwoPoint := by
  have := fact_prime_p
  have mult := fun k => scalarMultIsRepeatedAddition k orderTwoPoint onCurve_orderTwoPoint
  induction k with
  | zero => exact .inl (mult 0).1
  | succ k ih =>
    obtain ⟨-, hsucc, -⟩ := mult k
    rw [hsucc]
    rcases ih with h | h <;> rw [h]
    · exact .inr (pointAdd_neutral_left onCurve_orderTwoPoint)
    · exact .inl pointAdd_orderTwoPoint_self

/-- Neither multiple of the point of order 2 encodes as zeros. -/
theorem pointEncode_scalarMult_orderTwoPoint (k : Nat) : pointEncode (scalarMult k orderTwoPoint) ≠ zeros 32 := by
  rcases scalarMult_orderTwoPoint k with h | h <;> rw [h] <;> decide +kernel

/-- With S = 0 and the point of order 2 as A, the equation's point is a multiple of A (R162). -/
theorem equation_of_orderTwoPoint (h : Nat) :
    pointAdd (scalarMult 0 basePoint) (scalarMult h (pointNeg orderTwoPoint)) = scalarMult h orderTwoPoint := by
  have := fact_prime_p
  obtain ⟨hzero, -, -⟩ := scalarMultIsRepeatedAddition 0 basePoint onCurve_basePoint
  rw [hzero, pointNeg_orderTwoPoint, pointAdd_neutral_left (isMultiple_scalarMult onCurve_orderTwoPoint h).1]

/-- A zero PK passes no equation with sign bit 0, S = 0 and a zero nonce point, whatever the message. -/
theorem not_passesEquation_zeros (m : List Byte) : ¬ PassesEquation (zeros 32) m (zeros 32) 0 0 := by
  rintro ⟨aed, a, hmap, hdecode, heq⟩
  obtain rfl : pointEncode orderTwoPoint = aed := Option.some.inj (mapCore_zeros.symm.trans hmap)
  obtain rfl : orderTwoPoint = a :=
    Option.some.inj ((pointDecodingInvertsEncoding.2 _ onCurve_orderTwoPoint).symm.trans hdecode)
  rw [equation_of_orderTwoPoint] at heq
  exact pointEncode_scalarMult_orderTwoPoint _ heq

/-- A zero signature has S = 0. -/
theorem strippedS_zeros : strippedS (zeros 64) = 0 := by decide +kernel

/-- Settles O32: the equation fails before the policy matters. -/
theorem verifyOfClearedBuffersIsFalse : Obligations.VerifyOfClearedBuffersIsFalse := by
  intro schk
  have hsign : sigSignBit (zeros 64) = 0 := by decide
  have hnonce : sigR (zeros 64) = zeros 32 := by decide
  rw [← Bool.not_eq_true, verifies_iff, passesEquation_andByte31 (by decide), strippedS_zeros, hsign, hnonce]
  exact fun h => not_passesEquation_zeros [] h.2

end Sys2Proof.Machine
end

section
/-! PROOFS. Exceptions and the interrupt output (spec/60_exceptions.md R166 to R173): the command errors of writes, and what a step can do to
the flags, said once and read off for ERR and for `irq`. -/

namespace Sys2Proof.Machine

/-! ### The command errors of writes -/

/-- While a command runs, a write to `CMD` of any word is command error 2: busy is checked before the word is decoded (R167). -/
theorem step_of_commandWrite_busy {s : State} {w : Word} {rest : List Event} (hb : s.eng = .busy) (h : NextAccess (cmdWrite w) rest s) :
    step s = .next (raiseCmdError errBusy (present (cmdWrite w) (withAgenda rest s))) := by
  cases hd : decode w with
  | ok i => rw [step_of_legal h hd, issueCommand_of_busy i (by exact hb)]
  | error e => rw [step_of_illegal h hd, issueIllegal_of_busy (by exact hb)]

/-- Settles O8: the step is `issueCommand` or `issueIllegal` of the state with the write on the port; one lemma for each outcome. -/
theorem commandWriteChecksInOrder : Obligations.CommandWriteChecksInOrder := by
  intro s w rest h
  refine ⟨present (cmdWrite w) (withAgenda rest s), sameBlock_present s (cmdWrite w) rest, rfl, rfl, rfl,
    fun hb => step_of_commandWrite_busy hb h, fun hi e hd => ?_, fun hi i hd hc hl => ?_, fun hi i hd hok => ?_⟩
  · rw [step_of_illegal h hd, issueIllegal_of_idle (by exact hi)]
    rfl
  · rw [step_of_legal h hd, issueCommand_of_tooLong (by exact hi) ((checksLength_iff i).2 hc) (by exact hl)]
    rfl
  · have hfits : (i = .sign ∨ i = .verify) → s.msgLen.toNat ≤ Config.msgCap := fun hc => Nat.le_of_not_lt fun hl => hok ⟨hc, hl⟩
    rw [step_of_legal h hd, issueCommand_of_accepted (by exact hi) (by exact hfits)]

/-- While a command runs, a write to any region but `STATUS` is dropped with command error 2 (R168). -/
theorem writeValue_of_busy {s : State} {o : Nat} (v : Word) (hb : s.eng = .busy) (hr : region o ≠ .status) :
    writeValue o v s = raiseCmdError errBusy s := by
  rw [writeValue, if_neg hr, if_pos hb]

/-- No buffer the host may write lies in the region of `STATUS` (R51). -/
theorem region_ne_status_of_hostBuffer {o : Nat} (h : HostBuffer o) : region o ≠ .status := by
  rw [ne_eq, region_status_iff]
  unfold HostBuffer at h
  omega

/-- Settles O41: each of the offsets takes a write that is no bus error, no command and outside `STATUS`. -/
theorem busyWritesAreDropped : Obligations.BusyWritesAreDropped := by
  intro s off v rest hb h h4 hoff
  obtain ⟨herror, hcommand, hregion⟩ :
      (wordWrite off v).isBusError = false ∧ (wordWrite off v).commandWord = none ∧ region off.toNat ≠ .status := by
    rcases hoff with rfl | rfl | hbuf
    · exact ⟨rfl, rfl, by decide⟩
    · exact ⟨rfl, rfl, by decide⟩
    · exact ⟨isBusError_bufferWrite v h4 hbuf, commandWord_bufferWrite v hbuf, region_ne_status_of_hostBuffer hbuf⟩
  refine ⟨_, step_of_wordWrite h herror hcommand, ?_⟩
  rw [writeValue_of_busy v (by exact hb) hregion]
  exact ⟨rfl, ⟨rfl, rfl, rfl, rfl, rfl⟩, rfl, rfl, rfl, rfl, rfl, rfl⟩

/-! ### The flags -/

/-- What one step can do to `CTRL`, DONE, ERR and ERRCODE, with its cause and what it does to the engine. -/
inductive FlagChange (s t : State) : Prop where
  /-- None of them changes. -/
  | kept (eng : t.eng = s.eng) (ctrl : t.ctrl = s.ctrl) (status : t.status = s.status)
  /-- A write to `CTRL` is stored (R24). -/
  | control (v : Word) (rest : List Event) (cause : NextAccess (wordWrite 0x000 v) rest s)
      (eng : t.eng = s.eng) (ctrl : t.ctrl = Ctrl.ofWord v) (status : t.status = s.status)
  /-- A write to `STATUS` clears the bits it names (R27). -/
  | cleared (v : Word) (rest : List Event) (cause : NextAccess (wordWrite 0x004 v) rest s)
      (eng : t.eng = s.eng) (ctrl : t.ctrl = s.ctrl) (status : t.status = s.status.clearBits v)
  /-- A write raises a command error (R166, R169). -/
  | raised (code : BitVec 4) (legal : code = 1 ∨ code = 2 ∨ code = 3) (off : Offset) (v : Word) (rest : List Event)
      (cause : NextAccess (wordWrite off v) rest s)
      (eng : t.eng = s.eng) (ctrl : t.ctrl = s.ctrl) (status : t.status = s.status.raise code)
  /-- A command is accepted (R35). -/
  | accepted (i : Instr) (w : Word) (rest : List Event) (cause : NextAccess (cmdWrite w) rest s) (idle : s.eng = .idle)
      (eng : t.eng = .busy) (ctrl : t.ctrl = s.ctrl) (status : t.status = s.status.accept i.opcode)
  /-- The running command completes (R36). -/
  | completed (busy : s.eng = .busy) (eng : t.eng = .idle) (ctrl : t.ctrl = s.ctrl) (done : t.status.done = true)
      (err : t.status.err = s.status.err) (errCode : t.status.errCode = s.status.errCode)
  /-- The block is reset (R185). -/
  | reset (rest : List Event) (cause : s.agenda = .reset :: rest)
      (eng : t.eng = .idle) (ctrl : t.ctrl = ⟨false, 2⟩) (status : t.status = ⟨false, false, false, false, 0, 0⟩)

/-- A write of a command's word raises error 2 or 3, or is the accept (R167). -/
theorem flagChange_issueCommand {s : State} {w : Word} {rest : List Event} (h : NextAccess (cmdWrite w) rest s) (i : Instr) :
    FlagChange s (issueCommand i (intermediatesOf i) (present (cmdWrite w) (withAgenda rest s))) := by
  rcases issueCommand_cases i (present (cmdWrite w) (withAgenda rest s)) with ⟨_, he⟩ | ⟨_, _, _, he⟩ | ⟨hidle, _, he⟩ <;> rw [he]
  · exact .raised errBusy (.inr (.inl rfl)) 0x008 w rest h rfl rfl rfl
  · exact .raised errMsgLen (.inr (.inr rfl)) 0x008 w rest h rfl rfl rfl
  · exact .accepted i w rest h hidle rfl rfl rfl

/-- A write of an illegal word to `CMD` raises error 1 or 2 (R167). -/
theorem flagChange_issueIllegal {s : State} {w : Word} {rest : List Event} (h : NextAccess (cmdWrite w) rest s) :
    FlagChange s (issueIllegal (present (cmdWrite w) (withAgenda rest s))) := by
  rcases issueIllegal_cases (present (cmdWrite w) (withAgenda rest s)) with ⟨_, he⟩ | ⟨_, he⟩ <;> rw [he]
  · exact .raised errBusy (.inr (.inl rfl)) 0x008 w rest h rfl rfl rfl
  · exact .raised errIllegal (.inl rfl) 0x008 w rest h rfl rfl rfl

/-- Any other access keeps the flags, writes `CTRL` or `STATUS`, or is dropped with error 2 (R56, R168). -/
theorem flagChange_accessEffect {s : State} {a : Access} {rest : List Event} (h : NextAccess a rest s) :
    FlagChange s (accessEffect (present a (withAgenda rest s)) a) := by
  rcases accessEffect_effects (present a (withAgenda rest s)) a with
    he | ⟨v, rfl, he⟩ | ⟨off, v, rfl, _, he⟩ | ⟨v, rfl, _, he⟩ | ⟨v, _, _, he⟩ | ⟨off, v, _, _, _, _, he⟩ <;> rw [he]
  · exact .kept rfl rfl rfl
  · exact .cleared v rest h rfl rfl rfl
  · exact .raised errBusy (.inr (.inl rfl)) off v rest h rfl rfl rfl
  · exact .control v rest h rfl rfl rfl
  · exact .kept rfl rfl rfl
  · exact .kept rfl rfl rfl

/-- A completion sets DONE and leaves `CTRL`, ERR and ERRCODE as they were (R36, R170). -/
theorem flagChange_retire {s : State} (hb : s.eng = .busy) (i : Instr) (rest : List Event) :
    FlagChange s (retire (effectOf i (quiet (withAgenda rest s)))) := by
  obtain ⟨-, hctrl, -⟩ := effectOf_frame i (quiet (withAgenda rest s))
  obtain ⟨-, herr, hcode, -⟩ := effectOf_status i (quiet (withAgenda rest s))
  exact .completed hb rfl hctrl rfl herr hcode

/-- Every step that goes on is one of these changes of the flags. -/
theorem flagChange_of_step {s t : State} (h : step s = .next t) : FlagChange s t := by
  rcases step_next_cases h with
    ⟨rest, _, _, rfl⟩ | ⟨i, rest, _, hbusy, _, rfl⟩ | ⟨rest, ha, rfl⟩ |
      ⟨w, rest, ha, ⟨i, _, rfl⟩ | ⟨e, _, rfl⟩⟩ | ⟨a, rest, ha, _, rfl⟩
  · exact .kept rfl rfl rfl
  · exact flagChange_retire hbusy i rest
  · exact .reset rest ha rfl rfl rfl
  · exact flagChange_issueCommand ha i
  · exact flagChange_issueIllegal ha
  · exact flagChange_accessEffect ha

/-! ### ERR -/

/-- Before the block's own step no access is next. -/
theorem not_nextAccess_of_ownNext {s : State} {rest : List Event} (h : OwnNext rest s) (a : Access) (rest' : List Event) :
    ¬ NextAccess a rest' s := by
  unfold NextAccess
  rcases h with h | ⟨h, -⟩ <;> simp [h]

/-- Before the block's own step no reset is next. -/
theorem not_reset_of_ownNext {s : State} {rest : List Event} (h : OwnNext rest s) (rest' : List Event) : s.agenda ≠ .reset :: rest' := by
  rcases h with h | ⟨h, -⟩ <;> simp [h]

/-- Settles O44: a raised error or a clear leaves the engine as it was and takes an access, so neither is an accept or the block's own
step; a write to `STATUS` without bit 4 leaves ERR and ERRCODE as they were. -/
theorem errorIsSticky : Obligations.ErrorIsSticky := by
  intro s t h
  by_cases hsame : t.status.err = s.status.err ∧ t.status.errCode = s.status.errCode
  · exact ⟨.inl hsame, fun _ _ => hsame, fun _ _ => hsame⟩
  cases flagChange_of_step h with
  | kept _ _ status => exact absurd (by rw [status]; exact ⟨rfl, rfl⟩) hsame
  | control _ _ _ _ _ status => exact absurd (by rw [status]; exact ⟨rfl, rfl⟩) hsame
  | accepted _ _ _ _ _ _ _ status => exact absurd (by rw [status]; exact ⟨rfl, rfl⟩) hsame
  | completed _ _ _ _ err errCode => exact absurd ⟨err, errCode⟩ hsame
  | raised code legal off v rest cause eng _ status =>
    rw [status]
    exact ⟨.inr (.inl ⟨rfl, legal, off, v, rest, cause⟩), fun hi hb => (nomatch hi.symm.trans (eng.symm.trans hb)),
      fun _ hn => absurd cause (not_nextAccess_of_ownNext hn _ _)⟩
  | reset rest cause eng _ status =>
    rw [status]
    exact ⟨.inr (.inr ⟨rfl, rfl, .inr ⟨rest, cause⟩⟩), fun _ hb => (nomatch eng.symm.trans hb),
      fun _ hn => absurd cause (not_reset_of_ownNext hn _)⟩
  | cleared v rest cause eng _ status =>
    rw [status, Status.clearBits_err, Status.clearBits_errCode] at hsame ⊢
    have hbit : v.getLsbD 4 = true := by
      by_contra hbit
      rw [Bool.eq_false_iff.2 hbit] at hsame
      exact hsame ⟨Bool.and_true _, rfl⟩
    refine ⟨.inr (.inr ⟨?_, if_pos hbit, .inl ⟨v, rest, cause, hbit⟩⟩),
      fun hi hb => (nomatch hi.symm.trans (eng.symm.trans hb)), fun _ hn => absurd cause (not_nextAccess_of_ownNext hn _ _)⟩
    rw [hbit, Bool.not_true, Bool.and_false]

/-! ### The interrupt output -/

/-- The level rule of `irq` (R172). -/
theorem irq_iff (s : State) : s.irq = true ↔ s.ctrl.ie = true ∧ (s.status.done = true ∨ s.status.err = true) := by simp [State.irq]

/-- What raises `irq` (R172): a completion, a new command error, or a write of 1 to IE. -/
theorem irq_rise_cause {s t : State} (h : FlagChange s t) (hs : s.irq = false) (ht : t.irq = true) :
    (s.eng = .busy ∧ t.eng = .idle ∧ t.status.done = true) ∨ (s.status.err = false ∧ t.status.err = true) ∨
      ∃ v rest, NextAccess (wordWrite 0x000 v) rest s ∧ v.getLsbD 0 = true := by
  have hlow := mt (irq_iff s).2 (Bool.eq_false_iff.1 hs)
  obtain ⟨hie, hflag⟩ := (irq_iff t).1 ht
  cases h with
  | completed busy eng _ done => exact .inl ⟨busy, eng, done⟩
  | raised _ _ _ _ _ _ _ ctrl status =>
    exact .inr (.inl ⟨Bool.eq_false_iff.2 fun herr => hlow ⟨ctrl ▸ hie, .inr herr⟩, by rw [status]; rfl⟩)
  | control v rest cause _ ctrl =>
    rw [ctrl] at hie
    exact .inr (.inr ⟨v, rest, cause, hie⟩)
  | kept _ ctrl status =>
    rw [ctrl] at hie
    rw [status] at hflag
    exact absurd ⟨hie, hflag⟩ hlow
  | accepted _ _ _ _ _ _ ctrl status =>
    rw [ctrl] at hie
    rw [status] at hflag
    exact absurd ⟨hie, .inr (hflag.resolve_left nofun)⟩ hlow
  | cleared v _ _ _ ctrl status =>
    rw [ctrl] at hie
    rw [status, Status.clearBits_done, Status.clearBits_err, Bool.and_eq_true, Bool.and_eq_true] at hflag
    exact absurd ⟨hie, hflag.imp And.left And.left⟩ hlow
  | reset _ _ _ ctrl =>
    rw [ctrl] at hie
    cases hie

/-- What drops `irq` (R172): a write to `STATUS` that clears a bit, a write of 0 to IE, an accept without ERR set, or reset. -/
theorem irq_fall_cause {s t : State} (h : FlagChange s t) (hs : s.irq = true) (ht : t.irq = false) :
    (∃ v rest, NextAccess (wordWrite 0x004 v) rest s ∧ (v.getLsbD 1 = true ∨ v.getLsbD 4 = true)) ∨
      (∃ v rest, NextAccess (wordWrite 0x000 v) rest s ∧ v.getLsbD 0 = false) ∨
      (s.eng = .idle ∧ t.eng = .busy ∧ s.status.err = false) ∨ ∃ rest, s.agenda = .reset :: rest := by
  obtain ⟨hie, hflag⟩ := (irq_iff s).1 hs
  have hlow := mt (irq_iff t).2 (Bool.eq_false_iff.1 ht)
  cases h with
  | cleared v rest cause _ ctrl status =>
    refine .inl ⟨v, rest, cause, ?_⟩
    by_contra hbits
    obtain ⟨hdone, herr⟩ := not_or.1 hbits
    rw [ctrl, status, Status.clearBits_done, Status.clearBits_err, Bool.eq_false_iff.2 hdone, Bool.eq_false_iff.2 herr] at hlow
    exact hlow ⟨hie, by simpa using hflag⟩
  | control v rest cause _ ctrl status =>
    rw [ctrl, status] at hlow
    exact .inr (.inl ⟨v, rest, cause, Bool.eq_false_iff.2 fun hbit => hlow ⟨hbit, hflag⟩⟩)
  | accepted _ _ _ _ idle eng ctrl status =>
    rw [ctrl, status] at hlow
    exact .inr (.inr (.inl ⟨idle, eng, Bool.eq_false_iff.2 fun herr => hlow ⟨hie, .inr herr⟩⟩))
  | reset rest cause => exact .inr (.inr (.inr ⟨rest, cause⟩))
  | kept _ ctrl status =>
    rw [ctrl, status] at hlow
    exact absurd ⟨hie, hflag⟩ hlow
  | raised _ _ _ _ _ _ _ ctrl status =>
    rw [ctrl, status] at hlow
    exact absurd ⟨hie, .inr rfl⟩ hlow
  | completed _ _ ctrl done =>
    rw [ctrl] at hlow
    exact absurd ⟨hie, .inl done⟩ hlow

/-- Settles O43: `irq` is its rule by definition, and every step is a change of the flags with its cause. -/
theorem interruptMovesOnlyOnItsCauses : Obligations.InterruptMovesOnlyOnItsCauses := fun _ _ h =>
  ⟨rfl, irq_rise_cause (flagChange_of_step h), irq_fall_cause (flagChange_of_step h)⟩

end Sys2Proof.Machine
end

section
/-! PROOFS. Safety and progress (spec/70_reset_and_hazards.md R187, R196): no step from a sound state stops, and once the events to come
are taken the block's own turn leaves the engine idle. -/

namespace Sys2Proof.Machine

/-- Settles O4: a step stops only when busy with no command of the table, and the invariant names the command of a busy engine. -/
theorem invariantStatesNeverStop : Obligations.InvariantStatesNeverStop := by
  intro s hinv
  by_contra hstop
  obtain ⟨hbusy, hnone⟩ := step_stops (not_exists.1 hstop)
  obtain ⟨i, hop, -⟩ := hinv.busy hbusy
  rw [hop, decodeOpcode_opcode] at hnone
  cases hnone

/-- A sound block takes each event to come in one step, and its own turn after them leaves the engine idle. -/
theorem run_agenda_then_own_idle {s : State} (hinv : s.Inv) :
    ∃ t, Host.Core.run Sys2Proof.core (s.agenda.length + 1) s = .next t ∧ t.eng = .idle := by
  induction hag : s.agenda generalizing s with
  | nil =>
    obtain ⟨t, hstep, hidle⟩ := step_own_idle hinv hag
    exact ⟨t, (run_succ_eq_next Sys2Proof.core).2 ⟨t, hstep, rfl⟩, hidle⟩
  | cons e rest ih =>
    obtain ⟨u, hstep⟩ := invariantStatesNeverStop s hinv
    have hrest : u.agenda = rest := by rw [step_agenda hstep, hag, List.tail_cons]
    obtain ⟨t, hrun, hidle⟩ := ih (everyStepKeepsTheInvariant s u hinv hstep) hrest
    exact ⟨t, (run_succ_eq_next Sys2Proof.core).2 ⟨u, hstep, hrun⟩, hidle⟩

/-- Settles O49: the bound itself is a number of steps that does, by induction on the events to come. -/
theorem everyCommandCompletes : Obligations.EveryCommandCompletes := by
  intro s hinv
  obtain ⟨t, hrun, hidle⟩ := run_agenda_then_own_idle hinv
  exact ⟨s.agenda.length + 1, t, le_rfl, hrun, hidle⟩

end Sys2Proof.Machine
end
